-- ==== Sys2Proof/Word.lean ====
section
/-! DEFINITION. The word types of the block (00_scope.md R7, R8). -/

namespace Sys2Proof

/-- A byte, `u8`. -/
abbrev Byte := BitVec 8

/-- A halfword, `u16`. -/
abbrev Half := BitVec 16

/-- A word, `u32`: an instruction word, a CP0 register, a 32-bit operand. -/
abbrev Word := BitVec 32

/-- A general register's value, `u64` (10_state.md R20). -/
abbrev DWord := BitVec 64

/-- A byte address, `u32` (00_scope.md R5: `ADDR_WIDTH` is 32). -/
abbrev Addr := BitVec 32

/-- A register number, the 5-bit field of an instruction (30_encoding.md R83). -/
abbrev Reg := BitVec 5

end Sys2Proof
end

