-- ==== Sys2Proof/Decode.lean ====
section
/-! DEFINITION. Decoding and encoding (30_encoding.md R80 to R91). `decode` follows the opcode maps of R85 to R88, field by
field; `encode` builds the word of an instruction from the formats of R82; `opcodeTable` is the table of masks and matches
that R90 speaks of. -/

namespace Sys2Proof

/-! ## Fields (30_encoding.md R81) -/

/-- `op`, bits 31:26, the primary category. -/
def opOf (w : Word) : BitVec 6 := w.extractLsb' 26 6

/-- `rs`, bits 25:21. -/
def rsOf (w : Word) : Reg := w.extractLsb' 21 5

/-- `rt`, bits 20:16. -/
def rtOf (w : Word) : Reg := w.extractLsb' 16 5

/-- `rd`, bits 15:11. -/
def rdOf (w : Word) : Reg := w.extractLsb' 11 5

/-- `sa`, bits 10:6. -/
def saOf (w : Word) : BitVec 5 := w.extractLsb' 6 5

/-- `funct`, bits 5:0. -/
def functOf (w : Word) : BitVec 6 := w.extractLsb' 0 6

/-- `imm`, bits 15:0. -/
def immOf (w : Word) : Half := w.extractLsb' 0 16

/-- `target`, bits 25:0. -/
def targetOf (w : Word) : BitVec 26 := w.extractLsb' 0 26

/-- The word that holds a field's value with its lowest bit at bit `lo`, and zeros elsewhere. -/
def place {n : Nat} (lo : Nat) (v : BitVec n) : Word := v.setWidth 32 <<< lo

/-! ## Decoding -/

/-- `some i` where a field that must be zero is zero (30_encoding.md R89). -/
def whenZero (z : Bool) (i : Instr) : Option Instr := if z then some i else none

/-- The SPECIAL function map, `op` = 0 (30_encoding.md R86). -/
def decodeSpecial (w : Word) : Option Instr :=
  match functOf w with
  | 0x00#6 => whenZero (rsOf w == 0) (.sll (rdOf w) (rtOf w) (saOf w))
  | 0x02#6 => whenZero (rsOf w == 0) (.srl (rdOf w) (rtOf w) (saOf w))
  | 0x03#6 => whenZero (rsOf w == 0) (.sra (rdOf w) (rtOf w) (saOf w))
  | 0x04#6 => whenZero (saOf w == 0) (.sllv (rdOf w) (rtOf w) (rsOf w))
  | 0x06#6 => whenZero (saOf w == 0) (.srlv (rdOf w) (rtOf w) (rsOf w))
  | 0x07#6 => whenZero (saOf w == 0) (.srav (rdOf w) (rtOf w) (rsOf w))
  | 0x08#6 => whenZero (rtOf w == 0 && rdOf w == 0 && saOf w == 0) (.jr (rsOf w))
  | 0x09#6 => whenZero (rtOf w == 0 && saOf w == 0) (.jalr (rdOf w) (rsOf w))
  | 0x20#6 => whenZero (saOf w == 0) (.add (rdOf w) (rsOf w) (rtOf w))
  | 0x21#6 => whenZero (saOf w == 0) (.addu (rdOf w) (rsOf w) (rtOf w))
  | 0x22#6 => whenZero (saOf w == 0) (.sub (rdOf w) (rsOf w) (rtOf w))
  | 0x23#6 => whenZero (saOf w == 0) (.subu (rdOf w) (rsOf w) (rtOf w))
  | 0x24#6 => whenZero (saOf w == 0) (.and (rdOf w) (rsOf w) (rtOf w))
  | 0x25#6 => whenZero (saOf w == 0) (.or (rdOf w) (rsOf w) (rtOf w))
  | 0x26#6 => whenZero (saOf w == 0) (.xor (rdOf w) (rsOf w) (rtOf w))
  | 0x27#6 => whenZero (saOf w == 0) (.nor (rdOf w) (rsOf w) (rtOf w))
  | 0x2A#6 => whenZero (saOf w == 0) (.slt (rdOf w) (rsOf w) (rtOf w))
  | 0x2B#6 => whenZero (saOf w == 0) (.sltu (rdOf w) (rsOf w) (rtOf w))
  | _ => none

/-- The REGIMM map, `op` = 1, selected by `rt` (30_encoding.md R87). -/
def decodeRegimm (w : Word) : Option Instr :=
  match rtOf w with
  | 0x00#5 => some (.bltz (rsOf w) (immOf w))
  | 0x01#5 => some (.bgez (rsOf w) (immOf w))
  | 0x10#5 => some (.bltzal (rsOf w) (immOf w))
  | 0x11#5 => some (.bgezal (rsOf w) (immOf w))
  | _ => none

/-- The COP0 map, `op` = 0x10 (30_encoding.md R88): MFC0 and MTC0 by `rs` with bits 10:0 zero, and the single word of
ERET. -/
def decodeCop0 (w : Word) : Option Instr :=
  match rsOf w with
  | 0x00#5 => whenZero (saOf w == 0 && functOf w == 0) (.mfc0 (rtOf w) (rdOf w))
  | 0x04#5 => whenZero (saOf w == 0 && functOf w == 0) (.mtc0 (rtOf w) (rdOf w))
  | 0x10#5 => whenZero (rtOf w == 0 && rdOf w == 0 && saOf w == 0 && functOf w == 0x18) .eret
  | _ => none

/-- `decode` (30_encoding.md R90): the instruction a word selects by the primary opcode map (R85), or none where the word
is Unsupported (R91). -/
def decode (w : Word) : Option Instr :=
  match opOf w with
  | 0x00#6 => decodeSpecial w
  | 0x01#6 => decodeRegimm w
  | 0x02#6 => some (.j (targetOf w))
  | 0x03#6 => some (.jal (targetOf w))
  | 0x04#6 => some (.beq (rsOf w) (rtOf w) (immOf w))
  | 0x05#6 => some (.bne (rsOf w) (rtOf w) (immOf w))
  | 0x06#6 => whenZero (rtOf w == 0) (.blez (rsOf w) (immOf w))
  | 0x07#6 => whenZero (rtOf w == 0) (.bgtz (rsOf w) (immOf w))
  | 0x08#6 => some (.addi (rtOf w) (rsOf w) (immOf w))
  | 0x09#6 => some (.addiu (rtOf w) (rsOf w) (immOf w))
  | 0x0A#6 => some (.slti (rtOf w) (rsOf w) (immOf w))
  | 0x0B#6 => some (.sltiu (rtOf w) (rsOf w) (immOf w))
  | 0x0C#6 => some (.andi (rtOf w) (rsOf w) (immOf w))
  | 0x0D#6 => some (.ori (rtOf w) (rsOf w) (immOf w))
  | 0x0E#6 => some (.xori (rtOf w) (rsOf w) (immOf w))
  | 0x0F#6 => whenZero (rsOf w == 0) (.lui (rtOf w) (immOf w))
  | 0x10#6 => decodeCop0 w
  | 0x20#6 => some (.lb (rtOf w) (rsOf w) (immOf w))
  | 0x21#6 => some (.lh (rtOf w) (rsOf w) (immOf w))
  | 0x23#6 => some (.lw (rtOf w) (rsOf w) (immOf w))
  | 0x24#6 => some (.lbu (rtOf w) (rsOf w) (immOf w))
  | 0x25#6 => some (.lhu (rtOf w) (rsOf w) (immOf w))
  | 0x28#6 => some (.sb (rtOf w) (rsOf w) (immOf w))
  | 0x29#6 => some (.sh (rtOf w) (rsOf w) (immOf w))
  | 0x2B#6 => some (.sw (rtOf w) (rsOf w) (immOf w))
  | _ => none

/-- Why bytes decode to no instruction. -/
inductive DecodeReject where
  /-- fewer than the four bytes of an instruction (30_encoding.md R80) -/
  | truncated
  /-- the word selects none of the admitted instructions (30_encoding.md R91) -/
  | unsupported (w : Word)
deriving DecidableEq, Repr

/-- The word of the first four bytes, the lowest address most significant (20_memory.md R57). -/
def wordOfBytes (b0 b1 b2 b3 : Byte) : Word :=
  place 24 b0 ||| place 16 b1 ||| place 8 b2 ||| place 0 b3

/-- The bytes of a word as memory holds them, the most significant first (20_memory.md R57). -/
def bytesOfWord (w : Word) : List Byte :=
  [w.extractLsb' 24 8, w.extractLsb' 16 8, w.extractLsb' 8 8, w.extractLsb' 0 8]

/-- The instruction at the head of a list of bytes, total, with the rest of the list. -/
def decodeBytes : List Byte → Except DecodeReject (Instr × List Byte)
  | b0 :: b1 :: b2 :: b3 :: rest =>
    match decode (wordOfBytes b0 b1 b2 b3) with
    | some i => .ok (i, rest)
    | none => .error (.unsupported (wordOfBytes b0 b1 b2 b3))
  | _ => .error .truncated

/-- The instruction the decoder reads from a table row's word of `nbits` bits: the word laid out in memory, big-endian, and
decoded from its bytes. -/
def decodeTableWord (nbits w : Nat) : Option Instr :=
  match decodeBytes (bytesOfWord (BitVec.ofNat 32 (w % 2 ^ nbits))) with
  | .ok (i, _) => some i
  | .error _ => none

/-! ## Encoding (30_encoding.md R82) -/

/-- The R format: `op=000000 | rs | rt | rd | sa | funct`. -/
def encodeR (rs rt rd : Reg) (sa : BitVec 5) (funct : BitVec 6) : Word :=
  place 26 0x00#6 ||| place 21 rs ||| place 16 rt ||| place 11 rd ||| place 6 sa ||| place 0 funct

/-- The I format, and RI with the sub-operation in `rt`: `op | rs | rt | imm`. -/
def encodeI (op : BitVec 6) (rs rt : Reg) (imm : Half) : Word :=
  place 26 op ||| place 21 rs ||| place 16 rt ||| place 0 imm

/-- The J format: `op | target`. -/
def encodeJ (op : BitVec 6) (target : BitVec 26) : Word := place 26 op ||| place 0 target

/-- The C0 format: `op=010000 | rs=sub-op | rt | rd | 00000000000`. -/
def encodeC0 (sub rt rd : Reg) : Word :=
  place 26 0x10#6 ||| place 21 sub ||| place 16 rt ||| place 11 rd

/-- The word of an instruction. -/
def encode : Instr → Word
  | .sll rd rt sa => encodeR 0 rt rd sa 0x00#6
  | .srl rd rt sa => encodeR 0 rt rd sa 0x02#6
  | .sra rd rt sa => encodeR 0 rt rd sa 0x03#6
  | .sllv rd rt rs => encodeR rs rt rd 0 0x04#6
  | .srlv rd rt rs => encodeR rs rt rd 0 0x06#6
  | .srav rd rt rs => encodeR rs rt rd 0 0x07#6
  | .jr rs => encodeR rs 0 0 0 0x08#6
  | .jalr rd rs => encodeR rs 0 rd 0 0x09#6
  | .add rd rs rt => encodeR rs rt rd 0 0x20#6
  | .addu rd rs rt => encodeR rs rt rd 0 0x21#6
  | .sub rd rs rt => encodeR rs rt rd 0 0x22#6
  | .subu rd rs rt => encodeR rs rt rd 0 0x23#6
  | .and rd rs rt => encodeR rs rt rd 0 0x24#6
  | .or rd rs rt => encodeR rs rt rd 0 0x25#6
  | .xor rd rs rt => encodeR rs rt rd 0 0x26#6
  | .nor rd rs rt => encodeR rs rt rd 0 0x27#6
  | .slt rd rs rt => encodeR rs rt rd 0 0x2A#6
  | .sltu rd rs rt => encodeR rs rt rd 0 0x2B#6
  | .bltz rs imm => encodeI 0x01#6 rs 0x00#5 imm
  | .bgez rs imm => encodeI 0x01#6 rs 0x01#5 imm
  | .bltzal rs imm => encodeI 0x01#6 rs 0x10#5 imm
  | .bgezal rs imm => encodeI 0x01#6 rs 0x11#5 imm
  | .j target => encodeJ 0x02#6 target
  | .jal target => encodeJ 0x03#6 target
  | .beq rs rt imm => encodeI 0x04#6 rs rt imm
  | .bne rs rt imm => encodeI 0x05#6 rs rt imm
  | .blez rs imm => encodeI 0x06#6 rs 0 imm
  | .bgtz rs imm => encodeI 0x07#6 rs 0 imm
  | .addi rt rs imm => encodeI 0x08#6 rs rt imm
  | .addiu rt rs imm => encodeI 0x09#6 rs rt imm
  | .slti rt rs imm => encodeI 0x0A#6 rs rt imm
  | .sltiu rt rs imm => encodeI 0x0B#6 rs rt imm
  | .andi rt rs imm => encodeI 0x0C#6 rs rt imm
  | .ori rt rs imm => encodeI 0x0D#6 rs rt imm
  | .xori rt rs imm => encodeI 0x0E#6 rs rt imm
  | .lui rt imm => encodeI 0x0F#6 0 rt imm
  | .lb rt rs imm => encodeI 0x20#6 rs rt imm
  | .lh rt rs imm => encodeI 0x21#6 rs rt imm
  | .lw rt rs imm => encodeI 0x23#6 rs rt imm
  | .lbu rt rs imm => encodeI 0x24#6 rs rt imm
  | .lhu rt rs imm => encodeI 0x25#6 rs rt imm
  | .sb rt rs imm => encodeI 0x28#6 rs rt imm
  | .sh rt rs imm => encodeI 0x29#6 rs rt imm
  | .sw rt rs imm => encodeI 0x2B#6 rs rt imm
  | .mfc0 rt rd => encodeC0 0x00#5 rt rd
  | .mtc0 rt rd => encodeC0 0x04#5 rt rd
  | .eret => 0x42000018#32

/-! ## The opcode table (30_encoding.md R89, R90) -/

/-- A row of opcode_table.json: the fixed bits, opcode fields and zero fields both, and their values. -/
structure OpcodeRow where
  mnemonic : String
  mask : Word
  pattern : Word
deriving DecidableEq, Repr

/-- Whether a word matches a row: `(w & r.mask) == r.match`. -/
def OpcodeRow.covers (r : OpcodeRow) (w : Word) : Bool := w &&& r.mask == r.pattern

/-- The rows of register-register ALU and shifts. -/
def opcodeRowsRegister : List OpcodeRow := [
  ⟨"ADD", 0xFC0007FF#32, 0x00000020#32⟩,
  ⟨"ADDU", 0xFC0007FF#32, 0x00000021#32⟩,
  ⟨"SUB", 0xFC0007FF#32, 0x00000022#32⟩,
  ⟨"SUBU", 0xFC0007FF#32, 0x00000023#32⟩,
  ⟨"AND", 0xFC0007FF#32, 0x00000024#32⟩,
  ⟨"OR", 0xFC0007FF#32, 0x00000025#32⟩,
  ⟨"XOR", 0xFC0007FF#32, 0x00000026#32⟩,
  ⟨"NOR", 0xFC0007FF#32, 0x00000027#32⟩,
  ⟨"SLT", 0xFC0007FF#32, 0x0000002A#32⟩,
  ⟨"SLTU", 0xFC0007FF#32, 0x0000002B#32⟩,
  ⟨"SLL", 0xFFE0003F#32, 0x00000000#32⟩,
  ⟨"SRL", 0xFFE0003F#32, 0x00000002#32⟩,
  ⟨"SRA", 0xFFE0003F#32, 0x00000003#32⟩,
  ⟨"SLLV", 0xFC0007FF#32, 0x00000004#32⟩,
  ⟨"SRLV", 0xFC0007FF#32, 0x00000006#32⟩,
  ⟨"SRAV", 0xFC0007FF#32, 0x00000007#32⟩]

/-- The rows of control transfer. -/
def opcodeRowsControl : List OpcodeRow := [
  ⟨"JR", 0xFC1FFFFF#32, 0x00000008#32⟩,
  ⟨"JALR", 0xFC1F07FF#32, 0x00000009#32⟩,
  ⟨"J", 0xFC000000#32, 0x08000000#32⟩,
  ⟨"JAL", 0xFC000000#32, 0x0C000000#32⟩,
  ⟨"BEQ", 0xFC000000#32, 0x10000000#32⟩,
  ⟨"BNE", 0xFC000000#32, 0x14000000#32⟩,
  ⟨"BLEZ", 0xFC1F0000#32, 0x18000000#32⟩,
  ⟨"BGTZ", 0xFC1F0000#32, 0x1C000000#32⟩,
  ⟨"BLTZ", 0xFC1F0000#32, 0x04000000#32⟩,
  ⟨"BGEZ", 0xFC1F0000#32, 0x04010000#32⟩,
  ⟨"BLTZAL", 0xFC1F0000#32, 0x04100000#32⟩,
  ⟨"BGEZAL", 0xFC1F0000#32, 0x04110000#32⟩]

/-- The rows of immediate arithmetic. -/
def opcodeRowsImmediate : List OpcodeRow := [
  ⟨"ADDI", 0xFC000000#32, 0x20000000#32⟩,
  ⟨"ADDIU", 0xFC000000#32, 0x24000000#32⟩,
  ⟨"SLTI", 0xFC000000#32, 0x28000000#32⟩,
  ⟨"SLTIU", 0xFC000000#32, 0x2C000000#32⟩,
  ⟨"ANDI", 0xFC000000#32, 0x30000000#32⟩,
  ⟨"ORI", 0xFC000000#32, 0x34000000#32⟩,
  ⟨"XORI", 0xFC000000#32, 0x38000000#32⟩,
  ⟨"LUI", 0xFFE00000#32, 0x3C000000#32⟩]

/-- The rows of loads, stores and system control. -/
def opcodeRowsMemory : List OpcodeRow := [
  ⟨"LB", 0xFC000000#32, 0x80000000#32⟩,
  ⟨"LBU", 0xFC000000#32, 0x90000000#32⟩,
  ⟨"LH", 0xFC000000#32, 0x84000000#32⟩,
  ⟨"LHU", 0xFC000000#32, 0x94000000#32⟩,
  ⟨"LW", 0xFC000000#32, 0x8C000000#32⟩,
  ⟨"SB", 0xFC000000#32, 0xA0000000#32⟩,
  ⟨"SH", 0xFC000000#32, 0xA4000000#32⟩,
  ⟨"SW", 0xFC000000#32, 0xAC000000#32⟩,
  ⟨"MFC0", 0xFFE007FF#32, 0x40000000#32⟩,
  ⟨"MTC0", 0xFFE007FF#32, 0x40800000#32⟩,
  ⟨"ERET", 0xFFFFFFFF#32, 0x42000018#32⟩]

/-- The 47 rows of opcode_table.json, in its order. -/
def opcodeTable : List OpcodeRow := opcodeRowsRegister ++ opcodeRowsControl ++ opcodeRowsImmediate ++ opcodeRowsMemory

end Sys2Proof
end

