-- ==== Sys2Proof/Config.lean ====
section
/-! DEFINITION. The parameters of 00_scope.md R5. The named numbers are plain data that State holds in `cfg` (log 1),
so that every statement over states is a statement for every value of them. The opaque functions of R5 are constants
without a body: nothing can evaluate them (logs 3 to 6). -/

namespace Sys2Proof

/-- `MODE`: the decoder policy for unsupported encodings (30_encoding.md R92). -/
inductive Mode where
  | strict
  | permissive
deriving DecidableEq, Repr

/-- The parameters of 00_scope.md R5 that have a value. `GPR_WIDTH` = 64 and `ADDR_WIDTH` = 32 are fixed there and are
the types `DWord` and `Addr`. -/
structure Config where
  /-- `RAM_SIZE`, bytes of RAM -/
  ramSize : Nat
  /-- `CARTRIDGE_BASE`, the address of ROM byte 0 -/
  cartridgeBase : Addr
  /-- `HEADER_SIZE`, the least length of a cartridge -/
  headerSize : Nat
  /-- `ENTRY_VECTOR`, pc after reset -/
  entryVector : Addr
  /-- `EXCEPTION_VECTOR`, pc after any exception or interrupt -/
  exceptionVector : Addr
  /-- `MAILBOX_ADDR`, the signal coprocessor's three words -/
  mailboxAddr : Addr
  /-- `INSN_BUDGET`, processor steps in a macro-step -/
  insnBudget : Nat
  /-- `MODE` -/
  mode : Mode
  /-- `SNAPSHOT_VERSION`, the tag a snapshot must carry -/
  snapshotVersion : Word
  /-- `NUM_CONTROLLERS` -/
  numControllers : Nat
  /-- `PIXEL_WIDTH` -/
  pixelWidth : Nat
  /-- `PIXEL_HEIGHT` -/
  pixelHeight : Nat
deriving DecidableEq, Repr

/-- The configuration State.reset holds: configuration T of 95_test_vectors.md section 0, with a pixel buffer of one
pixel, which T leaves out. DESIGN CHOICE, unsafe if a claim rests on a number in it (log 2). -/
def Config.default : Config where
  ramSize := 0x00800000
  cartridgeBase := 0x10000000#32
  headerSize := 0x40
  entryVector := 0x10000040#32
  exceptionVector := 0x10000180#32
  mailboxAddr := 0x00000F00#32
  insnBudget := 1000
  mode := .strict
  snapshotVersion := 1#32
  numControllers := 1
  pixelWidth := 1
  pixelHeight := 1

/-- The length in bytes of the pixel buffer: `PIXEL_WIDTH * PIXEL_HEIGHT * 4` (10_state.md R36). -/
def Config.pixelBytes (c : Config) : Nat := c.pixelWidth * c.pixelHeight * 4

/-- What `SP_PROCESS` answers (60_exceptions.md R223): the bytes it leaves changed in RAM, as offset and byte in the
order written (log 4); its new state, as its snapshot image (log 3); whether it made display commands; the PCM batch. -/
structure SpTask where
  ramWrites : List (Nat × Byte)
  image : List Byte
  dpCommands : Bool
  pcm : List Byte
deriving DecidableEq, Repr, Inhabited

/-- What `DP_RENDER` answers (80_step_loop_and_snapshot.md R268): the pixel bytes and its new opaque state's image. -/
structure DpFrame where
  pixels : List Byte
  image : List Byte
deriving DecidableEq, Repr, Inhabited

namespace Config

/-- `SP_PROCESS(sp, ram, ptr, len)`, opaque (60_exceptions.md R223; log 4): of the SP's image, the listed bytes of RAM,
TASK_PTR and TASK_LEN. -/
opaque spProcess : List Byte → List (Nat × Byte) → Word → Word → SpTask

/-- `DP_RENDER(dp, ram)`, opaque (80_step_loop_and_snapshot.md R268; log 5): of the pending bit, the pixels, the DP's
image and the listed bytes of RAM. -/
opaque dpRender : Bool → List Byte → List Byte → List (Nat × Byte) → DpFrame

/-- The string behind `spResetImage`. -/
opaque spResetString : List Byte

/-- The string behind `dpResetImage`. -/
opaque dpResetString : List Byte

/-- `SP_ENCODE(SP_RESET)`: the image of the signal coprocessor's reset state (10_state.md R35; log 6). It is shorter than
2^31 + 1 bytes, so that a snapshot's LENGTH can say it (log 18). -/
def spResetImage : List Byte := spResetString.take (2 ^ 31)

/-- `DP_ENCODE(DP_RESET)`: the image of the display coprocessor's opaque reset state (10_state.md R36; log 6), as short
(log 18). -/
def dpResetImage : List Byte := dpResetString.take (2 ^ 31)

/-- The strings other than the reset image that `SP_ENCODE` produces (80_step_loop_and_snapshot.md R279; log 3). -/
opaque spOtherImage : List Byte → Bool

/-- The strings other than the reset image that `DP_ENCODE` produces (80_step_loop_and_snapshot.md R279; log 3). -/
opaque dpOtherImage : List Byte → Bool

/-- `SP_DECODE` succeeds on exactly these strings (80_step_loop_and_snapshot.md R279; log 3). -/
def spImageOk (image : List Byte) : Bool := image == spResetImage || spOtherImage image

/-- `DP_DECODE` succeeds on exactly these strings (80_step_loop_and_snapshot.md R279; log 3). -/
def dpImageOk (image : List Byte) : Bool := image == dpResetImage || dpOtherImage image

end Config

end Sys2Proof
end

