-- ==== Sys2Proof/Machine/State.lean ====
section
/-! DEFINITION. The machine's state (10_state.md R20 to R40), the reasons a step can stop, the state at construction and
State.reset. Everything is plain data. -/

namespace Sys2Proof.Machine

/-- Why an instruction does not complete: the halts of 40_execution_cycle.md R108, each with what it records. `exec`
answers them; `step` then stops the StepLoop with the halt as its stop reason (80_step_loop_and_snapshot.md R263; log 8).
Each is the spec's own outcome and leaves the state as it was: safe. -/
inductive Fault where
  /-- an access or fetch at an unmapped address `a`; raised by the fetch, loads and stores (20_memory.md R54); safe -/
  | addressError (a : Addr)
  /-- a misaligned access address, jump target or ERET target `a`; raised by loads and stores (20_memory.md R56), JR, JALR
  (42_control_transfer.md R150) and ERET (45_coprocessor0.md R206); safe -/
  | alignmentError (a : Addr)
  /-- a word that is no admitted instruction, in Strict mode, with the instruction's address; raised by decode
  (30_encoding.md R92) and by MFC0 and MTC0 of an absent register (45_coprocessor0.md R202); safe -/
  | unsupportedOpcode (instPC : Addr) (w : Word)
  /-- a control instruction in a delay slot, with its address and word; raised by every control instruction
  (40_execution_cycle.md R102); safe -/
  | branchInDelaySlot (instPC : Addr) (w : Word)
deriving DecidableEq, Repr

/-- Why the model gives no meaning. -/
inductive Refusal where
  /-- an instruction without a meaning in this model; raised by arms of `exec`, of which none is left; safe -/
  | notModelled (mnemonic : String)
  /-- the configuration breaks a constraint of 00_scope.md R5, which is "refused, not run"; raised by `step` (log 10);
  safe -/
  | invalidConfiguration
deriving DecidableEq, Repr

/-- The delay state (10_state.md R25). -/
inductive Delay where
  /-- the next instruction is not in a delay slot -/
  | none
  /-- it is in the slot of a taken branch or jump, and control goes to `target` after it -/
  | taken (target : Addr)
  /-- it is in the slot of a branch that was not taken -/
  | notTaken
deriving DecidableEq, Repr

/-- Bytes by offset, as a list in one canonical form: offsets strictly rising, no zero byte listed (log 14). An unlisted
byte is 0: RAM "all zero" after reset (10_state.md R39). -/
structure Memory where
  cells : List Host.Cell
deriving DecidableEq, Repr

/-- Every byte 0. -/
def Memory.zero : Memory := { cells := [] }

/-- The signal coprocessor's opaque state (10_state.md R35), as the string `SP_ENCODE` gives for it (log 3). -/
structure SpState where
  image : List Byte
deriving DecidableEq, Repr

/-- The display coprocessor's state (10_state.md R36): the pending-command indicator, the pixel buffer, and the opaque part
as the string `DP_ENCODE` gives for it (log 3). -/
structure DpState where
  pending : Bool
  pixels : List Byte
  image : List Byte
deriving DecidableEq, Repr

/-- One controller record (10_state.md R37); the axes are signed bytes. -/
structure Controller where
  buttons : Half
  axisX : Byte
  axisY : Byte
  connected : Bool
deriving DecidableEq, Repr

/-- A controller record after reset: all zero (10_state.md R37). -/
def Controller.zero : Controller := { buttons := 0, axisX := 0, axisY := 0, connected := false }

/-- The StepLoop's states (10_state.md R38). -/
inductive LoopState where
  | stopped
  | running
  | paused
deriving DecidableEq, Repr

/-- The stop reason (80_step_loop_and_snapshot.md R266). -/
inductive StopReason where
  /-- never stopped, or restarted since -/
  | none
  | hostStop
  /-- a halt, with what it records -/
  | halted (f : Fault)
deriving DecidableEq, Repr

/-- Which agent of the macro-step acts next (80_step_loop_and_snapshot.md R260; logs 7 and 21). -/
inductive Phase where
  /-- the processor, after `stepsDone` steps of this macro-step; `processor 0` is the boundary -/
  | processor (stepsDone : Nat)
  | signal
  | display
  | collaborators
deriving DecidableEq, Repr

/-- The host's requests (10_state.md R41, 80_step_loop_and_snapshot.md R269). -/
inductive HostRequest where
  | reset
  | loadCartridge (bytes : List Byte)
  | start
  | pause
  | resume
  | stop
  | save (includePixels : Bool)
  | load (stream : List Byte)
  | applyCheat (address value : Word)
deriving DecidableEq, Repr

/-- What the host is told of a request. -/
inductive HostReply where
  /-- the request was carried out -/
  | done
  /-- the request does not fit the StepLoop's state and had no effect (80_step_loop_and_snapshot.md R264) -/
  | ignored
  /-- the snapshot a save made (R275) -/
  | snapshot (stream : List Byte)
  /-- a failed load (R280) -/
  | corruptState
  /-- a failed cheat (R274) -/
  | invalidAddress
  /-- a failed cartridge load (20_memory.md R66) -/
  | invalidCartridge
deriving DecidableEq, Repr

/-- What the block emits (log 12). -/
inductive Output where
  /-- the log event of a permissive no-op (30_encoding.md R92) -/
  | unsupported (instPC : Addr) (w : Word)
  /-- a PCM sample batch (60_exceptions.md R223; log 19) -/
  | pcm (batch : List Byte)
  | reply (r : HostReply)
deriving DecidableEq, Repr

/-- The machine's state: the record of 10_state.md R40, the configuration of 00_scope.md R5, the held requests of
80_step_loop_and_snapshot.md R271, and the model's own `phase`, `inputs` and `outputs`. -/
structure State where
  /-- the parameters, changed by nothing (log 1) -/
  cfg : Config
  /-- x[0..31] (R20); slot 0 is never read (R21; log 20) -/
  regs : Vector DWord 32
  /-- R24 -/
  pc : Addr
  /-- R25 -/
  delay : Delay
  /-- CP0 register 12 (R31) -/
  status : Word
  /-- CP0 register 13 (R32) -/
  cause : Word
  /-- CP0 register 14 (R33) -/
  epc : Word
  /-- RAM by offset, which is its address (R39, 20_memory.md R52) -/
  ram : Memory
  /-- the cartridge by offset (R39, 20_memory.md R53) -/
  rom : Memory
  /-- the length of the last loaded cartridge, 0 before any load -/
  romSize : Nat
  /-- R35 -/
  sp : SpState
  /-- R36 -/
  dp : DpState
  /-- R37 -/
  ctrl : List Controller
  /-- R38 -/
  loop : LoopState
  /-- R38 -/
  stopReason : StopReason
  /-- the model's own: whose turn it is (log 7) -/
  phase : Phase
  /-- the host's requests held for the next boundary, in arrival order (80_step_loop_and_snapshot.md R271; log 11) -/
  requests : List HostRequest
  /-- the model's own: what the input provider writes at the coming yields, the next one first (log 13) -/
  inputs : List (List Controller)
  /-- the model's own: what the block has emitted, oldest first; no rule reads it (log 12) -/
  outputs : List Output
deriving DecidableEq, Repr

/-- The display coprocessor after reset: pending 0, every pixel byte 0, the opaque part `DP_RESET` (10_state.md R36). -/
def DpState.reset (c : Config) : DpState :=
  { pending := false, pixels := List.replicate c.pixelBytes 0, image := Config.dpResetImage }

/-- The machine at construction under a configuration (70_reset_and_hazards.md R241): the state of R240 with no ROM, the
loop Stopped and no stop reason. -/
def State.construct (c : Config) : State where
  cfg := c
  regs := Vector.replicate 32 0
  pc := c.entryVector
  delay := .none
  status := 0
  cause := 0
  epc := 0
  ram := Memory.zero
  rom := Memory.zero
  romSize := 0
  sp := { image := Config.spResetImage }
  dp := DpState.reset c
  ctrl := List.replicate c.numControllers Controller.zero
  loop := .stopped
  stopReason := .none
  phase := .processor 0
  requests := []
  inputs := []
  outputs := []

/-- The machine right after construction and reset (70_reset_and_hazards.md R240, R241), under `Config.default` (log 2). -/
def State.reset : State := State.construct Config.default

end Sys2Proof.Machine
end

