-- ==== Sys2Proof/Machine/Flags.lean ====
section
/-! DEFINITION. Conditions and status bits. The block has no flags register (10_state.md R26): what stands here are the
overflow test, the conditions of branches and set-less-than, and the fields of CP0.Status and CP0.Cause (R31, R32). -/

namespace Sys2Proof.Machine

/-! ## Conditions on operands -/

/-- Whether an exact result lies in `[-2^31, 2^31-1]` (60_exceptions.md R213). -/
def fitsWord (r : Int) : Bool := decide (-2 ^ 31 ≤ r) && decide (r ≤ 2 ^ 31 - 1)

/-- ADD and ADDI overflow: the exact signed sum does not fit (41_register_register.md R120). -/
def addOverflows (a b : Word) : Bool := !fitsWord (a.toInt + b.toInt)

/-- SUB overflows: the exact signed difference does not fit (41_register_register.md R122). -/
def subOverflows (a b : Word) : Bool := !fitsWord (a.toInt - b.toInt)

/-- `a <s b` on 64 bits (41_register_register.md R128). -/
def lessSigned (a b : DWord) : Bool := a.slt b

/-- `a <u b` on 64 bits (41_register_register.md R129). -/
def lessUnsigned (a b : DWord) : Bool := a.ult b

/-- The result of a set-less-than: 1 or 0. -/
def boolValue (c : Bool) : DWord := if c then 1 else 0

/-! ## Fields of a CP0 register -/

/-- A word with the bits of `mask` taken from `v` and the others kept. -/
def withField (w mask v : Word) : Word := (w &&& ~~~mask) ||| (v &&& mask)

/-- Status.IE, bit 0 (10_state.md R31). -/
def statusIE (status : Word) : Bool := status.getLsbD 0

/-- Status.EXL, bit 1 (10_state.md R31). -/
def statusEXL (status : Word) : Bool := status.getLsbD 1

/-- Status.IM[7:0], bits 15:8 (10_state.md R31). -/
def statusIM (status : Word) : Byte := status.extractLsb' 8 8

/-- Status.EXL <- 1. -/
def setEXL (status : Word) : Word := withField status 0x00000002#32 0x00000002#32

/-- Status.EXL <- 0. -/
def clearEXL (status : Word) : Word := withField status 0x00000002#32 0x00000000#32

/-- Cause.IP[7:0], bits 15:8 (10_state.md R32). -/
def causeIP (cause : Word) : Byte := cause.extractLsb' 8 8

/-- Cause.ExcCode, bits 6:2 (10_state.md R32). -/
def causeExcCode (cause : Word) : BitVec 5 := cause.extractLsb' 2 5

/-- Cause.BD, bit 31 (10_state.md R32). -/
def causeBD (cause : Word) : Bool := cause.getLsbD 31

/-- Cause.ExcCode <- code. -/
def setExcCode (cause : Word) (code : BitVec 5) : Word := withField cause 0x0000007C#32 (code.setWidth 32 <<< 2)

/-- Cause.BD <- b. -/
def setBD (cause : Word) (b : Bool) : Word := withField cause 0x80000000#32 (if b then 0x80000000#32 else 0#32)

/-- Cause.IP[2] <- 1: the signal coprocessor's completion (60_exceptions.md R224). -/
def setIP2 (cause : Word) : Word := withField cause 0x00000400#32 0x00000400#32

/-- What MTC0 leaves in Status: `v & 0x0000FF03` (10_state.md R31). -/
def mtc0Status (v : Word) : Word := v &&& 0x0000FF03#32

/-- What MTC0 leaves in Cause: only IP[7:0] from `v` (10_state.md R32). -/
def mtc0Cause (cause v : Word) : Word := withField cause 0x0000FF00#32 v

/-- The exception code of an interrupt (60_exceptions.md R212). -/
def excInt : BitVec 5 := 0

/-- The exception code of an overflow (60_exceptions.md R212). -/
def excOv : BitVec 5 := 12

/-- `interruptPending()` (60_exceptions.md R218). -/
def State.interruptPending (s : State) : Bool :=
  statusIE s.status && !statusEXL s.status && causeIP s.cause &&& statusIM s.status != 0

end Sys2Proof.Machine
end

