-- ==== Sys2Proof/Machine/Operands.lean ====
section
/-! DEFINITION. The operand forms: immediates, effective addresses, shift amounts, branch and jump targets, the link
(30_encoding.md R83; 42_control_transfer.md R151; 44_load_store.md R185), and the extensions of 00_scope.md R9. -/

namespace Sys2Proof.Machine

/-- `trunc_32` of a register's value (41_register_register.md). -/
def low32 (v : DWord) : Word := v.setWidth 32

/-- `sext_64` of a 32-bit result (00_scope.md R9; 41_register_register.md R136). -/
def sext64 (w : Word) : DWord := w.signExtend 64

/-- `simm = sext_64(imm)`: the immediate of SLTI and SLTIU (30_encoding.md R83). -/
def simm64 (imm : Half) : DWord := imm.signExtend 64

/-- `sext_32(imm)`: the immediate of ADDI and ADDIU, the offset of loads and stores (43_immediate_arith.md R170;
44_load_store.md R185). -/
def simm32 (imm : Half) : Word := imm.signExtend 32

/-- `zimm = zext_64(imm)`: the immediate of ANDI, ORI and XORI (30_encoding.md R83). -/
def zimm64 (imm : Half) : DWord := imm.setWidth 64

/-- `sext_64(imm ++ 0x0000)`: the value LUI loads (43_immediate_arith.md R177). -/
def upperImmediate (imm : Half) : DWord := sext64 (imm.setWidth 32 <<< 16)

/-- `ea = trunc_32(x[rs]) + sext_32(imm)`, modulo 2^32 (44_load_store.md R185; 20_memory.md R74). -/
def effectiveAddr (base : DWord) (imm : Half) : Addr := low32 base + simm32 imm

/-- `btarget = instPC + 4 + (sext_32(imm) << 2)` (42_control_transfer.md R151). -/
def branchTarget (instPC : Addr) (imm : Half) : Addr := instPC + 4#32 + simm32 imm <<< 2

/-- `((instPC + 4) & 0xF0000000) | (zext_32(target) << 2)` (42_control_transfer.md R154; 90_conflicts.md C2). -/
def jumpTarget (instPC : Addr) (target : BitVec 26) : Addr :=
  (instPC + 4#32) &&& 0xF0000000#32 ||| target.setWidth 32 <<< 2

/-- `link = sext_64(instPC + 8)` (42_control_transfer.md R151). -/
def linkValue (instPC : Addr) : DWord := sext64 (instPC + 8#32)

/-- `x[rs][4:0]`: the amount of a shift by register (30_encoding.md R83). -/
def shiftAmount (v : DWord) : BitVec 5 := v.setWidth 5

end Sys2Proof.Machine
end

