-- ==== Sys2Proof/Machine/Ops.lean ====
section
/-! DEFINITION. The named operations over registers, memory and control that the meanings share: the register ports, the
address decoder and its accesses, the ends of a step, taking an exception and returning from one. -/

namespace Sys2Proof.Machine

/-- What a meaning answers. -/
abbrev Result := Host.Outcome State Fault Refusal

/-! ## General registers (10_state.md R20 to R22) -/

/-- `x[r]`: register 0 reads 0 (R21). -/
def State.reg (s : State) (r : Reg) : DWord := if r = 0#5 then 0 else s.regs[r.toNat]'r.isLt

/-- `x[r] <- v` at the one write port: a write to register 0 is discarded (R21). -/
def State.setReg (s : State) (r : Reg) (v : DWord) : State :=
  if r = 0#5 then s else { s with regs := s.regs.set r.toNat v r.isLt }

/-- `trunc_32(x[r])`. -/
def State.low (s : State) (r : Reg) : Word := low32 (s.reg r)

/-! ## Memory as a canonical list (log 14) -/

/-- The byte at an offset: 0 where none is listed. -/
def readCells : List Host.Cell → Nat → Byte
  | [], _ => 0
  | (k, b) :: rest, a => if a = k then b else readCells rest a

/-- A nonzero byte in front of a list; a zero byte is not listed. -/
def consCell (a : Nat) (b : Byte) (rest : List Host.Cell) : List Host.Cell := if b = 0 then rest else (a, b) :: rest

/-- The list with the byte at offset `a` made `b`. -/
def writeCells : List Host.Cell → Nat → Byte → List Host.Cell
  | [], a, b => consCell a b []
  | (k, c) :: rest, a, b =>
    if a < k then consCell a b ((k, c) :: rest)
    else if a = k then consCell a b rest
    else (k, c) :: writeCells rest a b

/-- The canonical list of bytes laid out from offset `k`. -/
def cellsOfBytes (k : Nat) : List Byte → List Host.Cell
  | [] => []
  | b :: rest => consCell k b (cellsOfBytes (k + 1) rest)

/-- The canonical form: offsets strictly rising, no zero byte listed. -/
abbrev Memory.wf (m : Memory) : Prop := m.cells.Pairwise (fun c d => c.1 < d.1) ∧ ∀ c ∈ m.cells, c.2 ≠ 0

/-- Every listed offset lies below `n`. -/
abbrev Memory.below (m : Memory) (n : Nat) : Prop := ∀ c ∈ m.cells, c.1 < n

/-- The byte at an offset. -/
def Memory.read (m : Memory) (a : Nat) : Byte := readCells m.cells a

/-- One byte written. -/
def Memory.write (m : Memory) (a : Nat) (b : Byte) : Memory := { cells := writeCells m.cells a b }

/-- Bytes written one after another from offset `a`. -/
def Memory.writeBytes (m : Memory) (a : Nat) : List Byte → Memory
  | [] => m
  | b :: rest => (m.write a b).writeBytes (a + 1) rest

/-- The bytes at offsets `a` to `a + n - 1`. -/
def Memory.readBytes (m : Memory) (a : Nat) : Nat → List Byte
  | 0 => []
  | n + 1 => m.read a :: m.readBytes (a + 1) n

/-- The memory that holds the given bytes from offset 0. -/
def Memory.ofBytes (bytes : List Byte) : Memory := { cells := cellsOfBytes 0 bytes }

/-- The big-endian word at an offset (20_memory.md R57). -/
def Memory.readWord (m : Memory) (a : Nat) : Word :=
  wordOfBytes (m.read a) (m.read (a + 1)) (m.read (a + 2)) (m.read (a + 3))

/-! ## The address decoder and its accesses (20_memory.md R51 to R58) -/

/-- Where a mapped address lies: `RAM(offset)` or `ROM(offset)`. -/
inductive Place where
  | ram (offset : Nat)
  | rom (offset : Nat)
deriving DecidableEq, Repr

/-- `decode(a)` of 20_memory.md R51, `none` where it says Unmapped. RAM is tested first. -/
def State.place (s : State) (a : Addr) : Option Place :=
  if a.toNat < s.cfg.ramSize then some (.ram a.toNat)
  else if s.cfg.cartridgeBase.toNat ≤ a.toNat ∧ a.toNat - s.cfg.cartridgeBase.toNat < s.romSize then
    some (.rom (a.toNat - s.cfg.cartridgeBase.toNat))
  else none

/-- The byte `k` places after a place. -/
def State.placeByte (s : State) : Place → Nat → Byte
  | .ram o, k => s.ram.read (o + k)
  | .rom o, k => s.rom.read (o + k)

/-- The byte an address reads as, `none` where it is unmapped: the view of all memory that statements use. -/
def State.byteAt (s : State) (a : Addr) : Option Byte := (s.place a).map fun p => s.placeByte p 0

/-- The widths of an access (20_memory.md R55). -/
inductive Width where
  | byte
  | half
  | word
deriving DecidableEq, Repr

/-- An access's length in bytes. -/
def Width.bytes : Width → Nat
  | .byte => 1
  | .half => 2
  | .word => 4

/-- The checks of an access, alignment before region (20_memory.md R56), and the place of its first byte, which decides the
whole access (R59). -/
def State.access (s : State) (a : Addr) (w : Width) : Except Fault Place :=
  if a.toNat % w.bytes ≠ 0 then .error (.alignmentError a)
  else
    match s.place a with
    | some p => .ok p
    | none => .error (.addressError a)

/-- `MemRead(a, 1)`. -/
def State.readByte (s : State) (a : Addr) : Except Fault Byte :=
  match s.access a .byte with
  | .ok p => .ok (s.placeByte p 0)
  | .error f => .error f

/-- `MemRead(a, 2)`, the byte at the lower address most significant (20_memory.md R57). -/
def State.readHalf (s : State) (a : Addr) : Except Fault Half :=
  match s.access a .half with
  | .ok p => .ok ((s.placeByte p 0).setWidth 16 <<< 8 ||| (s.placeByte p 1).setWidth 16)
  | .error f => .error f

/-- `MemRead(a, 4)`, `read32` (20_memory.md R57). -/
def State.readWord (s : State) (a : Addr) : Except Fault Word :=
  match s.access a .word with
  | .ok p => .ok (wordOfBytes (s.placeByte p 0) (s.placeByte p 1) (s.placeByte p 2) (s.placeByte p 3))
  | .error f => .error f

/-- The bytes a store of a width puts in memory, the most significant first: the low 1, 2 or 4 bytes of the value
(20_memory.md R58). -/
def storedBytes (w : Width) (v : Word) : List Byte :=
  match w with
  | .byte => [v.extractLsb' 0 8]
  | .half => [v.extractLsb' 8 8, v.extractLsb' 0 8]
  | .word => bytesOfWord v

/-- `MemWrite(a, n, v)`: the same checks; RAM takes the bytes, a ROM write has no effect (20_memory.md R53, R58). -/
def State.memWrite (s : State) (a : Addr) (w : Width) (v : Word) : Except Fault State :=
  match s.access a w with
  | .ok (.ram o) => .ok { s with ram := s.ram.writeBytes o (storedBytes w v) }
  | .ok (.rom _) => .ok s
  | .error f => .error f

/-! ## Outputs -/

/-- The block emits one output (log 12). -/
def State.emit (s : State) (o : Output) : State := { s with outputs := s.outputs ++ [o] }

/-! ## How a step ends (40_execution_cycle.md R101, R104, R109) -/

/-- `inDS`: this instruction is in a delay slot. -/
def State.inDelaySlot (s : State) : Bool := s.delay != .none

/-- `seqNext`: where control goes after this instruction, unless it transfers control or traps. -/
def State.seqNext (s : State) : Addr :=
  match s.delay with
  | .taken t => t
  | _ => s.pc + 4#32

/-- The default end: `pc <- seqNext; delay <- NONE`. -/
def State.finish (s : State) : State := { s with pc := s.seqNext, delay := .none }

/-- A result written to a register, then the default end. -/
def State.writeResult (s : State) (r : Reg) (v : DWord) : Result := .next (s.setReg r v).finish

/-- What an unsupported word does at the current pc (30_encoding.md R92): a halt in Strict mode; in Permissive mode a
logged no-op (40_execution_cycle.md R109). -/
def State.unsupportedWord (s : State) (w : Word) : Result :=
  match s.cfg.mode with
  | .strict => .fault (.unsupportedOpcode s.pc w)
  | .permissive => .next (s.emit (.unsupported s.pc w)).finish

/-! ## Control transfer (42_control_transfer.md R150, R151) -/

/-- The end of every branch and jump: `pc <- instPC + 4` and the delay state it sets. -/
def State.transfer (s : State) (d : Delay) : State := { s with pc := s.pc + 4#32, delay := d }

/-- The end of a conditional branch. -/
def State.branch (s : State) (cond : Bool) (imm : Half) : State :=
  s.transfer (if cond then .taken (branchTarget s.pc imm) else .notTaken)

/-- A control instruction's meaning behind the check of 40_execution_cycle.md R102: in a delay slot it halts (log 16). -/
def State.control (s : State) (i : Instr) (meaning : Result) : Result :=
  if s.inDelaySlot then .fault (.branchInDelaySlot s.pc (encode i)) else meaning

/-- Behind the check that a register target is a multiple of 4 (42_control_transfer.md R150). -/
def alignedTarget (t : Addr) (meaning : Result) : Result :=
  if t.toNat % 4 ≠ 0 then .fault (.alignmentError t) else meaning

/-! ## Exceptions (60_exceptions.md R214, R217) -/

/-- `trapEntry(code, resume, inDS)` (60_exceptions.md R214). -/
def State.trapEntry (s : State) (code : BitVec 5) (resume : Addr) (inDS : Bool) : State :=
  { s with
    epc := if statusEXL s.status then s.epc else if inDS then s.pc - 4#32 else resume
    cause := setExcCode (if statusEXL s.status then s.cause else setBD s.cause inDS) code
    status := setEXL s.status
    pc := s.cfg.exceptionVector
    delay := .none }

/-- `raise Overflow` (60_exceptions.md R213): code 12, resume at the instruction. -/
def State.raiseOverflow (s : State) : Result := .next (s.trapEntry excOv s.pc s.inDelaySlot)

/-- Taking an interrupt (40_execution_cycle.md R105): code 0, resume at pc, never in a delay slot. -/
def State.takeInterrupt (s : State) : State := s.trapEntry excInt s.pc false

/-- The return from an exception (45_coprocessor0.md R206): EXL cleared, pc from EPC, no delay slot. -/
def State.trapReturn (s : State) : Result :=
  alignedTarget s.epc (.next { s with status := clearEXL s.status, pc := s.epc, delay := .none })

/-! ## Coprocessor 0 (45_coprocessor0.md R202 to R205) -/

/-- `CP0[n]`, `none` for a number that is not implemented. -/
def State.cp0Read (s : State) (n : Reg) : Option Word :=
  match n with
  | 12#5 => some s.status
  | 13#5 => some s.cause
  | 14#5 => some s.epc
  | _ => none

/-- `CP0[n] <- v` as MTC0 writes it, `none` for a number that is not implemented. -/
def State.cp0Write (s : State) (n : Reg) (v : Word) : Option State :=
  match n with
  | 12#5 => some { s with status := mtc0Status v }
  | 13#5 => some { s with cause := mtc0Cause s.cause v }
  | 14#5 => some { s with epc := v }
  | _ => none

/-! ## Loads and stores (44_load_store.md R194) -/

/-- A load's end: the halt of its access, or the extended value in the register. -/
def State.loadResult (s : State) (r : Reg) (v : Except Fault DWord) : Result :=
  match v with
  | .ok x => s.writeResult r x
  | .error f => .fault f

/-- A store's end: the halt of its access, or the memory written. -/
def State.storeResult (s : State) (a : Addr) (w : Width) (v : Word) : Result :=
  match s.memWrite a w v with
  | .ok t => .next t.finish
  | .error f => .fault f

end Sys2Proof.Machine
end

