-- ==== Sys2Proof/Machine/Coprocessors.lean ====
section
/-! DEFINITION. The phases of the macro-step after the processor's: the signal coprocessor (60_exceptions.md R222 to R224),
the display coprocessor (80_step_loop_and_snapshot.md R268) and the collaborators' yield (R262). The two coprocessors'
processing is a parameter; `spStep` and `renderIfReady` take the opaque ones of Config. -/

namespace Sys2Proof.Machine

/-! ## Signal coprocessor -/

/-- The type of `SP_PROCESS` (log 4). -/
abbrev SpProcess := List Byte → List (Nat × Byte) → Word → Word → SpTask

/-- The word `k` bytes into the mailbox, in RAM: READY at 0, TASK_PTR at 4, TASK_LEN at 8 (60_exceptions.md R222). -/
def State.mailboxWord (s : State) (k : Nat) : Word := s.ram.readWord (s.cfg.mailboxAddr.toNat + k)

/-- RAM of `n` bytes after a task's writes, in order; a task changes only RAM (60_exceptions.md R223), so an offset outside
it is no write of a task (log 4). -/
def spWrites (n : Nat) (m : Memory) : List (Nat × Byte) → Memory
  | [] => m
  | (o, b) :: rest => spWrites n (if o < n then m.write o b else m) rest

/-- The signal coprocessor's state after a task: the new image, which `SP_ENCODE` can have produced (log 3). -/
def spAfter (old : SpState) (image : List Byte) : SpState := if Config.spImageOk image then { image := image } else old

/-- The effects of a task's result (60_exceptions.md R223): RAM, the SP's state, the DP's pending bit, the PCM batch; then
READY cleared and Cause.IP[2] set. -/
def State.completeTask (s : State) (task : SpTask) : State :=
  { s with
    ram := (spWrites s.cfg.ramSize s.ram task.ramWrites).writeBytes s.cfg.mailboxAddr.toNat (bytesOfWord 0)
    sp := spAfter s.sp task.image
    dp := { s.dp with pending := task.dpCommands || s.dp.pending }
    cause := setIP2 s.cause
    outputs := s.outputs ++ [.pcm task.pcm] }

/-- `spStep()` for a given `SP_PROCESS` (60_exceptions.md R223): nothing where READY is 0. -/
def State.spStepWith (process : SpProcess) (s : State) : State :=
  if s.mailboxWord 0 = 0 then s
  else s.completeTask (process s.sp.image s.ram.cells (s.mailboxWord 4) (s.mailboxWord 8))

/-- `spStep()`. -/
def State.spStep (s : State) : State := s.spStepWith Config.spProcess

/-! ## Display coprocessor -/

/-- The type of `DP_RENDER` (log 5). -/
abbrev DpRender := Bool → List Byte → List Byte → List (Nat × Byte) → DpFrame

/-- A pixel buffer of exactly `n` bytes (log 5). -/
def fitPixels (n : Nat) (pixels : List Byte) : List Byte := (pixels ++ List.replicate n 0).take n

/-- The display coprocessor after a render: the frame, and the pending bit cleared (80_step_loop_and_snapshot.md R268). -/
def State.takeFrame (s : State) (frame : DpFrame) : State :=
  { s with
    dp :=
      { pending := false
        pixels := fitPixels s.cfg.pixelBytes frame.pixels
        image := if Config.dpImageOk frame.image then frame.image else s.dp.image } }

/-- `renderIfReady()` for a given `DP_RENDER` (80_step_loop_and_snapshot.md R268): nothing where no command is pending. -/
def State.renderWith (render : DpRender) (s : State) : State :=
  if s.dp.pending then s.takeFrame (render s.dp.pending s.dp.pixels s.dp.image s.ram.cells) else s

/-- `renderIfReady()`. -/
def State.renderIfReady (s : State) : State := s.renderWith Config.dpRender

/-- The byte offset of the pixel at a row and a column: row-major, origin top-left, 4 bytes each (10_state.md R36). -/
def pixelOffset (c : Config) (row column : Nat) : Nat := 4 * (row * c.pixelWidth + column)

/-- The four bytes R, G, B, A of a pixel (10_state.md R36). -/
def State.pixel (s : State) (row column : Nat) : List Byte := (s.dp.pixels.drop (pixelOffset s.cfg row column)).take 4

/-! ## Yield -/

/-- The controller records overwritten by the input provider's, record by record; their number stays (log 13). -/
def overwriteControllers : List Controller → List Controller → List Controller
  | [], _ => []
  | old, [] => old
  | _ :: old, c :: new => c :: overwriteControllers old new

/-- The yield phase: the input provider may overwrite the controller records, and nothing else changes
(80_step_loop_and_snapshot.md R262). -/
def State.yieldPhase (s : State) : State :=
  match s.inputs with
  | [] => s
  | c :: rest => { s with ctrl := overwriteControllers s.ctrl c, inputs := rest }

end Sys2Proof.Machine
end

