-- ==== Sys2Proof/Machine/Snapshot.lean ====
section
/-! DEFINITION. The snapshot's bytes, its validation and its application (80_step_loop_and_snapshot.md R276 to R281). -/

namespace Sys2Proof.Machine

/-! ## Big-endian fields -/

/-- A u16, the most significant byte first. -/
def bytesOfHalf (h : Half) : List Byte := [h.extractLsb' 8 8, h.extractLsb' 0 8]

/-- A u64, the most significant byte first. -/
def bytesOfDWord (d : DWord) : List Byte := bytesOfWord (d.extractLsb' 32 32) ++ bytesOfWord (d.extractLsb' 0 32)

/-- A count as a u32 (log 18). -/
def bytesOfCount (n : Nat) : List Byte := bytesOfWord (BitVec.ofNat 32 n)

/-- A bit as a u32. -/
def bytesOfFlag (b : Bool) : List Byte := bytesOfWord (if b then 1 else 0)

/-- The first `n` bytes and the rest, where there are so many. -/
def takeBytes (n : Nat) (bs : List Byte) : Option (List Byte × List Byte) :=
  if n ≤ bs.length then some (bs.take n, bs.drop n) else none

/-- The u32 at the head of a list, and the rest. -/
def takeWord : List Byte → Option (Word × List Byte)
  | b0 :: b1 :: b2 :: b3 :: rest => some (wordOfBytes b0 b1 b2 b3, rest)
  | _ => none

/-- The u64 at the head of a list, and the rest. -/
def takeDWord (bs : List Byte) : Option (DWord × List Byte) :=
  (takeWord bs).bind fun hi =>
    (takeWord hi.2).map fun lo => (hi.1.setWidth 64 <<< 32 ||| lo.1.setWidth 64, lo.2)

/-- `n` u64s at the head of a list, and the rest. -/
def takeDWords : Nat → List Byte → Option (List DWord × List Byte)
  | 0, bs => some ([], bs)
  | n + 1, bs => (takeDWord bs).bind fun x => (takeDWords n x.2).map fun xs => (x.1 :: xs.1, xs.2)

/-- The u32 at the head of a list, which must be 0 or 1, and the rest. -/
def takeFlag (bs : List Byte) : Option (Bool × List Byte) :=
  (takeWord bs).bind fun w => if w.1 = 0 then some (false, w.2) else if w.1 = 1 then some (true, w.2) else none

/-! ## Sections (R278) -/

/-- `MAGIC`, "E64S". -/
def snapshotMagic : Word := 0x45363453#32

/-- `TAG LENGTH PAYLOAD`. -/
def sectionBytes (tag : Word) (payload : List Byte) : List Byte :=
  bytesOfWord tag ++ bytesOfCount payload.length ++ payload

/-- The payload of the section at the head of a list, which must carry the tag, and the rest. -/
def takeSection (tag : Word) (bs : List Byte) : Option (List Byte × List Byte) :=
  (takeWord bs).bind fun t =>
    if t.1 = tag then (takeWord t.2).bind fun n => takeBytes n.1.toNat n.2 else none

/-! ## The processor section (R277, R279) -/

/-- `delayKind`: 0 NONE, 1 TAKEN, 2 NOT_TAKEN. -/
def delayKind : Delay → Word
  | .none => 0
  | .taken _ => 1
  | .notTaken => 2

/-- `delayTarget`: the target if TAKEN, else 0. -/
def delayTarget : Delay → Word
  | .taken t => t
  | _ => 0

/-- The delay state of a kind and a target, where they pass R280's check. -/
def delayOf (kind target : Word) : Option Delay :=
  if kind = 0 then (if target = 0 then some .none else none)
  else if kind = 1 then (if target.toNat % 4 = 0 then some (.taken target) else none)
  else if kind = 2 then (if target = 0 then some .notTaken else none)
  else none

/-- x[0] to x[31]. -/
def State.regList (s : State) : List DWord := (List.range 32).map fun i => s.reg (BitVec.ofNat 5 i)

/-- The payload of section 1. -/
def State.cpuPayload (s : State) : List Byte :=
  s.regList.flatMap bytesOfDWord ++ bytesOfWord s.pc ++ bytesOfWord (delayKind s.delay) ++
    bytesOfWord (delayTarget s.delay) ++ bytesOfWord s.status ++ bytesOfWord s.cause ++ bytesOfWord s.epc

/-- What the processor section sets. -/
structure CpuImage where
  regs : List DWord
  pc : Addr
  delay : Delay
  status : Word
  cause : Word
  epc : Word
deriving DecidableEq, Repr

/-- Check 3 of R280 on the registers, pc, Status and Cause. -/
def CpuImage.ok (c : CpuImage) : Bool :=
  c.regs.head? == some 0 && c.regs.all (fun x => x == sext64 (low32 x)) && c.pc.toNat % 4 == 0 &&
    c.status &&& ~~~0x0000FF03#32 == 0 && c.cause &&& ~~~0x8000FF7C#32 == 0 &&
    (causeExcCode c.cause == excInt || causeExcCode c.cause == excOv)

/-- The six u32 after the registers: pc, delayKind, delayTarget, Status, Cause, EPC. -/
def takeCpuWords (regs : List DWord) (bs : List Byte) : Option CpuImage :=
  (takeWord bs).bind fun pc =>
    (takeWord pc.2).bind fun kind =>
      (takeWord kind.2).bind fun target =>
        (takeWord target.2).bind fun status =>
          (takeWord status.2).bind fun cause =>
            (takeWord cause.2).bind fun epc =>
              (delayOf kind.1 target.1).map fun d =>
                { regs := regs, pc := pc.1, delay := d, status := status.1, cause := cause.1, epc := epc.1 }

/-- Section 1 read and checked (check 3 of R280). -/
def parseCpu (payload : List Byte) : Option CpuImage :=
  if payload.length = 280 then
    (takeDWords 32 payload).bind fun xs =>
      (takeCpuWords xs.1 xs.2).bind fun c => if c.ok then some c else none
  else none

/-! ## The coprocessor sections (R279) -/

/-- Section 2 read and checked: `SP_DECODE` (check 4 of R280; log 3). -/
def parseSp (payload : List Byte) : Option SpState :=
  if Config.spImageOk payload then some { image := payload } else none

/-- The payload of section 3, with or without the pixels. -/
def State.dpPayload (s : State) (includePixels : Bool) : List Byte :=
  bytesOfFlag s.dp.pending ++ bytesOfFlag includePixels ++ bytesOfCount s.dp.image.length ++ s.dp.image ++
    (if includePixels then s.dp.pixels else [])

/-- The pixels at the end of section 3: the whole buffer if present, else zeros (R281). -/
def pixelsOf (c : Config) (present : Bool) (bs : List Byte) : Option (List Byte) :=
  if present then (if bs.length = c.pixelBytes then some bs else none)
  else if bs = [] then some (List.replicate c.pixelBytes 0) else none

/-- Section 3 read and checked: `DP_DECODE` and the length (check 5 of R280; log 3). -/
def parseDp (c : Config) (payload : List Byte) : Option DpState :=
  (takeFlag payload).bind fun pending =>
    (takeFlag pending.2).bind fun present =>
      (takeWord present.2).bind fun n =>
        (takeBytes n.1.toNat n.2).bind fun image =>
          if Config.dpImageOk image.1 then
            (pixelsOf c present.1 image.2).map fun px => { pending := pending.1, pixels := px, image := image.1 }
          else none

/-! ## The RAM and controller sections (R279) -/

/-- Section 4 read and checked (check 6 of R280). -/
def parseRam (c : Config) (payload : List Byte) : Option Memory :=
  if payload.length = c.ramSize then some (Memory.ofBytes payload) else none

/-- One controller record: buttons, axes, connected, three zero bytes. -/
def controllerBytes (c : Controller) : List Byte :=
  bytesOfHalf c.buttons ++ [c.axisX, c.axisY, (if c.connected then 1 else 0), 0, 0, 0]

/-- The record at the head of a list, with connected 0 or 1 and the pad zero, and the rest. -/
def takeController : List Byte → Option (Controller × List Byte)
  | b0 :: b1 :: x :: y :: conn :: p0 :: p1 :: p2 :: rest =>
    if (conn = 0 ∨ conn = 1) ∧ p0 = 0 ∧ p1 = 0 ∧ p2 = 0 then
      some ({ buttons := b0.setWidth 16 <<< 8 ||| b1.setWidth 16, axisX := x, axisY := y, connected := conn == 1 }, rest)
    else none
  | _ => none

/-- `n` records and nothing after them. -/
def takeControllers : Nat → List Byte → Option (List Controller)
  | 0, bs => if bs = [] then some [] else none
  | n + 1, bs => (takeController bs).bind fun c => (takeControllers n c.2).map fun cs => c.1 :: cs

/-- The payload of section 5. -/
def State.ctrlPayload (s : State) : List Byte := bytesOfCount s.ctrl.length ++ s.ctrl.flatMap controllerBytes

/-- Section 5 read and checked (check 7 of R280). -/
def parseCtrl (c : Config) (payload : List Byte) : Option (List Controller) :=
  (takeWord payload).bind fun n => if n.1.toNat = c.numControllers then takeControllers c.numControllers n.2 else none

/-! ## The whole snapshot -/

/-- `save(includePixels)` (R275 to R279). -/
def State.snapshot (s : State) (includePixels : Bool) : List Byte :=
  bytesOfWord snapshotMagic ++ bytesOfWord s.cfg.snapshotVersion ++ bytesOfWord 5 ++
    sectionBytes 1 s.cpuPayload ++ sectionBytes 2 s.sp.image ++ sectionBytes 3 (s.dpPayload includePixels) ++
    sectionBytes 4 (s.ram.readBytes 0 s.cfg.ramSize) ++ sectionBytes 5 s.ctrlPayload

/-- What a valid snapshot sets. -/
structure SnapshotImage where
  cpu : CpuImage
  sp : SpState
  dp : DpState
  ram : Memory
  ctrl : List Controller
deriving DecidableEq, Repr

/-- The five sections read and checked, with nothing after them (checks 2 to 7 of R280). -/
def parseSections (c : Config) (bs : List Byte) : Option SnapshotImage :=
  (takeSection 1 bs).bind fun s1 =>
    (takeSection 2 s1.2).bind fun s2 =>
      (takeSection 3 s2.2).bind fun s3 =>
        (takeSection 4 s3.2).bind fun s4 =>
          (takeSection 5 s4.2).bind fun s5 =>
            if s5.2 = [] then
              (parseCpu s1.1).bind fun cpu =>
                (parseSp s2.1).bind fun sp =>
                  (parseDp c s3.1).bind fun dp =>
                    (parseRam c s4.1).bind fun ram =>
                      (parseCtrl c s5.1).map fun ctrl => { cpu := cpu, sp := sp, dp := dp, ram := ram, ctrl := ctrl }
            else none

/-- The whole validation (R280): the header, then the sections. -/
def parseSnapshot (c : Config) (bs : List Byte) : Option SnapshotImage :=
  (takeWord bs).bind fun magic =>
    (takeWord magic.2).bind fun version =>
      (takeWord version.2).bind fun count =>
        if magic.1 = snapshotMagic ∧ version.1 = c.snapshotVersion ∧ count.1 = 5 then parseSections c count.2 else none

/-- A register file of the values in a list. -/
def regsOfList (xs : List DWord) : Vector DWord 32 := Vector.ofFn fun k : Fin 32 => xs.getD k.val 0

/-- A valid snapshot applied in one action (R281). -/
def State.applySnapshot (s : State) (i : SnapshotImage) : State :=
  { s with
    regs := regsOfList i.cpu.regs
    pc := i.cpu.pc
    delay := i.cpu.delay
    status := i.cpu.status
    cause := i.cpu.cause
    epc := i.cpu.epc
    sp := i.sp
    dp := i.dp
    ram := i.ram
    ctrl := i.ctrl }

/-- `load(stream)`: none where it fails with CorruptState and changes nothing (R280, R283). -/
def State.loadSnapshot (s : State) (stream : List Byte) : Option State :=
  (parseSnapshot s.cfg stream).map s.applySnapshot

end Sys2Proof.Machine
end

