-- ==== Sys2Proof/Machine/HostInterface.lean ====
section
/-! DEFINITION. The host's requests, each applied whole at a boundary (80_step_loop_and_snapshot.md R264, R269 to R281;
20_memory.md R66; 70_reset_and_hazards.md R240), and what arrives from outside between steps (logs 11 and 13). -/

namespace Sys2Proof.Machine

/-- `reset()` (70_reset_and_hazards.md R240): rom, romSize, loop and stopReason stay. -/
def State.resetMachine (s : State) : State :=
  { s with
    regs := Vector.replicate 32 0
    pc := s.cfg.entryVector
    delay := .none
    status := 0
    cause := 0
    epc := 0
    ram := Memory.zero
    sp := { image := Config.spResetImage }
    dp := DpState.reset s.cfg
    ctrl := List.replicate s.cfg.numControllers Controller.zero }

/-- The checks of `loadCartridge` (20_memory.md R66). -/
def cartridgeOk (c : Config) (bytes : List Byte) : Bool :=
  bytes.length % 4 == 0 && c.headerSize ≤ bytes.length && c.cartridgeBase.toNat + bytes.length ≤ 2 ^ 32

/-- The check of `applyCheat` (80_step_loop_and_snapshot.md R274). -/
def cheatOk (c : Config) (address : Word) : Bool := address.toNat % 4 == 0 && address.toNat + 4 ≤ c.ramSize

/-- The host is told of a request (R283). -/
def State.reply (s : State) (r : HostReply) : State := s.emit (.reply r)

/-- `start()`: only from Stopped (R264). -/
def State.start (s : State) : State :=
  match s.loop with
  | .stopped => ({ s with loop := .running, stopReason := .none } : State).reply .done
  | _ => s.reply .ignored

/-- `pause()`: only from Running (R264). -/
def State.pause (s : State) : State :=
  match s.loop with
  | .running => ({ s with loop := .paused } : State).reply .done
  | _ => s.reply .ignored

/-- `resume()`: only from Paused (R264). -/
def State.resume (s : State) : State :=
  match s.loop with
  | .paused => ({ s with loop := .running } : State).reply .done
  | _ => s.reply .ignored

/-- `stop()`: from Running and from Paused (R264). -/
def State.stop (s : State) : State :=
  match s.loop with
  | .stopped => s.reply .ignored
  | _ => ({ s with loop := .stopped, stopReason := .hostStop } : State).reply .done

/-- `loadCartridge(bytes)`: the whole stream is mapped from CARTRIDGE_BASE; a failed load changes nothing
(20_memory.md R66). -/
def State.loadCartridge (s : State) (bytes : List Byte) : State :=
  if cartridgeOk s.cfg bytes then
    ({ s with rom := Memory.ofBytes bytes, romSize := bytes.length } : State).reply .done
  else s.reply .invalidCartridge

/-- `applyCheat(address, value)`: a word written to RAM, or nothing (80_step_loop_and_snapshot.md R274). -/
def State.applyCheat (s : State) (address value : Word) : State :=
  if cheatOk s.cfg address then
    ({ s with ram := s.ram.writeBytes address.toNat (bytesOfWord value) } : State).reply .done
  else s.reply .invalidAddress

/-- `load(stream)` (80_step_loop_and_snapshot.md R280, R281, R283). -/
def State.load (s : State) (stream : List Byte) : State :=
  match s.loadSnapshot stream with
  | some t => t.reply .done
  | none => s.reply .corruptState

/-- A request carried out (R271 to R275). -/
def State.applyRequest (s : State) : HostRequest → State
  | .reset => s.resetMachine.reply .done
  | .loadCartridge bytes => s.loadCartridge bytes
  | .start => s.start
  | .pause => s.pause
  | .resume => s.resume
  | .stop => s.stop
  | .save includePixels => s.reply (.snapshot (s.snapshot includePixels))
  | .load stream => s.load stream
  | .applyCheat address value => s.applyCheat address value

/-- The host issues a request: it is held, behind those that came before (R271; log 11). -/
def State.issue (s : State) (r : HostRequest) : State := { s with requests := s.requests ++ [r] }

/-- The input provider hands over what it writes at a coming yield (log 13). -/
def State.provideInput (s : State) (records : List Controller) : State := { s with inputs := s.inputs ++ [records] }

end Sys2Proof.Machine
end

