-- ==== Sys2Proof/Machine/Control.lean ====
section
/-! DEFINITION. Jumps and branches (42_control_transfer.md R152 to R163). Each ends at its delay slot with the delay state
set (R150), and halts if it stands in a delay slot itself (40_execution_cycle.md R102; log 16). -/

namespace Sys2Proof.Machine

/-- JR (R152). -/
def execJr (rs : Reg) (s : State) : Result :=
  s.control (.jr rs) (alignedTarget (s.low rs) (.next (s.transfer (.taken (s.low rs)))))

/-- JALR (R153): the target is the old value of rs, also with rd = rs. -/
def execJalr (rd rs : Reg) (s : State) : Result :=
  s.control (.jalr rd rs)
    (alignedTarget (s.low rs) (.next ((s.setReg rd (linkValue s.pc)).transfer (.taken (s.low rs)))))

/-- J (R154). -/
def execJ (target : BitVec 26) (s : State) : Result :=
  s.control (.j target) (.next (s.transfer (.taken (jumpTarget s.pc target))))

/-- JAL (R155): the link goes to r31. -/
def execJal (target : BitVec 26) (s : State) : Result :=
  s.control (.jal target) (.next ((s.setReg 31#5 (linkValue s.pc)).transfer (.taken (jumpTarget s.pc target))))

/-- BEQ (R156). -/
def execBeq (rs rt : Reg) (imm : Half) (s : State) : Result :=
  s.control (.beq rs rt imm) (.next (s.branch (s.reg rs == s.reg rt) imm))

/-- BNE (R157). -/
def execBne (rs rt : Reg) (imm : Half) (s : State) : Result :=
  s.control (.bne rs rt imm) (.next (s.branch (s.reg rs != s.reg rt) imm))

/-- BLEZ (R158): `x[rs] <s 1`. -/
def execBlez (rs : Reg) (imm : Half) (s : State) : Result :=
  s.control (.blez rs imm) (.next (s.branch (lessSigned (s.reg rs) 1) imm))

/-- BGTZ (R159): `0 <s x[rs]`. -/
def execBgtz (rs : Reg) (imm : Half) (s : State) : Result :=
  s.control (.bgtz rs imm) (.next (s.branch (lessSigned 0 (s.reg rs)) imm))

/-- BLTZ (R160): `x[rs] <s 0`. -/
def execBltz (rs : Reg) (imm : Half) (s : State) : Result :=
  s.control (.bltz rs imm) (.next (s.branch (lessSigned (s.reg rs) 0) imm))

/-- BGEZ (R161): not `x[rs] <s 0`. -/
def execBgez (rs : Reg) (imm : Half) (s : State) : Result :=
  s.control (.bgez rs imm) (.next (s.branch (!lessSigned (s.reg rs) 0) imm))

/-- BLTZAL (R162): the condition is read before the link is written; the link is written whether or not it holds. -/
def execBltzal (rs : Reg) (imm : Half) (s : State) : Result :=
  s.control (.bltzal rs imm)
    (.next ((s.setReg 31#5 (linkValue s.pc)).branch (lessSigned (s.reg rs) 0) imm))

/-- BGEZAL (R163): as BLTZAL with the opposite condition. -/
def execBgezal (rs : Reg) (imm : Half) (s : State) : Result :=
  s.control (.bgezal rs imm)
    (.next ((s.setReg 31#5 (linkValue s.pc)).branch (!lessSigned (s.reg rs) 0) imm))

end Sys2Proof.Machine
end

