-- ==== Sys2Proof/Machine/Coprocessor0.lean ====
section
/-! DEFINITION. System control (45_coprocessor0.md R204 to R206). One mode: none of them checks a privilege (R201). -/

namespace Sys2Proof.Machine

/-- MFC0 (R204); a number that is not implemented makes the word unsupported (R202; log 17). -/
def execMfc0 (rt rd : Reg) (s : State) : Result :=
  match s.cp0Read rd with
  | some v => s.writeResult rt (sext64 v)
  | none => s.unsupportedWord (encode (.mfc0 rt rd))

/-- MTC0 (R205); a number that is not implemented makes the word unsupported (R202; log 17). -/
def execMtc0 (rt rd : Reg) (s : State) : Result :=
  match s.cp0Write rd (s.low rt) with
  | some t => .next t.finish
  | none => s.unsupportedWord (encode (.mtc0 rt rd))

/-- ERET (R206): a control instruction without a delay slot of its own. -/
def execEret (s : State) : Result := s.control .eret s.trapReturn

end Sys2Proof.Machine
end

