-- ==== Sys2Proof/Machine/ImmediateArith.lean ====
section
/-! DEFINITION. Immediate arithmetic (43_immediate_arith.md R170 to R177). -/

namespace Sys2Proof.Machine

/-- ADDI (R170): traps on signed overflow, also with rt = 0. -/
def execAddi (rt rs : Reg) (imm : Half) (s : State) : Result :=
  if addOverflows (s.low rs) (simm32 imm) then s.raiseOverflow
  else s.writeResult rt (sext64 (s.low rs + simm32 imm))

/-- ADDIU (R171): the immediate is sign-extended; wraps, never traps. -/
def execAddiu (rt rs : Reg) (imm : Half) (s : State) : Result := s.writeResult rt (sext64 (s.low rs + simm32 imm))

/-- SLTI (R172). -/
def execSlti (rt rs : Reg) (imm : Half) (s : State) : Result :=
  s.writeResult rt (boolValue (lessSigned (s.reg rs) (simm64 imm)))

/-- SLTIU (R173): the immediate is sign-extended, then compared unsigned. -/
def execSltiu (rt rs : Reg) (imm : Half) (s : State) : Result :=
  s.writeResult rt (boolValue (lessUnsigned (s.reg rs) (simm64 imm)))

/-- ANDI (R174): the immediate is zero-extended. -/
def execAndi (rt rs : Reg) (imm : Half) (s : State) : Result := s.writeResult rt (s.reg rs &&& zimm64 imm)

/-- ORI (R175): the immediate is zero-extended. -/
def execOri (rt rs : Reg) (imm : Half) (s : State) : Result := s.writeResult rt (s.reg rs ||| zimm64 imm)

/-- XORI (R176): the immediate is zero-extended. -/
def execXori (rt rs : Reg) (imm : Half) (s : State) : Result := s.writeResult rt (s.reg rs ^^^ zimm64 imm)

/-- LUI (R177). -/
def execLui (rt : Reg) (imm : Half) (s : State) : Result := s.writeResult rt (upperImmediate imm)

end Sys2Proof.Machine
end

