-- ==== Sys2Proof/Machine/LoadStore.lean ====
section
/-! DEFINITION. Loads and stores (44_load_store.md R186 to R193). A load to r0 makes its access and can halt (R186). -/

namespace Sys2Proof.Machine

/-- LB (R186): sign-extended. -/
def execLb (rt rs : Reg) (imm : Half) (s : State) : Result :=
  s.loadResult rt ((s.readByte (effectiveAddr (s.reg rs) imm)).map fun v => v.signExtend 64)

/-- LBU (R187): zero-extended. -/
def execLbu (rt rs : Reg) (imm : Half) (s : State) : Result :=
  s.loadResult rt ((s.readByte (effectiveAddr (s.reg rs) imm)).map fun v => v.setWidth 64)

/-- LH (R188): sign-extended. -/
def execLh (rt rs : Reg) (imm : Half) (s : State) : Result :=
  s.loadResult rt ((s.readHalf (effectiveAddr (s.reg rs) imm)).map fun v => v.signExtend 64)

/-- LHU (R189): zero-extended. -/
def execLhu (rt rs : Reg) (imm : Half) (s : State) : Result :=
  s.loadResult rt ((s.readHalf (effectiveAddr (s.reg rs) imm)).map fun v => v.setWidth 64)

/-- LW (R190): sign-extended to 64 bits. -/
def execLw (rt rs : Reg) (imm : Half) (s : State) : Result :=
  s.loadResult rt ((s.readWord (effectiveAddr (s.reg rs) imm)).map sext64)

/-- SB (R191). -/
def execSb (rt rs : Reg) (imm : Half) (s : State) : Result :=
  s.storeResult (effectiveAddr (s.reg rs) imm) .byte (s.low rt)

/-- SH (R192). -/
def execSh (rt rs : Reg) (imm : Half) (s : State) : Result :=
  s.storeResult (effectiveAddr (s.reg rs) imm) .half (s.low rt)

/-- SW (R193). -/
def execSw (rt rs : Reg) (imm : Half) (s : State) : Result :=
  s.storeResult (effectiveAddr (s.reg rs) imm) .word (s.low rt)

end Sys2Proof.Machine
end

