-- ==== Sys2Proof/Machine/RegisterAlu.lean ====
section
/-! DEFINITION. Register-register ALU: add, subtract, bitwise, set-less-than (41_register_register.md R120 to R129). -/

namespace Sys2Proof.Machine

/-- ADD (R120): traps on signed overflow, also with rd = 0. -/
def execAdd (rd rs rt : Reg) (s : State) : Result :=
  if addOverflows (s.low rs) (s.low rt) then s.raiseOverflow
  else s.writeResult rd (sext64 (s.low rs + s.low rt))

/-- ADDU (R121): wraps, never traps. -/
def execAddu (rd rs rt : Reg) (s : State) : Result := s.writeResult rd (sext64 (s.low rs + s.low rt))

/-- SUB (R122): rs - rt, traps on signed overflow. -/
def execSub (rd rs rt : Reg) (s : State) : Result :=
  if subOverflows (s.low rs) (s.low rt) then s.raiseOverflow
  else s.writeResult rd (sext64 (s.low rs - s.low rt))

/-- SUBU (R123): wraps, never traps. -/
def execSubu (rd rs rt : Reg) (s : State) : Result := s.writeResult rd (sext64 (s.low rs - s.low rt))

/-- AND (R124), on 64 bits. -/
def execAnd (rd rs rt : Reg) (s : State) : Result := s.writeResult rd (s.reg rs &&& s.reg rt)

/-- OR (R125), on 64 bits. -/
def execOr (rd rs rt : Reg) (s : State) : Result := s.writeResult rd (s.reg rs ||| s.reg rt)

/-- XOR (R126), on 64 bits. -/
def execXor (rd rs rt : Reg) (s : State) : Result := s.writeResult rd (s.reg rs ^^^ s.reg rt)

/-- NOR (R127), on 64 bits. -/
def execNor (rd rs rt : Reg) (s : State) : Result := s.writeResult rd (~~~(s.reg rs ||| s.reg rt))

/-- SLT (R128): signed, on 64 bits. -/
def execSlt (rd rs rt : Reg) (s : State) : Result := s.writeResult rd (boolValue (lessSigned (s.reg rs) (s.reg rt)))

/-- SLTU (R129): unsigned, on 64 bits. -/
def execSltu (rd rs rt : Reg) (s : State) : Result := s.writeResult rd (boolValue (lessUnsigned (s.reg rs) (s.reg rt)))

end Sys2Proof.Machine
end

