-- ==== Sys2Proof/Machine/Shifts.lean ====
section
/-! DEFINITION. The six shifts (41_register_register.md R130 to R135): on the low 32 bits of rt, the 32-bit result
sign-extended. -/

namespace Sys2Proof.Machine

/-- SLL (R130). -/
def execSll (rd rt : Reg) (sa : BitVec 5) (s : State) : Result := s.writeResult rd (sext64 (s.low rt <<< sa.toNat))

/-- SRL (R131). -/
def execSrl (rd rt : Reg) (sa : BitVec 5) (s : State) : Result := s.writeResult rd (sext64 (s.low rt >>> sa.toNat))

/-- SRA (R132): copies of bit 31 enter. -/
def execSra (rd rt : Reg) (sa : BitVec 5) (s : State) : Result :=
  s.writeResult rd (sext64 ((s.low rt).sshiftRight sa.toNat))

/-- SLLV (R133): by the low five bits of rs. -/
def execSllv (rd rt rs : Reg) (s : State) : Result :=
  s.writeResult rd (sext64 (s.low rt <<< (shiftAmount (s.reg rs)).toNat))

/-- SRLV (R134): by the low five bits of rs. -/
def execSrlv (rd rt rs : Reg) (s : State) : Result :=
  s.writeResult rd (sext64 (s.low rt >>> (shiftAmount (s.reg rs)).toNat))

/-- SRAV (R135): by the low five bits of rs. -/
def execSrav (rd rt rs : Reg) (s : State) : Result :=
  s.writeResult rd (sext64 ((s.low rt).sshiftRight (shiftAmount (s.reg rs)).toNat))

end Sys2Proof.Machine
end

