-- ==== Sys2Proof/Machine/Processor.lean ====
section
/-! DEFINITION. One `step()` of the instruction processor (40_execution_cycle.md R100 to R109). -/

namespace Sys2Proof.Machine

/-- The instruction word at pc, through the address decoder (R100). -/
def State.fetch (s : State) : Except Fault Word := s.readWord s.pc

/-- `step()` (R106): an interrupt where one is pending and the step is not in a delay slot (R105), else the word at pc
fetched, decoded and executed. The check of R102 stands in the meanings (log 16). -/
def processorStep (s : State) : Result :=
  if s.delay = .none ∧ s.interruptPending = true then .next s.takeInterrupt
  else
    match s.fetch with
    | .error f => .fault f
    | .ok w =>
      match decode w with
      | none => s.unsupportedWord w
      | some i => exec i s

end Sys2Proof.Machine
end

