-- ==== Sys2Proof/Machine/StepLoop.lean ====
section
/-! DEFINITION. The StepLoop: whose turn it is, and what one turn does (80_step_loop_and_snapshot.md R260 to R271;
logs 7 to 9 and 21); and how a word is placed where the next step fetches it (log 15). -/

namespace Sys2Proof.Machine

/-- The machine is at a boundary: Stopped, Paused, or between two macro-steps while Running (R271; log 21). -/
def State.atBoundary (s : State) : Bool := s.loop != .running || s.phase == .processor 0

/-- A completed processor step counted against INSN_BUDGET; after the last one the signal coprocessor is next (R261). -/
def State.countStep (s : State) : State :=
  match s.phase with
  | .processor k => { s with phase := if k + 1 < s.cfg.insnBudget then .processor (k + 1) else .signal }
  | _ => s

/-- A halt: the StepLoop goes to Stopped with the halt as its stop reason, and the rest of the macro-step does not run
(R263). -/
def State.haltWith (s : State) (f : Fault) : State :=
  { s with loop := .stopped, stopReason := .halted f, phase := .processor 0 }

/-- The processor's turn: one step counted, or a halt (R261, R263; log 8). -/
def State.processorTurn (s : State) : Result :=
  match processorStep s with
  | .next t => .next t.countStep
  | .fault f => .next (s.haltWith f)
  | .refused r => .refused r

/-- The turn of the phase that stands in `phase`, in the order of R260. -/
def State.macroStepTurn (s : State) : Result :=
  match s.phase with
  | .processor _ => s.processorTurn
  | .signal => .next { s.spStep with phase := .display }
  | .display => .next { s.renderIfReady with phase := .collaborators }
  | .collaborators => .next { s.yieldPhase with phase := .processor 0 }

/-- A turn without a held request: the macro-step goes on while Running; nothing happens while Stopped or Paused (R265;
log 9). -/
def State.loopTurn (s : State) : Result :=
  match s.loop with
  | .running => s.macroStepTurn
  | _ => .next s

/-- One turn: at a boundary the first held request is applied, before anything else (R271). -/
def State.turn (s : State) : Result :=
  if s.atBoundary then
    match s.requests with
    | r :: rest => .next (({ s with requests := rest } : State).applyRequest r)
    | [] => s.loopTurn
  else s.loopTurn

/-! ## A word placed where the next step fetches -/

/-- The machine made ready to fetch at once: Running, the processor's turn, no request held, no interrupt enabled. -/
def State.readyToFetch (s : State) : State :=
  { s with
    loop := .running
    phase := .processor 0
    requests := []
    status := if s.interruptPending then withField s.status 0x00000001#32 0 else s.status }

/-- Bytes at pc: in RAM where pc lies there, else in a cartridge grown to hold them; where pc lies below the cartridge and
outside RAM, pc is taken to address 0. -/
def State.withBytesAtPc (s : State) (bytes : List Byte) : State :=
  if s.pc.toNat < s.cfg.ramSize then { s with ram := s.ram.writeBytes s.pc.toNat bytes }
  else if s.cfg.cartridgeBase.toNat ≤ s.pc.toNat then
    { s with
      rom := s.rom.writeBytes (s.pc.toNat - s.cfg.cartridgeBase.toNat) bytes
      romSize := max s.romSize (s.pc.toNat - s.cfg.cartridgeBase.toNat + 4) }
  else { s with pc := 0, ram := s.ram.writeBytes 0 bytes }

end Sys2Proof.Machine
end

