-- ==== Sys2Proof/WellFormed.lean ====
section
/-! DEFINITION. The checks a configuration must pass (00_scope.md R5): "a configuration that breaks one is refused, not
run" (log 10). An instruction needs no check of its own: every field of `Instr` is a bit vector of the field's width, every
value of which 30_encoding.md R81 to R88 allow. -/

namespace Sys2Proof

namespace Config

/-- `RAM_SIZE`: multiple of 4, at least 4, at most 2^32. -/
def ramSizeOk (c : Config) : Bool := c.ramSize % 4 == 0 && 4 ≤ c.ramSize && c.ramSize ≤ 2 ^ 32

/-- `CARTRIDGE_BASE`: multiple of 4, at least `RAM_SIZE` (below 2^32 by its type). -/
def cartridgeBaseOk (c : Config) : Bool := c.cartridgeBase.toNat % 4 == 0 && c.ramSize ≤ c.cartridgeBase.toNat

/-- `HEADER_SIZE`: multiple of 4, at least 4. -/
def headerSizeOk (c : Config) : Bool := c.headerSize % 4 == 0 && 4 ≤ c.headerSize

/-- `ENTRY_VECTOR`: multiple of 4. -/
def entryVectorOk (c : Config) : Bool := c.entryVector.toNat % 4 == 0

/-- `EXCEPTION_VECTOR`: multiple of 4. -/
def exceptionVectorOk (c : Config) : Bool := c.exceptionVector.toNat % 4 == 0

/-- `MAILBOX_ADDR`: multiple of 4, its three words inside RAM. -/
def mailboxAddrOk (c : Config) : Bool := c.mailboxAddr.toNat % 4 == 0 && c.mailboxAddr.toNat + 12 ≤ c.ramSize

/-- `INSN_BUDGET`: at least 1. -/
def insnBudgetOk (c : Config) : Bool := 1 ≤ c.insnBudget

/-- `PIXEL_WIDTH` and `PIXEL_HEIGHT`: at least 1. -/
def pixelSizeOk (c : Config) : Bool := 1 ≤ c.pixelWidth && 1 ≤ c.pixelHeight

/-- Every constraint of 00_scope.md R5 holds. -/
def wellFormed (c : Config) : Bool :=
  c.ramSizeOk && c.cartridgeBaseOk && c.headerSizeOk && c.entryVectorOk && c.exceptionVectorOk && c.mailboxAddrOk &&
    c.insnBudgetOk && c.pixelSizeOk

end Config

end Sys2Proof
end

