-- ==== Sys2Proof/Machine/Step.lean ====
section
/-! DEFINITION. One step of the machine: one turn of one agent (log 7), for a configuration that keeps the constraints of
00_scope.md R5 (log 10). -/

namespace Sys2Proof.Machine

/-- One step. -/
def step (s : State) : Host.Outcome State Fault Refusal :=
  if s.cfg.wellFormed then s.turn else .refused .invalidConfiguration

/-- The state with a table row's word stored where the next step fetches, and the machine made ready to fetch (log 15). -/
def State.withFetchWord (s : State) (nbits w : Nat) : State :=
  s.readyToFetch.withBytesAtPc (bytesOfWord (BitVec.ofNat 32 (w % 2 ^ nbits)))

end Sys2Proof.Machine
end

