-- ==== Sys2Proof/Safety.lean ====
section
/-! DEFINITION. What claims use: the invariant of reachable states, and the frames that say what an instruction leaves
unchanged. -/

namespace Sys2Proof.Machine

/-! ## The invariant -/

/-- RAM, the cartridge base and the cartridge's length end on word boundaries, so that an aligned access lies in one region
(20_memory.md R59). -/
structure State.RegionsAligned (s : State) : Prop where
  ramAligned : s.cfg.ramSize % 4 = 0
  baseAligned : s.cfg.cartridgeBase.toNat % 4 = 0
  romAligned : s.romSize % 4 = 0

/-- What holds of every state the machine reaches from construction: the constraints and reserved fields of 00_scope.md R5,
10_state.md R21 to R25, R31, R32, R36, R37, 20_memory.md R66, 60_exceptions.md R212, and the model's own forms. -/
structure State.Inv (s : State) : Prop where
  /-- the configuration keeps 00_scope.md R5 -/
  cfgOk : s.cfg.wellFormed = true
  /-- register 0's slot holds 0 (10_state.md R21) -/
  slotZero : s.regs[0] = 0
  /-- every register is the sign extension of its low 32 bits (10_state.md R23) -/
  regsSext : ∀ r, s.reg r = sext64 (s.low r)
  /-- pc is a multiple of 4 (10_state.md R24) -/
  pcAligned : s.pc.toNat % 4 = 0
  /-- a pending target is a multiple of 4 (10_state.md R25) -/
  delayAligned : ∀ t, s.delay = .taken t → t.toNat % 4 = 0
  /-- only the implemented bits of Status can be 1 (10_state.md R31) -/
  statusBits : s.status &&& ~~~0x0000FF03#32 = 0
  /-- only the implemented bits of Cause can be 1 (10_state.md R32) -/
  causeBits : s.cause &&& ~~~0x8000FF7C#32 = 0
  /-- ExcCode is 0 or 12 (60_exceptions.md R212) -/
  excCode : causeExcCode s.cause = excInt ∨ causeExcCode s.cause = excOv
  /-- RAM is in canonical form and inside RAM_SIZE -/
  ramWf : s.ram.wf
  ramBelow : s.ram.below s.cfg.ramSize
  /-- the cartridge is in canonical form, inside its length, and mapped whole (20_memory.md R66) -/
  romWf : s.rom.wf
  romBelow : s.rom.below s.romSize
  romAligned : s.romSize % 4 = 0
  romFits : s.cfg.cartridgeBase.toNat + s.romSize ≤ 2 ^ 32
  /-- the coprocessors' images are ones their encoders produce (80_step_loop_and_snapshot.md R279; log 3) -/
  spOk : Config.spImageOk s.sp.image = true
  dpOk : Config.dpImageOk s.dp.image = true
  /-- the pixel buffer has its size (10_state.md R36) -/
  pixelsFit : s.dp.pixels.length = s.cfg.pixelBytes
  /-- there are NUM_CONTROLLERS records (10_state.md R37) -/
  ctrlFit : s.ctrl.length = s.cfg.numControllers
  /-- the macro-step's count stays below INSN_BUDGET (80_step_loop_and_snapshot.md R261) -/
  phaseOk : ∀ k, s.phase = .processor k → k < s.cfg.insnBudget
  /-- the loop rests only at a boundary (80_step_loop_and_snapshot.md R271) -/
  restsAtBoundary : s.loop ≠ .running → s.phase = .processor 0

/-! ## Frames -/

/-- No register but `r` changes. -/
def OtherRegsSame (r : Reg) (s t : State) : Prop := ∀ q, q ≠ r → t.reg q = s.reg q

/-- No register changes. -/
def RegsSame (s t : State) : Prop := ∀ q, t.reg q = s.reg q

/-- Status, Cause and EPC do not change. -/
def Cp0Same (s t : State) : Prop := t.status = s.status ∧ t.cause = s.cause ∧ t.epc = s.epc

/-- Every byte of the address space reads as before. -/
def MemorySame (s t : State) : Prop := ∀ a, t.byteAt a = s.byteAt a

/-- Every byte outside the `n` bytes from `a` reads as before. -/
def MemorySameOutside (a : Addr) (n : Nat) (s t : State) : Prop :=
  ∀ b : Addr, b.toNat < a.toNat ∨ a.toNat + n ≤ b.toNat → t.byteAt b = s.byteAt b

/-- The configuration, the cartridge, the coprocessors, the controllers, the StepLoop and what the host waits for or has
been told do not change. -/
def RestSame (s t : State) : Prop :=
  t.cfg = s.cfg ∧ t.rom = s.rom ∧ t.romSize = s.romSize ∧ t.sp = s.sp ∧ t.dp = s.dp ∧ t.ctrl = s.ctrl ∧
    t.loop = s.loop ∧ t.stopReason = s.stopReason ∧ t.phase = s.phase ∧ t.requests = s.requests ∧
    t.inputs = s.inputs ∧ t.outputs = s.outputs

/-- The address lies in the cartridge's window and outside RAM (20_memory.md R51, R53). -/
def InCartridge (s : State) (a : Addr) : Prop :=
  s.cfg.ramSize ≤ a.toNat ∧ s.cfg.cartridgeBase.toNat ≤ a.toNat ∧ a.toNat < s.cfg.cartridgeBase.toNat + s.romSize

/-- The default end (40_execution_cycle.md R104). -/
def EndsPlain (s t : State) : Prop := t.pc = s.seqNext ∧ t.delay = .none

/-- The end of a control transfer (42_control_transfer.md R150): at the delay slot, with the delay state set. -/
def EndsInSlot (d : Delay) (s t : State) : Prop := t.pc = s.pc + 4#32 ∧ t.delay = d

/-- Register `r` holds `v`, where a write to register 0 is discarded (10_state.md R21). -/
def Holds (t : State) (r : Reg) (v : DWord) : Prop := t.reg r = if r = 0#5 then 0 else v

/-- The answer is a next state in which `r` holds `v`, control has passed to the next instruction, and nothing else has
changed. -/
def WritesRegister (r : Reg) (v : DWord) (s : State) (answer : Result) : Prop :=
  ∃ t, answer = .next t ∧ Holds t r v ∧ OtherRegsSame r s t ∧ Cp0Same s t ∧ MemorySame s t ∧ RestSame s t ∧ EndsPlain s t

/-- The answer is a next state at the delay slot with the delay state `d`, and nothing else has changed. -/
def TransfersOnly (d : Delay) (s : State) (answer : Result) : Prop :=
  ∃ t, answer = .next t ∧ RegsSame s t ∧ Cp0Same s t ∧ MemorySame s t ∧ RestSame s t ∧ EndsInSlot d s t

/-- The same with a link `v` in register `r`. -/
def TransfersAndLinks (d : Delay) (r : Reg) (v : DWord) (s : State) (answer : Result) : Prop :=
  ∃ t, answer = .next t ∧ Holds t r v ∧ OtherRegsSame r s t ∧ Cp0Same s t ∧ MemorySame s t ∧ RestSame s t ∧
    EndsInSlot d s t

/-- The answer is the trap entry of an Overflow at this instruction (60_exceptions.md R213, R214): code 12, EPC at the
instruction or at its branch, and no register or memory byte written. -/
def TrapsOverflow (s : State) (answer : Result) : Prop :=
  ∃ t, answer = .next t ∧ causeExcCode t.cause = 12#5 ∧ statusEXL t.status = true ∧
    (statusEXL s.status = false →
      t.epc = (if s.delay = .none then s.pc else s.pc - 4#32) ∧ causeBD t.cause = decide (s.delay ≠ .none)) ∧
    (statusEXL s.status = true → t.epc = s.epc ∧ causeBD t.cause = causeBD s.cause) ∧
    causeIP t.cause = causeIP s.cause ∧ statusIE t.status = statusIE s.status ∧ statusIM t.status = statusIM s.status ∧
    RegsSame s t ∧ MemorySame s t ∧ RestSame s t ∧ t.pc = s.cfg.exceptionVector ∧ t.delay = .none

/-- The answer is a next state in which the bytes stand in memory from `a`, control has passed to the next instruction, and
nothing else has changed. -/
def StoresBytes (a : Addr) (bytes : List Byte) (s : State) (answer : Result) : Prop :=
  ∃ t, answer = .next t ∧ (∀ k, k < bytes.length → t.byteAt (a + BitVec.ofNat 32 k) = some (bytes.getD k 0)) ∧
    MemorySameOutside a bytes.length s t ∧ RegsSame s t ∧ Cp0Same s t ∧ RestSame s t ∧ EndsPlain s t

/-- The answer is a next state in which only control has passed to the next instruction. -/
def ChangesNothing (s : State) (answer : Result) : Prop :=
  ∃ t, answer = .next t ∧ RegsSame s t ∧ Cp0Same s t ∧ MemorySame s t ∧ RestSame s t ∧ EndsPlain s t

/-- The answer is the logged no-op of a word at this pc (40_execution_cycle.md R109). -/
def LoggedNoOp (w : Word) (s : State) (answer : Result) : Prop :=
  ∃ t, answer = .next t ∧ t.outputs = s.outputs ++ [.unsupported s.pc w] ∧ RegsSame s t ∧ Cp0Same s t ∧
    MemorySame s t ∧ RestSame { s with outputs := t.outputs } t ∧ EndsPlain s t

/-- The word of an instruction has the fixed bits of its row in opcode_table.json, and decodes to it. -/
def EncodedAs (i : Instr) (mask pattern : Word) : Prop := encode i &&& mask = pattern ∧ decode (encode i) = some i

/-! ## Whose turn it is -/

/-- The next step is the processor's, the one after `k` steps of this macro-step: the machine runs under a configuration
that keeps its constraints, and no held request comes first. -/
structure ProcessorsTurn (s : State) (k : Nat) : Prop where
  cfgOk : s.cfg.wellFormed = true
  running : s.loop = .running
  turn : s.phase = .processor k
  noRequest : k = 0 → s.requests = []

/-- The step takes no interrupt (40_execution_cycle.md R105). -/
def NoInterrupt (s : State) : Prop := s.delay ≠ .none ∨ s.interruptPending = false

/-! ## Snapshots -/

/-- Every section's length can be written as a u32 (log 18). -/
structure SnapshotFits (s : State) : Prop where
  sp : s.sp.image.length < 2 ^ 32
  dp : 12 + s.dp.image.length + s.dp.pixels.length < 2 ^ 32
  ctrl : 4 + 8 * s.ctrl.length < 2 ^ 32

/-! ## The state after several steps -/

/-- The next state of an answer, where there is one. -/
def nextState : Result → Option State
  | .next t => some t
  | _ => none

/-- The state after `n` steps, where none of them stops. -/
def stepsFrom : Nat → State → Option State
  | 0, s => some s
  | n + 1, s => (nextState (step s)).bind (stepsFrom n)

end Sys2Proof.Machine
end

