-- ==== Sys2Proof/Certificates/Slice0/Obligations.lean ====
section
/-! DEFINITION. The statements for the provers. Each docstring names the rules of spec/ the statement formalises. -/

open Sys2Proof Sys2Proof.Machine

/-! ## Encoding -/

/-- Words of 95_test_vectors.md section 2 and of the rules' examples decode as the spec says, and words outside the admitted
subset decode to nothing. -/
def Obligations.DecodeReadsTheSpecsWords : Prop :=
  decode 0x00221820#32 = some (.add 3 1 2) ∧ decode 0x000117C0#32 = some (.sll 2 1 31) ∧
  decode 0x00611004#32 = some (.sllv 2 1 3) ∧ decode 0x0120F809#32 = some (.jalr 31 9) ∧
  decode 0x04110002#32 = some (.bgezal 0 2) ∧ decode 0x08000100#32 = some (.j 0x100) ∧
  decode 0x1422FFFF#32 = some (.bne 1 2 0xFFFF) ∧ decode 0x3C028000#32 = some (.lui 2 0x8000) ∧
  decode 0x8C220004#32 = some (.lw 2 1 4) ∧ decode 0x401A7000#32 = some (.mfc0 26 14) ∧
  decode 0x40826000#32 = some (.mtc0 2 12) ∧ decode 0x42000018#32 = some .eret ∧
  decode 0x00200000#32 = none ∧ decode 0x03E00808#32 = none ∧ decode 0x18210004#32 = none ∧
  decode 0x3C221234#32 = none ∧ decode 0x0000000C#32 = none ∧ decode 0x42000010#32 = none ∧
  decode 0xFFFFFFFF#32 = none

/-- The decoder reads every instruction back from the bytes of its word, and every word that decodes is the word of what it
decodes to: no bit of an encoding is dropped (30_encoding.md R81 to R90). -/
def Obligations.DecodeAndEncodeAgree : Prop :=
  (∀ (i : Instr) (rest : List Byte), decodeBytes (bytesOfWord (encode i) ++ rest) = .ok (i, rest)) ∧
  (∀ (w : Word) (i : Instr), decode w = some i → encode i = w)

/-- A row of opcode_table.json covers a word exactly when the word decodes to an instruction of the row's mnemonic, a word
that no row covers is Unsupported, and no two rows cover one word (30_encoding.md R90). -/
def Obligations.DecodeFollowsTheOpcodeTable : Prop :=
  ∀ w : Word,
    (∀ r ∈ opcodeTable, r.covers w = true ↔ ∃ i, decode w = some i ∧ i.mnemonic = r.mnemonic) ∧
    (decode w = none ↔ ∀ r ∈ opcodeTable, r.covers w = false) ∧
    (∀ r ∈ opcodeTable, ∀ q ∈ opcodeTable, r.covers w = true → q.covers w = true → r = q)

/-! ## The register file -/

/-- Register 0 reads zero and discards writes; any other register reads what was written, and the others stay
(10_state.md R21). -/
def Obligations.RegisterZeroIsHardwired : Prop :=
  ∀ (s : State) (r : Reg) (v : DWord),
    s.reg 0 = 0 ∧ s.setReg 0 v = s ∧ (r ≠ 0 → (s.setReg r v).reg r = v) ∧ OtherRegsSame r s (s.setReg r v)

/-! ## Register-register ALU and shifts -/

/-- ADD writes the exact sum where it fits 32 bits and traps otherwise, rd = 0 included (41_register_register.md R120). -/
def Obligations.AddWritesTheSumOrTraps : Prop :=
  ∀ (rd rs rt : Reg) (s : State),
    let r := (s.low rs).toInt + (s.low rt).toInt
    EncodedAs (.add rd rs rt) 0xFC0007FF 0x00000020 ∧
    (-2 ^ 31 ≤ r ∧ r ≤ 2 ^ 31 - 1 → WritesRegister rd (BitVec.ofInt 64 r) s (exec (.add rd rs rt) s)) ∧
    (¬(-2 ^ 31 ≤ r ∧ r ≤ 2 ^ 31 - 1) → TrapsOverflow s (exec (.add rd rs rt) s))

/-- SUB writes the exact difference where it fits 32 bits and traps otherwise (41_register_register.md R122). -/
def Obligations.SubWritesTheDifferenceOrTraps : Prop :=
  ∀ (rd rs rt : Reg) (s : State),
    let r := (s.low rs).toInt - (s.low rt).toInt
    EncodedAs (.sub rd rs rt) 0xFC0007FF 0x00000022 ∧
    (-2 ^ 31 ≤ r ∧ r ≤ 2 ^ 31 - 1 → WritesRegister rd (BitVec.ofInt 64 r) s (exec (.sub rd rs rt) s)) ∧
    (¬(-2 ^ 31 ≤ r ∧ r ≤ 2 ^ 31 - 1) → TrapsOverflow s (exec (.sub rd rs rt) s))

/-- ADDU and SUBU write the 32-bit result modulo 2^32, sign-extended, and never trap (41_register_register.md R121,
R123). -/
def Obligations.AdduAndSubuWrap : Prop :=
  ∀ (rd rs rt : Reg) (s : State),
    EncodedAs (.addu rd rs rt) 0xFC0007FF 0x00000021 ∧
    WritesRegister rd (BitVec.signExtend 64 (BitVec.ofNat 32 ((s.low rs).toNat + (s.low rt).toNat))) s
      (exec (.addu rd rs rt) s) ∧
    EncodedAs (.subu rd rs rt) 0xFC0007FF 0x00000023 ∧
    WritesRegister rd (BitVec.signExtend 64 (BitVec.ofInt 32 ((s.low rs).toNat - (s.low rt).toNat))) s
      (exec (.subu rd rs rt) s)

/-- AND, OR, XOR and NOR act on all 64 bits, bit by bit (41_register_register.md R124 to R127). -/
def Obligations.BitwiseOnRegisters : Prop :=
  ∀ (rd rs rt : Reg) (s : State),
    EncodedAs (.and rd rs rt) 0xFC0007FF 0x00000024 ∧ EncodedAs (.or rd rs rt) 0xFC0007FF 0x00000025 ∧
    EncodedAs (.xor rd rs rt) 0xFC0007FF 0x00000026 ∧ EncodedAs (.nor rd rs rt) 0xFC0007FF 0x00000027 ∧
    ∃ a o x n : DWord,
      (∀ k, k < 64 →
        a.getLsbD k = ((s.reg rs).getLsbD k && (s.reg rt).getLsbD k) ∧
        o.getLsbD k = ((s.reg rs).getLsbD k || (s.reg rt).getLsbD k) ∧
        x.getLsbD k = ((s.reg rs).getLsbD k != (s.reg rt).getLsbD k) ∧
        n.getLsbD k = !((s.reg rs).getLsbD k || (s.reg rt).getLsbD k)) ∧
      WritesRegister rd a s (exec (.and rd rs rt) s) ∧ WritesRegister rd o s (exec (.or rd rs rt) s) ∧
      WritesRegister rd x s (exec (.xor rd rs rt) s) ∧ WritesRegister rd n s (exec (.nor rd rs rt) s)

/-- SLT compares signed and SLTU unsigned on 64 bits, which on sign-extended registers is the compare of the low 32 bits
(41_register_register.md R128, R129). -/
def Obligations.SetLessThanOnRegisters : Prop :=
  ∀ (rd rs rt : Reg) (s : State),
    EncodedAs (.slt rd rs rt) 0xFC0007FF 0x0000002A ∧ EncodedAs (.sltu rd rs rt) 0xFC0007FF 0x0000002B ∧
    WritesRegister rd (if (s.reg rs).toInt < (s.reg rt).toInt then 1 else 0) s (exec (.slt rd rs rt) s) ∧
    WritesRegister rd (if (s.reg rs).toNat < (s.reg rt).toNat then 1 else 0) s (exec (.sltu rd rs rt) s) ∧
    (s.reg rs = sext64 (s.low rs) → s.reg rt = sext64 (s.low rt) →
      ((s.reg rs).toInt < (s.reg rt).toInt ↔ (s.low rs).toInt < (s.low rt).toInt) ∧
      ((s.reg rs).toNat < (s.reg rt).toNat ↔ (s.low rs).toNat < (s.low rt).toNat))

/-- SLL, SRL and SRA shift the low 32 bits by sa and sign-extend the result (41_register_register.md R130 to R132). -/
def Obligations.ShiftsByImmediate : Prop :=
  ∀ (rd rt : Reg) (sa : BitVec 5) (s : State),
    EncodedAs (.sll rd rt sa) 0xFFE0003F 0x00000000 ∧ EncodedAs (.srl rd rt sa) 0xFFE0003F 0x00000002 ∧
    EncodedAs (.sra rd rt sa) 0xFFE0003F 0x00000003 ∧
    WritesRegister rd (BitVec.signExtend 64 (BitVec.ofNat 32 ((s.low rt).toNat * 2 ^ sa.toNat))) s
      (exec (.sll rd rt sa) s) ∧
    WritesRegister rd (BitVec.signExtend 64 (BitVec.ofNat 32 ((s.low rt).toNat / 2 ^ sa.toNat))) s
      (exec (.srl rd rt sa) s) ∧
    WritesRegister rd (BitVec.ofInt 64 ((s.low rt).toInt / 2 ^ sa.toNat)) s (exec (.sra rd rt sa) s)

/-- SLLV, SRLV and SRAV shift the low 32 bits of rt by the low five bits of rs (41_register_register.md R133 to R135). -/
def Obligations.ShiftsByRegister : Prop :=
  ∀ (rd rt rs : Reg) (s : State),
    let n := (s.reg rs).toNat % 32
    EncodedAs (.sllv rd rt rs) 0xFC0007FF 0x00000004 ∧ EncodedAs (.srlv rd rt rs) 0xFC0007FF 0x00000006 ∧
    EncodedAs (.srav rd rt rs) 0xFC0007FF 0x00000007 ∧
    WritesRegister rd (BitVec.signExtend 64 (BitVec.ofNat 32 ((s.low rt).toNat * 2 ^ n))) s
      (exec (.sllv rd rt rs) s) ∧
    WritesRegister rd (BitVec.signExtend 64 (BitVec.ofNat 32 ((s.low rt).toNat / 2 ^ n))) s
      (exec (.srlv rd rt rs) s) ∧
    WritesRegister rd (BitVec.ofInt 64 ((s.low rt).toInt / 2 ^ n)) s (exec (.srav rd rt rs) s)

/-! ## Immediate arithmetic -/

/-- ADDI writes the exact sum with the signed immediate where it fits 32 bits and traps otherwise
(43_immediate_arith.md R170). -/
def Obligations.AddiWritesTheSumOrTraps : Prop :=
  ∀ (rt rs : Reg) (imm : Half) (s : State),
    let r := (s.low rs).toInt + imm.toInt
    EncodedAs (.addi rt rs imm) 0xFC000000 0x20000000 ∧
    (-2 ^ 31 ≤ r ∧ r ≤ 2 ^ 31 - 1 → WritesRegister rt (BitVec.ofInt 64 r) s (exec (.addi rt rs imm) s)) ∧
    (¬(-2 ^ 31 ≤ r ∧ r ≤ 2 ^ 31 - 1) → TrapsOverflow s (exec (.addi rt rs imm) s))

/-- ADDIU adds the signed immediate modulo 2^32 and never traps (43_immediate_arith.md R171). -/
def Obligations.AddiuWraps : Prop :=
  ∀ (rt rs : Reg) (imm : Half) (s : State),
    EncodedAs (.addiu rt rs imm) 0xFC000000 0x24000000 ∧
    WritesRegister rt (BitVec.signExtend 64 (BitVec.ofInt 32 ((s.low rs).toInt + imm.toInt))) s
      (exec (.addiu rt rs imm) s)

/-- SLTI compares with the signed immediate; SLTIU sign-extends it and compares unsigned (43_immediate_arith.md R172,
R173). -/
def Obligations.SetLessThanImmediate : Prop :=
  ∀ (rt rs : Reg) (imm : Half) (s : State),
    EncodedAs (.slti rt rs imm) 0xFC000000 0x28000000 ∧ EncodedAs (.sltiu rt rs imm) 0xFC000000 0x2C000000 ∧
    WritesRegister rt (if (s.reg rs).toInt < imm.toInt then 1 else 0) s (exec (.slti rt rs imm) s) ∧
    WritesRegister rt (if (s.reg rs).toNat < (BitVec.ofInt 64 imm.toInt).toNat then 1 else 0) s
      (exec (.sltiu rt rs imm) s)

/-- ANDI, ORI and XORI take the zero-extended immediate, bit by bit (43_immediate_arith.md R174 to R176). -/
def Obligations.LogicalImmediates : Prop :=
  ∀ (rt rs : Reg) (imm : Half) (s : State),
    EncodedAs (.andi rt rs imm) 0xFC000000 0x30000000 ∧ EncodedAs (.ori rt rs imm) 0xFC000000 0x34000000 ∧
    EncodedAs (.xori rt rs imm) 0xFC000000 0x38000000 ∧
    ∃ a o x : DWord,
      (∀ k, k < 64 →
        a.getLsbD k = (if k < 16 then (s.reg rs).getLsbD k && imm.getLsbD k else false) ∧
        o.getLsbD k = (if k < 16 then (s.reg rs).getLsbD k || imm.getLsbD k else (s.reg rs).getLsbD k) ∧
        x.getLsbD k = (if k < 16 then (s.reg rs).getLsbD k != imm.getLsbD k else (s.reg rs).getLsbD k)) ∧
      WritesRegister rt a s (exec (.andi rt rs imm) s) ∧ WritesRegister rt o s (exec (.ori rt rs imm) s) ∧
      WritesRegister rt x s (exec (.xori rt rs imm) s)

/-- LUI loads the signed immediate times 2^16 (43_immediate_arith.md R177). -/
def Obligations.LuiLoadsTheUpperHalf : Prop :=
  ∀ (rt : Reg) (imm : Half) (s : State),
    EncodedAs (.lui rt imm) 0xFFE00000 0x3C000000 ∧
    WritesRegister rt (BitVec.ofInt 64 (imm.toInt * 2 ^ 16)) s (exec (.lui rt imm) s)

/-! ## Control transfer -/

/-- JR and JALR, outside a delay slot, go to the old value of rs after the slot where it is a multiple of 4, JALR linking
`instPC + 8` in rd; a misaligned target halts them (42_control_transfer.md R152, R153). -/
def Obligations.RegisterJumps : Prop :=
  ∀ (rd rs : Reg) (s : State),
    EncodedAs (.jr rs) 0xFC1FFFFF 0x00000008 ∧ EncodedAs (.jalr rd rs) 0xFC1F07FF 0x00000009 ∧
    (s.delay = .none → (s.low rs).toNat % 4 = 0 →
      TransfersOnly (.taken (s.low rs)) s (exec (.jr rs) s) ∧
      TransfersAndLinks (.taken (s.low rs)) rd (BitVec.signExtend 64 (s.pc + 8#32)) s (exec (.jalr rd rs) s)) ∧
    (s.delay = .none → (s.low rs).toNat % 4 ≠ 0 →
      exec (.jr rs) s = .fault (.alignmentError (s.low rs)) ∧
      exec (.jalr rd rs) s = .fault (.alignmentError (s.low rs)))

/-- J and JAL, outside a delay slot, go to the word `target` of the 256 MiB region of `instPC + 4` after the slot, JAL
linking `instPC + 8` in r31 (42_control_transfer.md R154, R155). -/
def Obligations.AbsoluteJumps : Prop :=
  ∀ (target : BitVec 26) (s : State), s.delay = .none →
    let t : Addr := BitVec.ofNat 32 ((s.pc + 4#32).toNat / 2 ^ 28 * 2 ^ 28 + target.toNat * 4)
    EncodedAs (.j target) 0xFC000000 0x08000000 ∧ EncodedAs (.jal target) 0xFC000000 0x0C000000 ∧
    TransfersOnly (.taken t) s (exec (.j target) s) ∧
    TransfersAndLinks (.taken t) 31 (BitVec.signExtend 64 (s.pc + 8#32)) s (exec (.jal target) s)

/-- BEQ and BNE, outside a delay slot, compare 64 bits and branch by the signed word offset from `instPC + 4`
(42_control_transfer.md R151, R156, R157). -/
def Obligations.BranchesOnEquality : Prop :=
  ∀ (rs rt : Reg) (imm : Half) (s : State), s.delay = .none →
    let t : Addr := BitVec.ofInt 32 (s.pc.toNat + 4 + 4 * imm.toInt)
    EncodedAs (.beq rs rt imm) 0xFC000000 0x10000000 ∧ EncodedAs (.bne rs rt imm) 0xFC000000 0x14000000 ∧
    TransfersOnly (if s.reg rs = s.reg rt then .taken t else .notTaken) s (exec (.beq rs rt imm) s) ∧
    TransfersOnly (if s.reg rs = s.reg rt then .notTaken else .taken t) s (exec (.bne rs rt imm) s)

/-- BLEZ, BGTZ, BLTZ and BGEZ, outside a delay slot, branch on the sign of rs (42_control_transfer.md R158 to R161). -/
def Obligations.BranchesOnSign : Prop :=
  ∀ (rs : Reg) (imm : Half) (s : State), s.delay = .none →
    let t : Addr := BitVec.ofInt 32 (s.pc.toNat + 4 + 4 * imm.toInt)
    let x := (s.reg rs).toInt
    EncodedAs (.blez rs imm) 0xFC1F0000 0x18000000 ∧ EncodedAs (.bgtz rs imm) 0xFC1F0000 0x1C000000 ∧
    EncodedAs (.bltz rs imm) 0xFC1F0000 0x04000000 ∧ EncodedAs (.bgez rs imm) 0xFC1F0000 0x04010000 ∧
    TransfersOnly (if x ≤ 0 then .taken t else .notTaken) s (exec (.blez rs imm) s) ∧
    TransfersOnly (if 0 < x then .taken t else .notTaken) s (exec (.bgtz rs imm) s) ∧
    TransfersOnly (if x < 0 then .taken t else .notTaken) s (exec (.bltz rs imm) s) ∧
    TransfersOnly (if 0 ≤ x then .taken t else .notTaken) s (exec (.bgez rs imm) s)

/-- BLTZAL and BGEZAL, outside a delay slot, link `instPC + 8` in r31 whether or not the branch is taken, and branch on the
old rs (42_control_transfer.md R162, R163). -/
def Obligations.LinkingBranches : Prop :=
  ∀ (rs : Reg) (imm : Half) (s : State), s.delay = .none →
    let t : Addr := BitVec.ofInt 32 (s.pc.toNat + 4 + 4 * imm.toInt)
    let link : DWord := BitVec.signExtend 64 (s.pc + 8#32)
    EncodedAs (.bltzal rs imm) 0xFC1F0000 0x04100000 ∧ EncodedAs (.bgezal rs imm) 0xFC1F0000 0x04110000 ∧
    TransfersAndLinks (if (s.reg rs).toInt < 0 then .taken t else .notTaken) 31 link s (exec (.bltzal rs imm) s) ∧
    TransfersAndLinks (if 0 ≤ (s.reg rs).toInt then .taken t else .notTaken) 31 link s (exec (.bgezal rs imm) s)

/-- Every control instruction, ERET among them, halts in a delay slot with its address and word, and no other instruction
ever answers that halt (40_execution_cycle.md R102, which speaks of the step; that the meanings make the check, log 16). -/
def Obligations.ControlInstructionsHaltInDelaySlots : Prop :=
  ∀ (i : Instr) (s : State),
    (i.isControl = true ↔
      i.mnemonic ∈ ["JR", "JALR", "J", "JAL", "BEQ", "BNE", "BLEZ", "BGTZ", "BLTZ", "BGEZ", "BLTZAL", "BGEZAL",
        "ERET"]) ∧
    (i.isControl = true → s.delay ≠ .none → exec i s = .fault (.branchInDelaySlot s.pc (encode i))) ∧
    (i.isControl = false → ∀ p w, exec i s ≠ .fault (.branchInDelaySlot p w))

/-- Every other instruction that completes ends at the sequential successor, a pending target if there is one, with no
delay left, unless it is an ADD, SUB or ADDI that traps on overflow (40_execution_cycle.md R101, R104). -/
def Obligations.OtherInstructionsEndAtTheSuccessor : Prop :=
  ∀ (i : Instr) (s t : State), i.isControl = false → exec i s = .next t →
    (t.delay = .none ∧ t.pc = (match s.delay with | .taken target => target | _ => s.pc + 4#32)) ∨
    (i.mnemonic ∈ ["ADD", "SUB", "ADDI"] ∧ TrapsOverflow s (exec i s))

/-- A J goes to its target after its delay slot's instruction completes without trapping, and no sooner
(42_control_transfer.md R166). -/
def Obligations.JumpTakesEffectAfterItsSlot : Prop :=
  ∀ (target : BitVec 26) (i : Instr) (s t u : State), s.delay = .none → exec (.j target) s = .next t →
    exec i t = .next u → ¬TrapsOverflow t (exec i t) →
    t.pc = s.pc + 4#32 ∧ u.pc = ((s.pc + 4#32) &&& 0xF0000000#32) ||| (target.setWidth 32 <<< 2)

/-! ## Memory -/

/-- RAM is tested first, then the cartridge's window by an unbounded subtraction, and every other address is unmapped
(20_memory.md R51). -/
def Obligations.AddressDecodeIsTotal : Prop :=
  ∀ (s : State) (a : Addr),
    let o : Int := a.toNat - s.cfg.cartridgeBase.toNat
    (a.toNat < s.cfg.ramSize → s.place a = some (.ram a.toNat)) ∧
    (s.cfg.ramSize ≤ a.toNat → 0 ≤ o → o < s.romSize → s.place a = some (.rom o.toNat)) ∧
    (s.cfg.ramSize ≤ a.toNat → ¬(0 ≤ o ∧ o < s.romSize) → s.place a = none)

/-- A word written to RAM reads back, and a cartridge's words read as its bytes, big-endian (20_memory.md R61). -/
def Obligations.WordsReadBackAndRomReadsTheCartridge : Prop :=
  (∀ (s : State) (a : Addr) (v : Word), s.ram.wf → a.toNat % 4 = 0 → a.toNat < s.cfg.ramSize →
    ∃ t, s.memWrite a .word v = .ok t ∧ t.readWord a = .ok v) ∧
  (∀ (s : State) (bytes : List Byte) (o : Nat), s.cfg.wellFormed = true → cartridgeOk s.cfg bytes = true →
    o % 4 = 0 → o < bytes.length →
    (s.loadCartridge bytes).readWord (s.cfg.cartridgeBase + BitVec.ofNat 32 o) =
      .ok (wordOfBytes (bytes.getD o 0) (bytes.getD (o + 1) 0) (bytes.getD (o + 2) 0) (bytes.getD (o + 3) 0)))

/-- After a word is written to RAM, byte and halfword reads see its parts, the most significant at the lowest address; a
byte write changes exactly one byte (20_memory.md R60). -/
def Obligations.MixedWidthViewsAreBigEndian : Prop :=
  ∀ (s : State) (a : Addr) (v : Word), s.ram.wf → s.cfg.ramSize % 4 = 0 → a.toNat < s.cfg.ramSize →
    (a.toNat % 4 = 0 →
      ∃ t, s.memWrite a .word v = .ok t ∧
        t.readByte a = .ok (BitVec.ofNat 8 (v.toNat / 2 ^ 24)) ∧
        t.readByte (a + 3#32) = .ok (BitVec.ofNat 8 v.toNat) ∧
        t.readHalf a = .ok (BitVec.ofNat 16 (v.toNat / 2 ^ 16)) ∧
        t.readHalf (a + 2#32) = .ok (BitVec.ofNat 16 v.toNat)) ∧
    (∃ t, s.memWrite a .byte v = .ok t ∧ t.readByte a = .ok (BitVec.ofNat 8 v.toNat) ∧ MemorySameOutside a 1 s t)

/-- LB and LBU load the byte at the effective address, sign- and zero-extended (44_load_store.md R186, R187). -/
def Obligations.LoadBytes : Prop :=
  ∀ (rt rs : Reg) (imm : Half) (s : State) (b : Byte),
    let ea : Addr := BitVec.ofInt 32 ((s.reg rs).toNat + imm.toInt)
    EncodedAs (.lb rt rs imm) 0xFC000000 0x80000000 ∧ EncodedAs (.lbu rt rs imm) 0xFC000000 0x90000000 ∧
    (s.byteAt ea = some b →
      WritesRegister rt (BitVec.ofInt 64 b.toInt) s (exec (.lb rt rs imm) s) ∧
      WritesRegister rt (BitVec.ofNat 64 b.toNat) s (exec (.lbu rt rs imm) s)) ∧
    (s.byteAt ea = none →
      exec (.lb rt rs imm) s = .fault (.addressError ea) ∧ exec (.lbu rt rs imm) s = .fault (.addressError ea))

/-- LH and LHU load the big-endian halfword at an even effective address, sign- and zero-extended
(44_load_store.md R188, R189). -/
def Obligations.LoadHalves : Prop :=
  ∀ (rt rs : Reg) (imm : Half) (s : State) (b0 b1 : Byte), s.RegionsAligned →
    let ea : Addr := BitVec.ofInt 32 ((s.reg rs).toNat + imm.toInt)
    EncodedAs (.lh rt rs imm) 0xFC000000 0x84000000 ∧ EncodedAs (.lhu rt rs imm) 0xFC000000 0x94000000 ∧
    (ea.toNat % 2 = 0 → s.byteAt ea = some b0 → s.byteAt (ea + 1#32) = some b1 →
      WritesRegister rt (BitVec.ofInt 64 (b0.toInt * 256 + b1.toNat)) s (exec (.lh rt rs imm) s) ∧
      WritesRegister rt (BitVec.ofNat 64 (b0.toNat * 256 + b1.toNat)) s (exec (.lhu rt rs imm) s)) ∧
    (ea.toNat % 2 ≠ 0 →
      exec (.lh rt rs imm) s = .fault (.alignmentError ea) ∧ exec (.lhu rt rs imm) s = .fault (.alignmentError ea)) ∧
    (ea.toNat % 2 = 0 → s.byteAt ea = none →
      exec (.lh rt rs imm) s = .fault (.addressError ea) ∧ exec (.lhu rt rs imm) s = .fault (.addressError ea))

/-- LW loads the big-endian word at a 4-aligned effective address, sign-extended to 64 bits (44_load_store.md R190). -/
def Obligations.LoadWords : Prop :=
  ∀ (rt rs : Reg) (imm : Half) (s : State) (b0 b1 b2 b3 : Byte), s.RegionsAligned →
    let ea : Addr := BitVec.ofInt 32 ((s.reg rs).toNat + imm.toInt)
    EncodedAs (.lw rt rs imm) 0xFC000000 0x8C000000 ∧
    (ea.toNat % 4 = 0 → s.byteAt ea = some b0 → s.byteAt (ea + 1#32) = some b1 → s.byteAt (ea + 2#32) = some b2 →
      s.byteAt (ea + 3#32) = some b3 →
      WritesRegister rt (BitVec.ofInt 64 (b0.toInt * 2 ^ 24 + b1.toNat * 2 ^ 16 + b2.toNat * 2 ^ 8 + b3.toNat)) s
        (exec (.lw rt rs imm) s)) ∧
    (ea.toNat % 4 ≠ 0 → exec (.lw rt rs imm) s = .fault (.alignmentError ea)) ∧
    (ea.toNat % 4 = 0 → s.byteAt ea = none → exec (.lw rt rs imm) s = .fault (.addressError ea))

/-- SB puts the low byte of rt at the effective address in RAM and changes no other byte, changes nothing where the address
lies in the cartridge, and halts where it is unmapped (44_load_store.md R191). -/
def Obligations.StoreBytes : Prop :=
  ∀ (rt rs : Reg) (imm : Half) (s : State), s.ram.wf →
    let ea := effectiveAddr (s.reg rs) imm
    let v := (s.reg rt).toNat
    EncodedAs (.sb rt rs imm) 0xFC000000 0xA0000000 ∧ ea = BitVec.ofInt 32 ((s.reg rs).toNat + imm.toInt) ∧
    (ea.toNat < s.cfg.ramSize → StoresBytes ea [BitVec.ofNat 8 v] s (exec (.sb rt rs imm) s)) ∧
    (InCartridge s ea → ChangesNothing s (exec (.sb rt rs imm) s)) ∧
    (s.byteAt ea = none → exec (.sb rt rs imm) s = .fault (.addressError ea))

/-- SH puts the low halfword of rt, big-endian, at an even effective address in RAM and changes no other byte, changes
nothing in the cartridge, and halts on an odd address first and on an unmapped one (44_load_store.md R192). -/
def Obligations.StoreHalves : Prop :=
  ∀ (rt rs : Reg) (imm : Half) (s : State), s.RegionsAligned → s.ram.wf →
    let ea := effectiveAddr (s.reg rs) imm
    let v := (s.reg rt).toNat
    EncodedAs (.sh rt rs imm) 0xFC000000 0xA4000000 ∧ ea = BitVec.ofInt 32 ((s.reg rs).toNat + imm.toInt) ∧
    (ea.toNat % 2 = 0 → ea.toNat < s.cfg.ramSize →
      StoresBytes ea [BitVec.ofNat 8 (v / 2 ^ 8), BitVec.ofNat 8 v] s (exec (.sh rt rs imm) s)) ∧
    (ea.toNat % 2 = 0 → InCartridge s ea → ChangesNothing s (exec (.sh rt rs imm) s)) ∧
    (ea.toNat % 2 ≠ 0 → exec (.sh rt rs imm) s = .fault (.alignmentError ea)) ∧
    (ea.toNat % 2 = 0 → s.byteAt ea = none → exec (.sh rt rs imm) s = .fault (.addressError ea))

/-- SW puts the low word of rt, big-endian, at a 4-aligned effective address in RAM and changes no other byte, changes
nothing in the cartridge, and halts on a misaligned address first and on an unmapped one (44_load_store.md R193). -/
def Obligations.StoreWords : Prop :=
  ∀ (rt rs : Reg) (imm : Half) (s : State), s.RegionsAligned → s.ram.wf →
    let ea := effectiveAddr (s.reg rs) imm
    let v := (s.reg rt).toNat
    EncodedAs (.sw rt rs imm) 0xFC000000 0xAC000000 ∧ ea = BitVec.ofInt 32 ((s.reg rs).toNat + imm.toInt) ∧
    (ea.toNat % 4 = 0 → ea.toNat < s.cfg.ramSize →
      StoresBytes ea
        [BitVec.ofNat 8 (v / 2 ^ 24), BitVec.ofNat 8 (v / 2 ^ 16), BitVec.ofNat 8 (v / 2 ^ 8), BitVec.ofNat 8 v] s
        (exec (.sw rt rs imm) s)) ∧
    (ea.toNat % 4 = 0 → InCartridge s ea → ChangesNothing s (exec (.sw rt rs imm) s)) ∧
    (ea.toNat % 4 ≠ 0 → exec (.sw rt rs imm) s = .fault (.alignmentError ea)) ∧
    (ea.toNat % 4 = 0 → s.byteAt ea = none → exec (.sw rt rs imm) s = .fault (.addressError ea))

/-- A word stored to the address right after the store is the word the next step fetches (20_memory.md R72). -/
def Obligations.StoresAreSeenByTheNextFetch : Prop :=
  ∀ (rt rs : Reg) (imm : Half) (s : State), s.ram.wf → s.delay = .none →
    effectiveAddr (s.reg rs) imm = s.pc + 4#32 → (s.pc + 4#32).toNat % 4 = 0 →
    (s.pc + 4#32).toNat < s.cfg.ramSize →
    ∃ t, exec (.sw rt rs imm) s = .next t ∧ t.pc = s.pc + 4#32 ∧ t.readWord t.pc = .ok (s.low rt)

/-! ## Coprocessor 0 -/

/-- MFC0 of Status, Cause or EPC loads it sign-extended (45_coprocessor0.md R204). -/
def Obligations.Mfc0ReadsCp0 : Prop :=
  ∀ (rt rd : Reg) (s : State),
    EncodedAs (.mfc0 rt rd) 0xFFE007FF 0x40000000 ∧
    WritesRegister rt (BitVec.ofInt 64 s.status.toInt) s (exec (.mfc0 rt 12) s) ∧
    WritesRegister rt (BitVec.ofInt 64 s.cause.toInt) s (exec (.mfc0 rt 13) s) ∧
    WritesRegister rt (BitVec.ofInt 64 s.epc.toInt) s (exec (.mfc0 rt 14) s)

/-- MTC0 writes the implemented bits of Status, the IP bits of Cause, or all of EPC, and nothing else
(45_coprocessor0.md R205). -/
def Obligations.Mtc0WritesCp0 : Prop :=
  ∀ (rt rd : Reg) (s : State),
    EncodedAs (.mtc0 rt rd) 0xFFE007FF 0x40800000 ∧
    (∃ t, exec (.mtc0 rt 12) s = .next t ∧
      (∀ k, t.status.getLsbD k = ((s.low rt).getLsbD k && (k == 0 || k == 1 || (8 ≤ k && k ≤ 15)))) ∧
      t.cause = s.cause ∧ t.epc = s.epc ∧ RegsSame s t ∧ MemorySame s t ∧ RestSame s t ∧ EndsPlain s t) ∧
    (∃ t, exec (.mtc0 rt 13) s = .next t ∧
      (∀ k, t.cause.getLsbD k = if 8 ≤ k ∧ k ≤ 15 then (s.low rt).getLsbD k else s.cause.getLsbD k) ∧
      t.status = s.status ∧ t.epc = s.epc ∧ RegsSame s t ∧ MemorySame s t ∧ RestSame s t ∧ EndsPlain s t) ∧
    (∃ t, exec (.mtc0 rt 14) s = .next t ∧ t.epc = s.low rt ∧
      t.status = s.status ∧ t.cause = s.cause ∧ RegsSame s t ∧ MemorySame s t ∧ RestSame s t ∧ EndsPlain s t)

/-- MFC0 and MTC0 of any other number halt as an unsupported word in Strict mode and are logged no-ops in Permissive mode
(45_coprocessor0.md R202; the log's events as outputs, log 12; the word, log 17). -/
def Obligations.AbsentCp0RegistersAreUnsupported : Prop :=
  ∀ (rt n : Reg) (s : State), n ≠ 12 → n ≠ 13 → n ≠ 14 →
    (s.cfg.mode = .strict →
      exec (.mfc0 rt n) s = .fault (.unsupportedOpcode s.pc (encode (.mfc0 rt n))) ∧
      exec (.mtc0 rt n) s = .fault (.unsupportedOpcode s.pc (encode (.mtc0 rt n)))) ∧
    (s.cfg.mode = .permissive →
      LoggedNoOp (encode (.mfc0 rt n)) s (exec (.mfc0 rt n) s) ∧
      LoggedNoOp (encode (.mtc0 rt n)) s (exec (.mtc0 rt n) s))

/-- ERET clears EXL and goes to EPC where EPC is a multiple of 4, with no delay slot, and halts otherwise; in a delay slot
it halts (45_coprocessor0.md R206). -/
def Obligations.EretReturnsOrHalts : Prop :=
  ∀ s : State,
    encode .eret = 0x42000018#32 ∧ decode 0x42000018#32 = some .eret ∧
    (s.delay = .none → s.epc.toNat % 4 = 0 →
      ∃ t, exec .eret s = .next t ∧ t.pc = s.epc ∧ t.delay = .none ∧
        (∀ k, t.status.getLsbD k = if k = 1 then false else s.status.getLsbD k) ∧ t.cause = s.cause ∧ t.epc = s.epc ∧
        RegsSame s t ∧ MemorySame s t ∧ RestSame s t) ∧
    (s.delay = .none → s.epc.toNat % 4 ≠ 0 → exec .eret s = .fault (.alignmentError s.epc)) ∧
    (s.delay ≠ .none → exec .eret s = .fault (.branchInDelaySlot s.pc 0x42000018#32))

/-- No instruction but MTC0, ERET and one that traps on overflow changes Status, Cause or EPC (10_state.md R34;
45_coprocessor0.md R207). -/
def Obligations.OnlyMtc0EretAndTrapsWriteCp0 : Prop :=
  ∀ (i : Instr) (s t : State), exec i s = .next t → ¬Cp0Same s t →
    i.mnemonic ∈ ["MTC0", "ERET"] ∨ (i.mnemonic ∈ ["ADD", "SUB", "ADDI"] ∧ TrapsOverflow s (exec i s))

/-! ## Exceptions and interrupts -/

/-- Trap entry writes EPC and Cause.BD only where EXL was 0, ExcCode and EXL always, and pc and delay; it writes nothing
else (60_exceptions.md R214). -/
def Obligations.TrapEntrySavesAndRedirects : Prop :=
  ∀ (s : State) (code : BitVec 5) (resume : Addr) (inDS : Bool),
    let t := s.trapEntry code resume inDS
    (statusEXL s.status = false →
      t.epc = (if inDS then s.pc - 4#32 else resume) ∧ causeBD t.cause = inDS) ∧
    (statusEXL s.status = true → t.epc = s.epc ∧ causeBD t.cause = causeBD s.cause) ∧
    causeExcCode t.cause = code ∧ statusEXL t.status = true ∧ t.pc = s.cfg.exceptionVector ∧ t.delay = .none ∧
    (∀ k, k ≠ 1 → t.status.getLsbD k = s.status.getLsbD k) ∧
    (∀ k, k ≠ 31 → ¬(2 ≤ k ∧ k ≤ 6) → t.cause.getLsbD k = s.cause.getLsbD k) ∧
    RegsSame s t ∧ MemorySame s t ∧ RestSame s t

/-- A trap taken with EXL = 0 outside a delay slot, then ERET: pc and Status are what they were
(60_exceptions.md R217). -/
def Obligations.TrapThenEretReturns : Prop :=
  ∀ (s : State) (code : BitVec 5), statusEXL s.status = false → s.pc.toNat % 4 = 0 →
    ∃ t, exec .eret (s.trapEntry code s.pc false) = .next t ∧ t.pc = s.pc ∧ t.delay = .none ∧ t.status = s.status ∧
      RegsSame s t ∧ MemorySame s t ∧ RestSame s t

/-- A pending and enabled interrupt is taken at a step that is not in a delay slot: code 0, EPC at pc, nothing executed, one
step counted (40_execution_cycle.md R105; 60_exceptions.md R218; whose turn it is, log 7). -/
def Obligations.InterruptIsTakenBeforeTheFetch : Prop :=
  ∀ (s : State) (k : Nat), ProcessorsTurn s k → s.delay = .none → statusIE s.status = true →
    statusEXL s.status = false → causeIP s.cause &&& statusIM s.status ≠ 0 →
    ∃ t, step s = .next t ∧ causeExcCode t.cause = 0 ∧ causeBD t.cause = false ∧ causeIP t.cause = causeIP s.cause ∧
      statusEXL t.status = true ∧ statusIE t.status = true ∧ statusIM t.status = statusIM s.status ∧ t.epc = s.pc ∧
      t.pc = s.cfg.exceptionVector ∧ t.delay = .none ∧ RegsSame s t ∧ MemorySame s t ∧
      t.phase = (if k + 1 < s.cfg.insnBudget then .processor (k + 1) else .signal) ∧
      RestSame { s with phase := t.phase } t

/-! ## The step -/

/-- At the processor's turn, where no interrupt is taken, a step runs the instruction the word at pc decodes to: the next
state of exec with the step counted, or the halt of exec recorded (40_execution_cycle.md R103, R106; logs 7, 8 and 21). -/
def Obligations.StepRunsTheDecodedInstruction : Prop :=
  ∀ (s : State) (k : Nat) (w : Word) (i : Instr), ProcessorsTurn s k → NoInterrupt s → s.readWord s.pc = .ok w →
    decode w = some i →
    (∀ t, exec i s = .next t → step s = .next t.countStep) ∧
    (∀ f, exec i s = .fault f →
      step s = .next { s with loop := .stopped, stopReason := .halted f, phase := .processor 0 })

/-- Where no interrupt is taken, a fetch from an unmapped address halts, and a word that is no instruction halts in Strict
mode and is a logged no-op in Permissive mode, a pending redirect included (30_encoding.md R92; 40_execution_cycle.md R100,
R109; the log's events as outputs, log 12). -/
def Obligations.FetchAndDecodeFailures : Prop :=
  ∀ s : State, NoInterrupt s → s.pc.toNat % 4 = 0 →
    (s.byteAt s.pc = none → processorStep s = .fault (.addressError s.pc)) ∧
    (∀ w, s.readWord s.pc = .ok w → decode w = none →
      (s.cfg.mode = .strict → processorStep s = .fault (.unsupportedOpcode s.pc w)) ∧
      (s.cfg.mode = .permissive → LoggedNoOp w s (processorStep s)))

/-- A halt at any processor step of a macro-step, requests held or not, stops the loop with its reason and changes nothing
else; started again at once with no request held, the machine halts again with the same reason at the same pc and delay
state (40_execution_cycle.md R108; 80_step_loop_and_snapshot.md R263, R267; the model's phase, logs 7, 8 and 21; the held
requests, log 11). -/
def Obligations.HaltStopsTheLoopAndRestartRepeatsIt : Prop :=
  ∀ (s : State) (k : Nat) (f : Fault), ProcessorsTurn s k → processorStep s = .fault f →
    let t : State := { s with loop := .stopped, stopReason := .halted f, phase := .processor 0 }
    step s = .next t ∧
    (s.requests = [] →
      ∃ u, stepsFrom 2 (t.issue .start) = some u ∧ u.loop = .stopped ∧ u.stopReason = .halted f ∧ u.pc = s.pc ∧
        u.delay = s.delay ∧ RegsSame s u ∧ Cp0Same s u ∧ MemorySame s u)

/-- An instruction changes no state but the processor's and RAM: the configuration, the cartridge, the coprocessors, the
controllers, the StepLoop and the host's queue stay, and it emits at most one log event, Unsupported of its address and its
word (40_execution_cycle.md R104, R107; the event, 30_encoding.md R92, 40_execution_cycle.md R109, 45_coprocessor0.md R202;
the model's phase and outputs, logs 7 and 12; the event's word, log 17). -/
def Obligations.InstructionsLeaveTheRestAlone : Prop :=
  ∀ (i : Instr) (s t : State), exec i s = .next t →
    RestSame { s with outputs := t.outputs } t ∧
    (t.outputs = s.outputs ∨ t.outputs = s.outputs ++ [.unsupported s.pc (encode i)])

/-! ## The StepLoop, the coprocessors and the host -/

/-- A macro-step is up to INSN_BUDGET processor steps, then the signal coprocessor, then the display coprocessor, then the
yield, then the boundary (80_step_loop_and_snapshot.md R260, R261; one step for each turn, log 7). -/
def Obligations.MacroStepPhasesInOrder : Prop :=
  ∀ s : State, s.cfg.wellFormed = true → s.loop = .running →
    (∀ k t, ProcessorsTurn s k → processorStep s = .next t →
      ∃ u, step s = .next u ∧ u = { t with phase := u.phase } ∧
        u.phase = if k + 1 < s.cfg.insnBudget then .processor (k + 1) else .signal) ∧
    (s.phase = .signal → step s = .next { s.spStep with phase := .display }) ∧
    (s.phase = .display → step s = .next { s.renderIfReady with phase := .collaborators }) ∧
    (s.phase = .collaborators → step s = .next { s.yieldPhase with phase := .processor 0 })

/-- The signal coprocessor's phase, whatever SP_PROCESS does: nothing where READY is 0; else READY ends 0, Cause.IP[2] 1,
RAM else is as the task's writes leave it, the PCM batch is emitted, display commands set the display's pending bit, and no
general register, pc, delay, Status, EPC, cartridge or other state changes (60_exceptions.md R223, R224; logs 3, 4, 12). -/
def Obligations.SignalCoprocessorPhase : Prop :=
  ∀ (process : SpProcess) (s : State), s.ram.wf →
    let task := process s.sp.image s.ram.cells (s.mailboxWord 4) (s.mailboxWord 8)
    let t := s.spStepWith process
    (s.mailboxWord 0 = 0 → t = s) ∧
    (s.mailboxWord 0 ≠ 0 →
      t.mailboxWord 0 = 0 ∧ (∀ k, t.cause.getLsbD k = (s.cause.getLsbD k || k == 10)) ∧
      (∀ o, o < s.cfg.mailboxAddr.toNat ∨ s.cfg.mailboxAddr.toNat + 4 ≤ o →
        t.ram.read o = (spWrites s.cfg.ramSize s.ram task.ramWrites).read o) ∧
      t.sp = (if Config.spImageOk task.image then { image := task.image } else s.sp) ∧
      t.outputs = s.outputs ++ [.pcm task.pcm] ∧ (t.dp.pending = true ↔ task.dpCommands = true ∨ s.dp.pending = true) ∧
      t.dp.pixels = s.dp.pixels ∧ t.dp.image = s.dp.image ∧ t.ram.wf ∧
      (s.ram.below s.cfg.ramSize → s.cfg.mailboxAddr.toNat + 4 ≤ s.cfg.ramSize → t.ram.below s.cfg.ramSize) ∧
      RegsSame s t ∧ t.pc = s.pc ∧ t.delay = s.delay ∧ t.status = s.status ∧ t.epc = s.epc ∧
      RestSame { s with sp := t.sp, dp := t.dp, outputs := t.outputs } t)

/-- The display coprocessor's phase, whatever DP_RENDER does: nothing where no command is pending; else the pending bit is
cleared, the pixels are the frame's where it has the buffer's size, the opaque part is the frame's where it is one
DP_ENCODE produces, the buffer keeps its size, and nothing but the display coprocessor changes. The yield phase overwrites
controller records only: their number stays, and a record the input provider gives stands in its place
(80_step_loop_and_snapshot.md R262, R268; logs 3, 5 and 13). -/
def Obligations.DisplayAndYieldPhases : Prop :=
  ∀ (render : DpRender) (s : State),
    let frame := render s.dp.pending s.dp.pixels s.dp.image s.ram.cells
    let t := s.renderWith render
    (s.dp.pending = false → t = s) ∧
    (s.dp.pending = true →
      t.dp.pending = false ∧ t.dp.pixels.length = s.cfg.pixelBytes ∧
      (frame.pixels.length = s.cfg.pixelBytes → t.dp.pixels = frame.pixels) ∧
      t.dp.image = (if Config.dpImageOk frame.image then frame.image else s.dp.image) ∧ t = { s with dp := t.dp }) ∧
    s.yieldPhase = { s with ctrl := s.yieldPhase.ctrl, inputs := s.yieldPhase.inputs } ∧
    s.yieldPhase.ctrl.length = s.ctrl.length ∧
    (∀ given rest k, s.inputs = given :: rest → k < s.ctrl.length →
      s.yieldPhase.inputs = rest ∧
      s.yieldPhase.ctrl[k]? = if k < given.length then given[k]? else s.ctrl[k]?)

/-- A held request acts at a boundary and nowhere else: at a boundary the first one is carried out before anything else,
and inside a macro-step a step leaves the held requests as they are (80_step_loop_and_snapshot.md R271; logs 7, 11 and 21). -/
def Obligations.RequestsActOnlyAtBoundaries : Prop :=
  ∀ s : State, s.cfg.wellFormed = true →
    (∀ r rest, s.requests = r :: rest → (s.loop ≠ .running ∨ s.phase = .processor 0) →
      step s = .next (({ s with requests := rest } : State).applyRequest r)) ∧
    (∀ t, s.loop = .running → s.phase ≠ .processor 0 → step s = .next t → t.requests = s.requests)

/-- The StepLoop's transitions by request, with the requests that are ignored, and no step while Stopped or Paused
(80_step_loop_and_snapshot.md R264, R265; the idle step, log 9; the replies as outputs, log 12). -/
def Obligations.LoopTransitions : Prop :=
  ∀ s : State,
    s.applyRequest .start =
      (if s.loop = .stopped then ({ s with loop := .running, stopReason := .none } : State).reply .done
       else s.reply .ignored) ∧
    s.applyRequest .pause =
      (if s.loop = .running then ({ s with loop := .paused } : State).reply .done else s.reply .ignored) ∧
    s.applyRequest .resume =
      (if s.loop = .paused then ({ s with loop := .running } : State).reply .done else s.reply .ignored) ∧
    s.applyRequest .stop =
      (if s.loop = .stopped then s.reply .ignored
       else ({ s with loop := .stopped, stopReason := .hostStop } : State).reply .done) ∧
    (s.cfg.wellFormed = true → s.loop ≠ .running → s.requests = [] → step s = .next s)

/-- reset() zeroes the registers, CP0, RAM, the pending bit, the pixels and the controllers, sets pc to ENTRY_VECTOR, and
leaves the cartridge, the loop and the stop reason (70_reset_and_hazards.md R240; the coprocessors' reset states as
images, logs 3 and 6). -/
def Obligations.ResetRequestResetsTheMachine : Prop :=
  ∀ s : State,
    let t := s.applyRequest .reset
    (∀ r, t.reg r = 0) ∧ t.pc = s.cfg.entryVector ∧ t.delay = .none ∧ t.status = 0 ∧ t.cause = 0 ∧ t.epc = 0 ∧
    (∀ a : Addr, a.toNat < s.cfg.ramSize → t.byteAt a = some 0) ∧
    (∀ a : Addr, s.cfg.ramSize ≤ a.toNat → t.byteAt a = s.byteAt a) ∧
    t.sp.image = Config.spResetImage ∧ t.dp.pending = false ∧ t.dp.image = Config.dpResetImage ∧
    t.dp.pixels = List.replicate (s.cfg.pixelWidth * s.cfg.pixelHeight * 4) 0 ∧
    t.ctrl = List.replicate s.cfg.numControllers { buttons := 0, axisX := 0, axisY := 0, connected := false } ∧
    t.cfg = s.cfg ∧ t.rom = s.rom ∧ t.romSize = s.romSize ∧ t.loop = s.loop ∧ t.stopReason = s.stopReason

/-- A cartridge load maps the whole stream where its length is right, and changes nothing but the reply otherwise
(20_memory.md R66; the replies as outputs, log 12). -/
def Obligations.CartridgeLoadMapsTheStream : Prop :=
  ∀ (s : State) (bytes : List Byte), s.cfg.wellFormed = true →
    let good := bytes.length % 4 = 0 ∧ s.cfg.headerSize ≤ bytes.length ∧
      s.cfg.cartridgeBase.toNat + bytes.length ≤ 2 ^ 32
    (good →
      (∀ o, o < bytes.length →
        (s.applyRequest (.loadCartridge bytes)).byteAt (s.cfg.cartridgeBase + BitVec.ofNat 32 o) =
          some (bytes.getD o 0)) ∧
      (∀ a : Addr, a.toNat < s.cfg.ramSize → (s.applyRequest (.loadCartridge bytes)).byteAt a = s.byteAt a) ∧
      ∃ m, s.applyRequest (.loadCartridge bytes) =
        { s with rom := m, romSize := bytes.length, outputs := s.outputs ++ [.reply .done] }) ∧
    (¬good →
      s.applyRequest (.loadCartridge bytes) = { s with outputs := s.outputs ++ [.reply .invalidCartridge] })

/-- A cheat writes one aligned word of RAM, big-endian, or fails and changes nothing but the reply
(80_step_loop_and_snapshot.md R274; the replies as outputs, log 12). -/
def Obligations.CheatWritesOneRamWord : Prop :=
  ∀ (s : State) (address value : Word), s.ram.wf →
    let t := s.applyRequest (.applyCheat address value)
    (address.toNat % 4 = 0 → address.toNat + 4 ≤ s.cfg.ramSize →
      t.readWord address = .ok value ∧ MemorySameOutside address 4 s t ∧
      t = { s with ram := t.ram, outputs := s.outputs ++ [.reply .done] }) ∧
    (¬(address.toNat % 4 = 0 ∧ address.toNat + 4 ≤ s.cfg.ramSize) →
      t = { s with outputs := s.outputs ++ [.reply .invalidAddress] })

/-- A save changes nothing but the reply, which is the snapshot; a load of that snapshot restores every piece of state, with
an omitted pixel buffer read as zeros (80_step_loop_and_snapshot.md R275 to R282; the coprocessors' states as their images,
log 3; the replies as outputs, log 12; lengths a u32 can say, log 18; the model's phase, requests, inputs and outputs, which
a load leaves alone, log 22). -/
def Obligations.SaveThenLoadRestoresTheState : Prop :=
  ∀ (s : State) (includePixels : Bool),
    s.applyRequest (.save includePixels) =
      { s with outputs := s.outputs ++ [.reply (.snapshot (s.snapshot includePixels))] } ∧
    (s.Inv → SnapshotFits s →
      s.loadSnapshot (s.snapshot includePixels) =
        some (if includePixels then s
          else { s with dp := { s.dp with pixels := List.replicate s.cfg.pixelBytes 0 } }))

/-- A load request that fails changes nothing but the reply; one that succeeds installs the loaded state with the reply. The
loaded state keeps the invariant and leaves the cartridge, the loop, the stop reason and the held requests, and the stream
is one of the two snapshots of that state and nothing else: its header is MAGIC, SNAPSHOT_VERSION and 5, and no byte of a
section is free (80_step_loop_and_snapshot.md R278 to R281, R283; logs 3 and 12; the held requests, which those rules do not
name, log 22). -/
def Obligations.LoadedStatesKeepTheInvariant : Prop :=
  ∀ (s : State) (stream : List Byte), s.Inv →
    (s.loadSnapshot stream = none →
      s.applyRequest (.load stream) = { s with outputs := s.outputs ++ [.reply .corruptState] }) ∧
    (∀ t, s.loadSnapshot stream = some t →
      s.applyRequest (.load stream) = { t with outputs := s.outputs ++ [.reply .done] } ∧
      (∃ rest, stream =
        bytesOfWord 0x45363453#32 ++ bytesOfWord s.cfg.snapshotVersion ++ bytesOfWord 5#32 ++ rest) ∧
      (∃ includePixels, stream = t.snapshot includePixels) ∧
      t.Inv ∧ t.cfg = s.cfg ∧ t.rom = s.rom ∧ t.romSize = s.romSize ∧ t.loop = s.loop ∧
      t.stopReason = s.stopReason ∧ t.requests = s.requests)

/-! ## Invariants -/

/-- No step changes the configuration, and none but a cartridge load at a boundary changes the cartridge
(00_scope.md R5, 20_memory.md R67; the configuration as data, log 1; the boundary and the held request, logs 7, 11 and
21). -/
def Obligations.OnlyCartridgeLoadsChangeTheRom : Prop :=
  ∀ s t : State, step s = .next t →
    t.cfg = s.cfg ∧
    ((∃ bytes rest, s.requests = .loadCartridge bytes :: rest ∧ (s.loop ≠ .running ∨ s.phase = .processor 0)) ∨
      (t.rom = s.rom ∧ t.romSize = s.romSize))

/-- The invariant holds at construction under every configuration that keeps its constraints, at State.reset, and after a
host's request or an input arrives (70_reset_and_hazards.md R241; State.reset's configuration, log 2; the model's own forms,
logs 3, 7, 11, 13 and 14). -/
def Obligations.InvariantHoldsAtConstruction : Prop :=
  (∀ c : Config, c.wellFormed = true → (State.construct c).Inv) ∧ State.reset.Inv ∧
  (∀ (s : State) (r : HostRequest), s.Inv → (s.issue r).Inv) ∧
  (∀ (s : State) (records : List Controller), s.Inv → (s.provideInput records).Inv)

/-- Every step keeps the invariant: registers sign-extended, register 0 zero, pc and a pending target aligned, the reserved
bits of Status and Cause zero, memory canonical and inside its region, the coprocessors' and controllers' shapes, the
StepLoop at rest only at a boundary (10_state.md R21 to R25, R31, R32, R36, R37; the model's own forms, logs 3, 7, 14 and
21). -/
def Obligations.StepKeepsTheInvariant : Prop := ∀ s t : State, s.Inv → step s = .next t → t.Inv

/-- A step is refused exactly under a configuration that breaks a constraint (00_scope.md R5: "refused, not run"; log 10);
under every other it answers a next state, a halt and a step at rest among them (logs 8 and 9). -/
def Obligations.OnlyBadConfigurationsAreRefused : Prop :=
  ∀ s : State,
    (s.cfg.wellFormed = false → step s = .refused .invalidConfiguration) ∧
    (s.cfg.wellFormed = true → ∃ t, step s = .next t)
end

