-- ==== Sys2Proof/Laws/Memory.lean ====
section
/-! SUPPORT. The laws of the canonical memory: a read after a write, the canonical form kept by every operation, and two
canonical memories that read alike are equal. -/

namespace Sys2Proof.Machine

/-! ## Cells -/

/-- The canonical form of a list of cells. -/
abbrev cellsWf (cs : List Host.Cell) : Prop := cs.Pairwise (fun c d => c.1 < d.1) ∧ ∀ c ∈ cs, c.2 ≠ 0

theorem readCells_of_lt {cs : List Host.Cell} {a : Nat} (h : ∀ c ∈ cs, a < c.1) : readCells cs a = 0 := by
  induction cs with
  | nil => rfl
  | cons c cs ih =>
    have hc : a < c.1 := h c (by simp)
    have : a ≠ c.1 := by omega
    simp [readCells, this, ih fun d hd => h d (by simp [hd])]

theorem readCells_consCell (k : Nat) (b : Byte) {cs : List Host.Cell} (h : ∀ c ∈ cs, k < c.1) (a : Nat) :
    readCells (consCell k b cs) a = if a = k then b else readCells cs a := by
  unfold consCell
  split
  · split
    · subst_vars; exact readCells_of_lt h
    · rfl
  · rfl

theorem cellsWf_cons {c : Host.Cell} {cs : List Host.Cell} :
    cellsWf (c :: cs) ↔ (∀ d ∈ cs, c.1 < d.1) ∧ c.2 ≠ 0 ∧ cellsWf cs := by
  simp only [cellsWf, List.pairwise_cons, List.mem_cons, forall_eq_or_imp]
  tauto

theorem cellsWf_consCell {k : Nat} {b : Byte} {cs : List Host.Cell} (h : ∀ c ∈ cs, k < c.1) (w : cellsWf cs) :
    cellsWf (consCell k b cs) := by
  unfold consCell
  split
  · exact w
  · exact cellsWf_cons.2 ⟨h, by assumption, w⟩

theorem mem_consCell {k : Nat} {b : Byte} {cs : List Host.Cell} {c : Host.Cell} (h : c ∈ consCell k b cs) :
    c = (k, b) ∨ c ∈ cs := by
  unfold consCell at h
  split at h
  · exact .inr h
  · simpa using h

theorem mem_writeCells {cs : List Host.Cell} {a : Nat} {b : Byte} {c : Host.Cell} (h : c ∈ writeCells cs a b) :
    c = (a, b) ∨ c ∈ cs := by
  induction cs with
  | nil => exact mem_consCell h
  | cons d cs ih =>
    unfold writeCells at h
    split at h
    · exact mem_consCell h
    · split at h
      · rcases mem_consCell h with h | h
        · exact .inl h
        · exact .inr (by simp [h])
      · rcases List.mem_cons.1 h with h | h
        · exact .inr (by simp [h])
        · rcases ih h with h | h
          · exact .inl h
          · exact .inr (by simp [h])

theorem cellsWf_writeCells {cs : List Host.Cell} (w : cellsWf cs) (a : Nat) (b : Byte) :
    cellsWf (writeCells cs a b) := by
  induction cs with
  | nil => exact cellsWf_consCell (by simp) w
  | cons d cs ih =>
    obtain ⟨hd, hz, hw⟩ := cellsWf_cons.1 w
    unfold writeCells
    split
    · refine cellsWf_consCell (fun c hc => ?_) w
      rcases List.mem_cons.1 hc with rfl | hc
      · assumption
      · have := hd c hc; omega
    · split
      · refine cellsWf_consCell (fun c hc => ?_) hw
        have := hd c hc; omega
      · refine cellsWf_cons.2 ⟨fun c hc => ?_, hz, ih hw⟩
        rcases mem_writeCells hc with rfl | hc
        · show d.1 < a; omega
        · exact hd c hc

theorem readCells_writeCells {cs : List Host.Cell} (w : cellsWf cs) (a : Nat) (b : Byte) (x : Nat) :
    readCells (writeCells cs a b) x = if x = a then b else readCells cs x := by
  induction cs with
  | nil => exact readCells_consCell a b (by simp) x
  | cons d cs ih =>
    obtain ⟨hd, -, hw⟩ := cellsWf_cons.1 w
    unfold writeCells
    split
    · refine readCells_consCell a b (fun c hc => ?_) x
      rcases List.mem_cons.1 hc with rfl | hc
      · assumption
      · have := hd c hc; omega
    · split
      · rw [readCells_consCell a b (fun c hc => by have := hd c hc; omega) x]
        subst_vars
        by_cases hx : x = d.1 <;> simp [readCells, hx]
      · simp only [readCells, ih hw]
        by_cases hx : x = d.1 <;> by_cases hy : x = a <;> simp [hx, hy] <;> omega

theorem cellsWf_cellsOfBytes (k : Nat) (bs : List Byte) :
    cellsWf (cellsOfBytes k bs) ∧ ∀ c ∈ cellsOfBytes k bs, k ≤ c.1 ∧ c.1 < k + bs.length := by
  induction bs generalizing k with
  | nil => simp [cellsOfBytes, cellsWf]
  | cons b bs ih =>
    obtain ⟨w, hb⟩ := ih (k + 1)
    refine ⟨cellsWf_consCell (fun c hc => by have := hb c hc; omega) w, fun c hc => ?_⟩
    rcases mem_consCell hc with rfl | hc
    · simp
    · have := hb c hc; simp only [List.length_cons]; omega

theorem readCells_cellsOfBytes (k : Nat) (bs : List Byte) (i : Nat) :
    readCells (cellsOfBytes k bs) (k + i) = bs.getD i 0 := by
  induction bs generalizing k i with
  | nil => simp [cellsOfBytes, readCells]
  | cons b bs ih =>
    rw [cellsOfBytes, readCells_consCell k b
      (fun c hc => by have := (cellsWf_cellsOfBytes (k + 1) bs).2 c hc; omega)]
    cases i with
    | zero => simp
    | succ i =>
      have := ih (k + 1) i
      simp only [show k + (i + 1) = k + 1 + i by omega, show ¬ k + 1 + i = k by omega, if_false]
      simpa using this

/-- Two canonical lists that read alike are equal. -/
theorem cells_ext {cs ds : List Host.Cell} (wc : cellsWf cs) (wd : cellsWf ds)
    (h : ∀ a, readCells cs a = readCells ds a) : cs = ds := by
  induction cs generalizing ds with
  | nil =>
    cases ds with
    | nil => rfl
    | cons d ds =>
      have := h d.1
      simp only [readCells, if_true] at this
      exact absurd this.symm (cellsWf_cons.1 wd).2.1
  | cons c cs ih =>
    obtain ⟨hc, hcz, hcw⟩ := cellsWf_cons.1 wc
    cases ds with
    | nil =>
      have := h c.1
      simp only [readCells, if_true] at this
      exact absurd this hcz
    | cons d ds =>
      obtain ⟨hd, hdz, hdw⟩ := cellsWf_cons.1 wd
      have key : ∀ {e f : Host.Cell} {fs : List Host.Cell}, e.1 < f.1 → (∀ g ∈ fs, f.1 < g.1) →
          readCells (f :: fs) e.1 = 0 := fun {e f fs} he hf =>
        readCells_of_lt fun g hg => by
          rcases List.mem_cons.1 hg with rfl | hg
          · exact he
          · have := hf g hg; omega
      have hk : c.1 = d.1 := by
        rcases Nat.lt_trichotomy c.1 d.1 with hl | he | hl
        · have h1 := h c.1
          rw [key hl hd] at h1
          simp only [readCells, if_true] at h1
          exact absurd h1 hcz
        · exact he
        · have h1 := h d.1
          rw [key hl hc] at h1
          simp only [readCells, if_true] at h1
          exact absurd h1.symm hdz
      have hv : c.2 = d.2 := by
        have h1 := h c.1
        simpa [readCells, hk] using h1
      have htl : cs = ds := by
        refine ih hcw hdw fun a => ?_
        by_cases ha : a = c.1
        · rw [readCells_of_lt (a := a) (by simpa [ha] using hc), readCells_of_lt (a := a) (by simpa [ha, hk] using hd)]
        · have h1 := h a
          simpa [readCells, ha, ← hk] using h1
      rw [htl, Prod.ext hk hv]

/-! ## Memory -/

namespace Memory

variable {m : Memory}

@[simp] theorem read_zero (a : Nat) : Memory.zero.read a = 0 := rfl

theorem wf_zero : Memory.zero.wf := ⟨.nil, by simp [Memory.zero]⟩

theorem below_zero (n : Nat) : Memory.zero.below n := by simp [Memory.zero]

/-- A read after a write: the byte written at its own offset, the old byte elsewhere. -/
theorem read_write (w : m.wf) (a : Nat) (b : Byte) (x : Nat) :
    (m.write a b).read x = if x = a then b else m.read x :=
  readCells_writeCells w a b x

theorem wf_write (w : m.wf) (a : Nat) (b : Byte) : (m.write a b).wf := cellsWf_writeCells w a b

theorem below_write {n : Nat} (h : m.below n) {a : Nat} (ha : a < n) (b : Byte) : (m.write a b).below n := fun c hc => by
  rcases mem_writeCells hc with rfl | hc
  · exact ha
  · exact h c hc

theorem wf_writeBytes (w : m.wf) (a : Nat) (bs : List Byte) : (m.writeBytes a bs).wf := by
  induction bs generalizing m a with
  | nil => exact w
  | cons b bs ih => exact ih (wf_write w a b) (a + 1)

theorem below_writeBytes {n : Nat} (h : m.below n) {a : Nat} {bs : List Byte} (ha : a + bs.length ≤ n) :
    (m.writeBytes a bs).below n := by
  induction bs generalizing m a with
  | nil => exact h
  | cons b bs ih =>
    simp only [List.length_cons] at ha
    exact ih (below_write h (by omega) b) (by omega)

/-- Bytes written read back at their offsets; every other offset reads as before. -/
theorem read_writeBytes (w : m.wf) (a : Nat) (bs : List Byte) (x : Nat) :
    (m.writeBytes a bs).read x = if a ≤ x ∧ x < a + bs.length then bs.getD (x - a) 0 else m.read x := by
  induction bs generalizing m a with
  | nil => simp [Memory.writeBytes]
  | cons b bs ih =>
    rw [Memory.writeBytes, ih (wf_write w a b), read_write w]
    simp only [List.length_cons]
    by_cases h : x = a
    · subst h; simp
    · by_cases h2 : a + 1 ≤ x ∧ x < a + 1 + bs.length
      · rw [if_pos h2, if_pos (by omega)]
        obtain ⟨k, rfl⟩ : ∃ k, x = a + 1 + k := ⟨x - (a + 1), by omega⟩
        simp [show a + 1 + k - a = k + 1 by omega]
      · rw [if_neg h2, if_neg h, if_neg (by omega)]

theorem wf_ofBytes (bs : List Byte) : (Memory.ofBytes bs).wf := (cellsWf_cellsOfBytes 0 bs).1

theorem below_ofBytes (bs : List Byte) : (Memory.ofBytes bs).below bs.length := fun c hc => by
  have := (cellsWf_cellsOfBytes 0 bs).2 c hc; omega

theorem read_ofBytes (bs : List Byte) (i : Nat) : (Memory.ofBytes bs).read i = bs.getD i 0 := by
  have := readCells_cellsOfBytes 0 bs i
  simpa [Memory.read, Memory.ofBytes] using this

theorem read_of_below {n : Nat} (h : m.below n) {a : Nat} (ha : n ≤ a) : m.read a = 0 := by
  obtain ⟨cs⟩ := m
  simp only [Memory.read]
  induction cs with
  | nil => rfl
  | cons c cs ih =>
    have hc : c.1 < n := h c (by simp)
    have : a ≠ c.1 := by omega
    simp only [readCells, this, if_false]
    exact ih fun d hd => h d (by simp_all)

@[simp] theorem length_readBytes (a n : Nat) : (m.readBytes a n).length = n := by
  induction n generalizing a with
  | zero => rfl
  | succ n ih => simp [Memory.readBytes, ih]

theorem getD_readBytes (a n i : Nat) : (m.readBytes a n).getD i 0 = if i < n then m.read (a + i) else 0 := by
  induction n generalizing a i with
  | zero => simp [Memory.readBytes]
  | succ n ih =>
    cases i with
    | zero => simp [Memory.readBytes]
    | succ i =>
      have := ih (a + 1) i
      simp only [Memory.readBytes, List.getD_cons_succ, this, show a + 1 + i = a + (i + 1) by omega]
      simp

/-- Two canonical memories that read alike are equal. -/
theorem ext_of_read {m k : Memory} (wm : m.wf) (wk : k.wf) (h : ∀ a, m.read a = k.read a) : m = k := by
  obtain ⟨cs⟩ := m
  obtain ⟨ds⟩ := k
  exact congrArg Memory.mk (cells_ext wm wk h)

/-- A memory inside `n` bytes is the one its first `n` bytes give. -/
theorem ofBytes_readBytes {n : Nat} (w : m.wf) (h : m.below n) : Memory.ofBytes (m.readBytes 0 n) = m := by
  refine ext_of_read (wf_ofBytes _) w fun a => ?_
  rw [read_ofBytes, getD_readBytes]
  split
  · simp
  · exact (read_of_below h (by omega)).symm

end Memory

end Sys2Proof.Machine
end

