-- ==== Sys2Proof/Laws/Flags.lean ====
section
/-! SUPPORT. The fields of Status and Cause after each of their updates. -/

namespace Sys2Proof.Machine

/-- A field update bit by bit. -/
theorem getLsbD_withField (w mask v : Word) (i : Nat) :
    (withField w mask v).getLsbD i = if mask.getLsbD i then v.getLsbD i else w.getLsbD i := by
  by_cases hi : i < 32
  · simp only [withField, BitVec.getLsbD_or, BitVec.getLsbD_and, BitVec.getLsbD_not]
    cases mask.getLsbD i <;> simp [hi]
  · simp [withField, BitVec.getLsbD_of_ge, Nat.le_of_not_lt hi]

@[simp] theorem statusEXL_setEXL (w : Word) : statusEXL (setEXL w) = true := by
  rw [statusEXL, setEXL, getLsbD_withField]; simp

@[simp] theorem statusIE_setEXL (w : Word) : statusIE (setEXL w) = statusIE w := by
  rw [statusIE, setEXL, getLsbD_withField]; simp [statusIE]

@[simp] theorem statusIM_setEXL (w : Word) : statusIM (setEXL w) = statusIM w := by
  apply BitVec.eq_of_getLsbD_eq; intro i hi
  simp only [statusIM, setEXL, BitVec.getLsbD_extractLsb', getLsbD_withField]
  interval_cases i <;> simp

@[simp] theorem statusEXL_clearEXL (w : Word) : statusEXL (clearEXL w) = false := by
  rw [statusEXL, clearEXL, getLsbD_withField]; simp

@[simp] theorem statusIE_clearEXL (w : Word) : statusIE (clearEXL w) = statusIE w := by
  rw [statusIE, clearEXL, getLsbD_withField]; simp [statusIE]

@[simp] theorem statusIM_clearEXL (w : Word) : statusIM (clearEXL w) = statusIM w := by
  apply BitVec.eq_of_getLsbD_eq; intro i hi
  simp only [statusIM, clearEXL, BitVec.getLsbD_extractLsb', getLsbD_withField]
  interval_cases i <;> simp

@[simp] theorem causeExcCode_setExcCode (w : Word) (c : BitVec 5) : causeExcCode (setExcCode w c) = c := by
  apply BitVec.eq_of_getLsbD_eq; intro i hi
  simp only [causeExcCode, setExcCode, BitVec.getLsbD_extractLsb', getLsbD_withField]
  interval_cases i <;> simp

@[simp] theorem causeBD_setExcCode (w : Word) (c : BitVec 5) : causeBD (setExcCode w c) = causeBD w := by
  rw [causeBD, setExcCode, getLsbD_withField]; simp [causeBD]

@[simp] theorem causeIP_setExcCode (w : Word) (c : BitVec 5) : causeIP (setExcCode w c) = causeIP w := by
  apply BitVec.eq_of_getLsbD_eq; intro i hi
  simp only [causeIP, setExcCode, BitVec.getLsbD_extractLsb', getLsbD_withField]
  interval_cases i <;> simp

@[simp] theorem causeExcCode_setBD (w : Word) (b : Bool) : causeExcCode (setBD w b) = causeExcCode w := by
  apply BitVec.eq_of_getLsbD_eq; intro i hi
  simp only [causeExcCode, setBD, BitVec.getLsbD_extractLsb', getLsbD_withField]
  interval_cases i <;> simp

@[simp] theorem causeBD_setBD (w : Word) (b : Bool) : causeBD (setBD w b) = b := by
  rw [causeBD, setBD, getLsbD_withField]; cases b <;> simp

@[simp] theorem causeIP_setBD (w : Word) (b : Bool) : causeIP (setBD w b) = causeIP w := by
  apply BitVec.eq_of_getLsbD_eq; intro i hi
  simp only [causeIP, setBD, BitVec.getLsbD_extractLsb', getLsbD_withField]
  interval_cases i <;> simp

@[simp] theorem causeExcCode_setIP2 (w : Word) : causeExcCode (setIP2 w) = causeExcCode w := by
  apply BitVec.eq_of_getLsbD_eq; intro i hi
  simp only [causeExcCode, setIP2, BitVec.getLsbD_extractLsb', getLsbD_withField]
  interval_cases i <;> simp

@[simp] theorem causeBD_setIP2 (w : Word) : causeBD (setIP2 w) = causeBD w := by
  rw [causeBD, setIP2, getLsbD_withField]; simp [causeBD]

@[simp] theorem causeIP_setIP2 (w : Word) : causeIP (setIP2 w) = causeIP w ||| 0x04#8 := by
  apply BitVec.eq_of_getLsbD_eq; intro i hi
  simp only [causeIP, setIP2, BitVec.getLsbD_extractLsb', BitVec.getLsbD_or, getLsbD_withField]
  interval_cases i <;> simp

@[simp] theorem causeExcCode_mtc0Cause (w v : Word) : causeExcCode (mtc0Cause w v) = causeExcCode w := by
  apply BitVec.eq_of_getLsbD_eq; intro i hi
  simp only [causeExcCode, mtc0Cause, BitVec.getLsbD_extractLsb', getLsbD_withField]
  interval_cases i <;> simp

@[simp] theorem causeBD_mtc0Cause (w v : Word) : causeBD (mtc0Cause w v) = causeBD w := by
  rw [causeBD, mtc0Cause, getLsbD_withField]; simp [causeBD]

@[simp] theorem causeIP_mtc0Cause (w v : Word) : causeIP (mtc0Cause w v) = causeIP v := by
  apply BitVec.eq_of_getLsbD_eq; intro i hi
  simp only [causeIP, mtc0Cause, BitVec.getLsbD_extractLsb', getLsbD_withField]
  interval_cases i <;> simp

@[simp] theorem statusIE_mtc0Status (v : Word) : statusIE (mtc0Status v) = statusIE v := by
  simp [statusIE, mtc0Status]

@[simp] theorem statusEXL_mtc0Status (v : Word) : statusEXL (mtc0Status v) = statusEXL v := by
  simp [statusEXL, mtc0Status]

@[simp] theorem statusIM_mtc0Status (v : Word) : statusIM (mtc0Status v) = statusIM v := by
  apply BitVec.eq_of_getLsbD_eq; intro i hi
  simp only [statusIM, mtc0Status, BitVec.getLsbD_extractLsb', BitVec.getLsbD_and]
  interval_cases i <;> simp

end Sys2Proof.Machine
end

