-- ==== Sys2Proof/Laws/State.lean ====
section
/-! SUPPORT. One lemma per field per update of State: what each shared operation leaves in each field. -/

namespace Sys2Proof.Machine

variable (s : State)

/-! ## A register written -/

@[simp] theorem State.setReg_cfg (r : Reg) (v : DWord) : (s.setReg r v).cfg = s.cfg := by unfold State.setReg; split <;> rfl
@[simp] theorem State.setReg_pc (r : Reg) (v : DWord) : (s.setReg r v).pc = s.pc := by unfold State.setReg; split <;> rfl
@[simp] theorem State.setReg_delay (r : Reg) (v : DWord) : (s.setReg r v).delay = s.delay := by unfold State.setReg; split <;> rfl
@[simp] theorem State.setReg_status (r : Reg) (v : DWord) : (s.setReg r v).status = s.status := by unfold State.setReg; split <;> rfl
@[simp] theorem State.setReg_cause (r : Reg) (v : DWord) : (s.setReg r v).cause = s.cause := by unfold State.setReg; split <;> rfl
@[simp] theorem State.setReg_epc (r : Reg) (v : DWord) : (s.setReg r v).epc = s.epc := by unfold State.setReg; split <;> rfl
@[simp] theorem State.setReg_ram (r : Reg) (v : DWord) : (s.setReg r v).ram = s.ram := by unfold State.setReg; split <;> rfl
@[simp] theorem State.setReg_rom (r : Reg) (v : DWord) : (s.setReg r v).rom = s.rom := by unfold State.setReg; split <;> rfl
@[simp] theorem State.setReg_romSize (r : Reg) (v : DWord) : (s.setReg r v).romSize = s.romSize := by unfold State.setReg; split <;> rfl
@[simp] theorem State.setReg_sp (r : Reg) (v : DWord) : (s.setReg r v).sp = s.sp := by unfold State.setReg; split <;> rfl
@[simp] theorem State.setReg_dp (r : Reg) (v : DWord) : (s.setReg r v).dp = s.dp := by unfold State.setReg; split <;> rfl
@[simp] theorem State.setReg_ctrl (r : Reg) (v : DWord) : (s.setReg r v).ctrl = s.ctrl := by unfold State.setReg; split <;> rfl
@[simp] theorem State.setReg_loop (r : Reg) (v : DWord) : (s.setReg r v).loop = s.loop := by unfold State.setReg; split <;> rfl
@[simp] theorem State.setReg_stopReason (r : Reg) (v : DWord) : (s.setReg r v).stopReason = s.stopReason := by unfold State.setReg; split <;> rfl
@[simp] theorem State.setReg_phase (r : Reg) (v : DWord) : (s.setReg r v).phase = s.phase := by unfold State.setReg; split <;> rfl
@[simp] theorem State.setReg_requests (r : Reg) (v : DWord) : (s.setReg r v).requests = s.requests := by unfold State.setReg; split <;> rfl
@[simp] theorem State.setReg_inputs (r : Reg) (v : DWord) : (s.setReg r v).inputs = s.inputs := by unfold State.setReg; split <;> rfl
@[simp] theorem State.setReg_outputs (r : Reg) (v : DWord) : (s.setReg r v).outputs = s.outputs := by unfold State.setReg; split <;> rfl

/-! ## The default end -/

@[simp] theorem State.finish_regs : (s.finish).regs = s.regs := rfl
@[simp] theorem State.finish_cfg : (s.finish).cfg = s.cfg := rfl
@[simp] theorem State.finish_pc : (s.finish).pc = s.seqNext := rfl
@[simp] theorem State.finish_delay : (s.finish).delay = .none := rfl
@[simp] theorem State.finish_status : (s.finish).status = s.status := rfl
@[simp] theorem State.finish_cause : (s.finish).cause = s.cause := rfl
@[simp] theorem State.finish_epc : (s.finish).epc = s.epc := rfl
@[simp] theorem State.finish_ram : (s.finish).ram = s.ram := rfl
@[simp] theorem State.finish_rom : (s.finish).rom = s.rom := rfl
@[simp] theorem State.finish_romSize : (s.finish).romSize = s.romSize := rfl
@[simp] theorem State.finish_sp : (s.finish).sp = s.sp := rfl
@[simp] theorem State.finish_dp : (s.finish).dp = s.dp := rfl
@[simp] theorem State.finish_ctrl : (s.finish).ctrl = s.ctrl := rfl
@[simp] theorem State.finish_loop : (s.finish).loop = s.loop := rfl
@[simp] theorem State.finish_stopReason : (s.finish).stopReason = s.stopReason := rfl
@[simp] theorem State.finish_phase : (s.finish).phase = s.phase := rfl
@[simp] theorem State.finish_requests : (s.finish).requests = s.requests := rfl
@[simp] theorem State.finish_inputs : (s.finish).inputs = s.inputs := rfl
@[simp] theorem State.finish_outputs : (s.finish).outputs = s.outputs := rfl

/-! ## The end of a control transfer -/

@[simp] theorem State.transfer_regs (d : Delay) : (s.transfer d).regs = s.regs := rfl
@[simp] theorem State.transfer_cfg (d : Delay) : (s.transfer d).cfg = s.cfg := rfl
@[simp] theorem State.transfer_pc (d : Delay) : (s.transfer d).pc = s.pc + 4#32 := rfl
@[simp] theorem State.transfer_delay (d : Delay) : (s.transfer d).delay = d := rfl
@[simp] theorem State.transfer_status (d : Delay) : (s.transfer d).status = s.status := rfl
@[simp] theorem State.transfer_cause (d : Delay) : (s.transfer d).cause = s.cause := rfl
@[simp] theorem State.transfer_epc (d : Delay) : (s.transfer d).epc = s.epc := rfl
@[simp] theorem State.transfer_ram (d : Delay) : (s.transfer d).ram = s.ram := rfl
@[simp] theorem State.transfer_rom (d : Delay) : (s.transfer d).rom = s.rom := rfl
@[simp] theorem State.transfer_romSize (d : Delay) : (s.transfer d).romSize = s.romSize := rfl
@[simp] theorem State.transfer_sp (d : Delay) : (s.transfer d).sp = s.sp := rfl
@[simp] theorem State.transfer_dp (d : Delay) : (s.transfer d).dp = s.dp := rfl
@[simp] theorem State.transfer_ctrl (d : Delay) : (s.transfer d).ctrl = s.ctrl := rfl
@[simp] theorem State.transfer_loop (d : Delay) : (s.transfer d).loop = s.loop := rfl
@[simp] theorem State.transfer_stopReason (d : Delay) : (s.transfer d).stopReason = s.stopReason := rfl
@[simp] theorem State.transfer_phase (d : Delay) : (s.transfer d).phase = s.phase := rfl
@[simp] theorem State.transfer_requests (d : Delay) : (s.transfer d).requests = s.requests := rfl
@[simp] theorem State.transfer_inputs (d : Delay) : (s.transfer d).inputs = s.inputs := rfl
@[simp] theorem State.transfer_outputs (d : Delay) : (s.transfer d).outputs = s.outputs := rfl

/-! ## The end of a branch -/

@[simp] theorem State.branch_regs (c : Bool) (imm : Half) : (s.branch c imm).regs = s.regs := rfl
@[simp] theorem State.branch_cfg (c : Bool) (imm : Half) : (s.branch c imm).cfg = s.cfg := rfl
@[simp] theorem State.branch_pc (c : Bool) (imm : Half) : (s.branch c imm).pc = s.pc + 4#32 := rfl
@[simp] theorem State.branch_delay (c : Bool) (imm : Half) : (s.branch c imm).delay = if c then .taken (branchTarget s.pc imm) else .notTaken := rfl
@[simp] theorem State.branch_status (c : Bool) (imm : Half) : (s.branch c imm).status = s.status := rfl
@[simp] theorem State.branch_cause (c : Bool) (imm : Half) : (s.branch c imm).cause = s.cause := rfl
@[simp] theorem State.branch_epc (c : Bool) (imm : Half) : (s.branch c imm).epc = s.epc := rfl
@[simp] theorem State.branch_ram (c : Bool) (imm : Half) : (s.branch c imm).ram = s.ram := rfl
@[simp] theorem State.branch_rom (c : Bool) (imm : Half) : (s.branch c imm).rom = s.rom := rfl
@[simp] theorem State.branch_romSize (c : Bool) (imm : Half) : (s.branch c imm).romSize = s.romSize := rfl
@[simp] theorem State.branch_sp (c : Bool) (imm : Half) : (s.branch c imm).sp = s.sp := rfl
@[simp] theorem State.branch_dp (c : Bool) (imm : Half) : (s.branch c imm).dp = s.dp := rfl
@[simp] theorem State.branch_ctrl (c : Bool) (imm : Half) : (s.branch c imm).ctrl = s.ctrl := rfl
@[simp] theorem State.branch_loop (c : Bool) (imm : Half) : (s.branch c imm).loop = s.loop := rfl
@[simp] theorem State.branch_stopReason (c : Bool) (imm : Half) : (s.branch c imm).stopReason = s.stopReason := rfl
@[simp] theorem State.branch_phase (c : Bool) (imm : Half) : (s.branch c imm).phase = s.phase := rfl
@[simp] theorem State.branch_requests (c : Bool) (imm : Half) : (s.branch c imm).requests = s.requests := rfl
@[simp] theorem State.branch_inputs (c : Bool) (imm : Half) : (s.branch c imm).inputs = s.inputs := rfl
@[simp] theorem State.branch_outputs (c : Bool) (imm : Half) : (s.branch c imm).outputs = s.outputs := rfl

/-! ## An output -/

@[simp] theorem State.emit_regs (o : Output) : (s.emit o).regs = s.regs := rfl
@[simp] theorem State.emit_cfg (o : Output) : (s.emit o).cfg = s.cfg := rfl
@[simp] theorem State.emit_pc (o : Output) : (s.emit o).pc = s.pc := rfl
@[simp] theorem State.emit_delay (o : Output) : (s.emit o).delay = s.delay := rfl
@[simp] theorem State.emit_status (o : Output) : (s.emit o).status = s.status := rfl
@[simp] theorem State.emit_cause (o : Output) : (s.emit o).cause = s.cause := rfl
@[simp] theorem State.emit_epc (o : Output) : (s.emit o).epc = s.epc := rfl
@[simp] theorem State.emit_ram (o : Output) : (s.emit o).ram = s.ram := rfl
@[simp] theorem State.emit_rom (o : Output) : (s.emit o).rom = s.rom := rfl
@[simp] theorem State.emit_romSize (o : Output) : (s.emit o).romSize = s.romSize := rfl
@[simp] theorem State.emit_sp (o : Output) : (s.emit o).sp = s.sp := rfl
@[simp] theorem State.emit_dp (o : Output) : (s.emit o).dp = s.dp := rfl
@[simp] theorem State.emit_ctrl (o : Output) : (s.emit o).ctrl = s.ctrl := rfl
@[simp] theorem State.emit_loop (o : Output) : (s.emit o).loop = s.loop := rfl
@[simp] theorem State.emit_stopReason (o : Output) : (s.emit o).stopReason = s.stopReason := rfl
@[simp] theorem State.emit_phase (o : Output) : (s.emit o).phase = s.phase := rfl
@[simp] theorem State.emit_requests (o : Output) : (s.emit o).requests = s.requests := rfl
@[simp] theorem State.emit_inputs (o : Output) : (s.emit o).inputs = s.inputs := rfl
@[simp] theorem State.emit_outputs (o : Output) : (s.emit o).outputs = s.outputs ++ [o] := rfl

/-! ## Trap entry -/

@[simp] theorem State.trapEntry_regs (code : BitVec 5) (resume : Addr) (inDS : Bool) : (s.trapEntry code resume inDS).regs = s.regs := rfl
@[simp] theorem State.trapEntry_cfg (code : BitVec 5) (resume : Addr) (inDS : Bool) : (s.trapEntry code resume inDS).cfg = s.cfg := rfl
@[simp] theorem State.trapEntry_pc (code : BitVec 5) (resume : Addr) (inDS : Bool) : (s.trapEntry code resume inDS).pc = s.cfg.exceptionVector := rfl
@[simp] theorem State.trapEntry_delay (code : BitVec 5) (resume : Addr) (inDS : Bool) : (s.trapEntry code resume inDS).delay = .none := rfl
@[simp] theorem State.trapEntry_status (code : BitVec 5) (resume : Addr) (inDS : Bool) : (s.trapEntry code resume inDS).status = setEXL s.status := rfl
@[simp] theorem State.trapEntry_cause (code : BitVec 5) (resume : Addr) (inDS : Bool) : (s.trapEntry code resume inDS).cause = setExcCode (if statusEXL s.status then s.cause else setBD s.cause inDS) code := rfl
@[simp] theorem State.trapEntry_epc (code : BitVec 5) (resume : Addr) (inDS : Bool) : (s.trapEntry code resume inDS).epc = if statusEXL s.status then s.epc else if inDS then s.pc - 4#32 else resume := rfl
@[simp] theorem State.trapEntry_ram (code : BitVec 5) (resume : Addr) (inDS : Bool) : (s.trapEntry code resume inDS).ram = s.ram := rfl
@[simp] theorem State.trapEntry_rom (code : BitVec 5) (resume : Addr) (inDS : Bool) : (s.trapEntry code resume inDS).rom = s.rom := rfl
@[simp] theorem State.trapEntry_romSize (code : BitVec 5) (resume : Addr) (inDS : Bool) : (s.trapEntry code resume inDS).romSize = s.romSize := rfl
@[simp] theorem State.trapEntry_sp (code : BitVec 5) (resume : Addr) (inDS : Bool) : (s.trapEntry code resume inDS).sp = s.sp := rfl
@[simp] theorem State.trapEntry_dp (code : BitVec 5) (resume : Addr) (inDS : Bool) : (s.trapEntry code resume inDS).dp = s.dp := rfl
@[simp] theorem State.trapEntry_ctrl (code : BitVec 5) (resume : Addr) (inDS : Bool) : (s.trapEntry code resume inDS).ctrl = s.ctrl := rfl
@[simp] theorem State.trapEntry_loop (code : BitVec 5) (resume : Addr) (inDS : Bool) : (s.trapEntry code resume inDS).loop = s.loop := rfl
@[simp] theorem State.trapEntry_stopReason (code : BitVec 5) (resume : Addr) (inDS : Bool) : (s.trapEntry code resume inDS).stopReason = s.stopReason := rfl
@[simp] theorem State.trapEntry_phase (code : BitVec 5) (resume : Addr) (inDS : Bool) : (s.trapEntry code resume inDS).phase = s.phase := rfl
@[simp] theorem State.trapEntry_requests (code : BitVec 5) (resume : Addr) (inDS : Bool) : (s.trapEntry code resume inDS).requests = s.requests := rfl
@[simp] theorem State.trapEntry_inputs (code : BitVec 5) (resume : Addr) (inDS : Bool) : (s.trapEntry code resume inDS).inputs = s.inputs := rfl
@[simp] theorem State.trapEntry_outputs (code : BitVec 5) (resume : Addr) (inDS : Bool) : (s.trapEntry code resume inDS).outputs = s.outputs := rfl

/-! ## A halt -/

@[simp] theorem State.haltWith_regs (f : Fault) : (s.haltWith f).regs = s.regs := rfl
@[simp] theorem State.haltWith_cfg (f : Fault) : (s.haltWith f).cfg = s.cfg := rfl
@[simp] theorem State.haltWith_pc (f : Fault) : (s.haltWith f).pc = s.pc := rfl
@[simp] theorem State.haltWith_delay (f : Fault) : (s.haltWith f).delay = s.delay := rfl
@[simp] theorem State.haltWith_status (f : Fault) : (s.haltWith f).status = s.status := rfl
@[simp] theorem State.haltWith_cause (f : Fault) : (s.haltWith f).cause = s.cause := rfl
@[simp] theorem State.haltWith_epc (f : Fault) : (s.haltWith f).epc = s.epc := rfl
@[simp] theorem State.haltWith_ram (f : Fault) : (s.haltWith f).ram = s.ram := rfl
@[simp] theorem State.haltWith_rom (f : Fault) : (s.haltWith f).rom = s.rom := rfl
@[simp] theorem State.haltWith_romSize (f : Fault) : (s.haltWith f).romSize = s.romSize := rfl
@[simp] theorem State.haltWith_sp (f : Fault) : (s.haltWith f).sp = s.sp := rfl
@[simp] theorem State.haltWith_dp (f : Fault) : (s.haltWith f).dp = s.dp := rfl
@[simp] theorem State.haltWith_ctrl (f : Fault) : (s.haltWith f).ctrl = s.ctrl := rfl
@[simp] theorem State.haltWith_loop (f : Fault) : (s.haltWith f).loop = .stopped := rfl
@[simp] theorem State.haltWith_stopReason (f : Fault) : (s.haltWith f).stopReason = .halted f := rfl
@[simp] theorem State.haltWith_phase (f : Fault) : (s.haltWith f).phase = .processor 0 := rfl
@[simp] theorem State.haltWith_requests (f : Fault) : (s.haltWith f).requests = s.requests := rfl
@[simp] theorem State.haltWith_inputs (f : Fault) : (s.haltWith f).inputs = s.inputs := rfl
@[simp] theorem State.haltWith_outputs (f : Fault) : (s.haltWith f).outputs = s.outputs := rfl

/-! ## A step counted -/

@[simp] theorem State.countStep_regs : (s.countStep).regs = s.regs := by unfold State.countStep; split <;> rfl
@[simp] theorem State.countStep_cfg : (s.countStep).cfg = s.cfg := by unfold State.countStep; split <;> rfl
@[simp] theorem State.countStep_pc : (s.countStep).pc = s.pc := by unfold State.countStep; split <;> rfl
@[simp] theorem State.countStep_delay : (s.countStep).delay = s.delay := by unfold State.countStep; split <;> rfl
@[simp] theorem State.countStep_status : (s.countStep).status = s.status := by unfold State.countStep; split <;> rfl
@[simp] theorem State.countStep_cause : (s.countStep).cause = s.cause := by unfold State.countStep; split <;> rfl
@[simp] theorem State.countStep_epc : (s.countStep).epc = s.epc := by unfold State.countStep; split <;> rfl
@[simp] theorem State.countStep_ram : (s.countStep).ram = s.ram := by unfold State.countStep; split <;> rfl
@[simp] theorem State.countStep_rom : (s.countStep).rom = s.rom := by unfold State.countStep; split <;> rfl
@[simp] theorem State.countStep_romSize : (s.countStep).romSize = s.romSize := by unfold State.countStep; split <;> rfl
@[simp] theorem State.countStep_sp : (s.countStep).sp = s.sp := by unfold State.countStep; split <;> rfl
@[simp] theorem State.countStep_dp : (s.countStep).dp = s.dp := by unfold State.countStep; split <;> rfl
@[simp] theorem State.countStep_ctrl : (s.countStep).ctrl = s.ctrl := by unfold State.countStep; split <;> rfl
@[simp] theorem State.countStep_loop : (s.countStep).loop = s.loop := by unfold State.countStep; split <;> rfl
@[simp] theorem State.countStep_stopReason : (s.countStep).stopReason = s.stopReason := by unfold State.countStep; split <;> rfl
@[simp] theorem State.countStep_requests : (s.countStep).requests = s.requests := by unfold State.countStep; split <;> rfl
@[simp] theorem State.countStep_inputs : (s.countStep).inputs = s.inputs := by unfold State.countStep; split <;> rfl
@[simp] theorem State.countStep_outputs : (s.countStep).outputs = s.outputs := by unfold State.countStep; split <;> rfl

/-! ## A task completed -/

@[simp] theorem State.completeTask_regs (k : SpTask) : (s.completeTask k).regs = s.regs := rfl
@[simp] theorem State.completeTask_cfg (k : SpTask) : (s.completeTask k).cfg = s.cfg := rfl
@[simp] theorem State.completeTask_pc (k : SpTask) : (s.completeTask k).pc = s.pc := rfl
@[simp] theorem State.completeTask_delay (k : SpTask) : (s.completeTask k).delay = s.delay := rfl
@[simp] theorem State.completeTask_status (k : SpTask) : (s.completeTask k).status = s.status := rfl
@[simp] theorem State.completeTask_cause (k : SpTask) : (s.completeTask k).cause = setIP2 s.cause := rfl
@[simp] theorem State.completeTask_epc (k : SpTask) : (s.completeTask k).epc = s.epc := rfl
@[simp] theorem State.completeTask_ram (k : SpTask) : (s.completeTask k).ram = (spWrites s.cfg.ramSize s.ram k.ramWrites).writeBytes s.cfg.mailboxAddr.toNat (bytesOfWord 0) := rfl
@[simp] theorem State.completeTask_rom (k : SpTask) : (s.completeTask k).rom = s.rom := rfl
@[simp] theorem State.completeTask_romSize (k : SpTask) : (s.completeTask k).romSize = s.romSize := rfl
@[simp] theorem State.completeTask_sp (k : SpTask) : (s.completeTask k).sp = spAfter s.sp k.image := rfl
@[simp] theorem State.completeTask_dp (k : SpTask) : (s.completeTask k).dp = { s.dp with pending := k.dpCommands || s.dp.pending } := rfl
@[simp] theorem State.completeTask_ctrl (k : SpTask) : (s.completeTask k).ctrl = s.ctrl := rfl
@[simp] theorem State.completeTask_loop (k : SpTask) : (s.completeTask k).loop = s.loop := rfl
@[simp] theorem State.completeTask_stopReason (k : SpTask) : (s.completeTask k).stopReason = s.stopReason := rfl
@[simp] theorem State.completeTask_phase (k : SpTask) : (s.completeTask k).phase = s.phase := rfl
@[simp] theorem State.completeTask_requests (k : SpTask) : (s.completeTask k).requests = s.requests := rfl
@[simp] theorem State.completeTask_inputs (k : SpTask) : (s.completeTask k).inputs = s.inputs := rfl
@[simp] theorem State.completeTask_outputs (k : SpTask) : (s.completeTask k).outputs = s.outputs ++ [.pcm k.pcm] := rfl

/-! ## A frame taken -/

@[simp] theorem State.takeFrame_regs (k : DpFrame) : (s.takeFrame k).regs = s.regs := rfl
@[simp] theorem State.takeFrame_cfg (k : DpFrame) : (s.takeFrame k).cfg = s.cfg := rfl
@[simp] theorem State.takeFrame_pc (k : DpFrame) : (s.takeFrame k).pc = s.pc := rfl
@[simp] theorem State.takeFrame_delay (k : DpFrame) : (s.takeFrame k).delay = s.delay := rfl
@[simp] theorem State.takeFrame_status (k : DpFrame) : (s.takeFrame k).status = s.status := rfl
@[simp] theorem State.takeFrame_cause (k : DpFrame) : (s.takeFrame k).cause = s.cause := rfl
@[simp] theorem State.takeFrame_epc (k : DpFrame) : (s.takeFrame k).epc = s.epc := rfl
@[simp] theorem State.takeFrame_ram (k : DpFrame) : (s.takeFrame k).ram = s.ram := rfl
@[simp] theorem State.takeFrame_rom (k : DpFrame) : (s.takeFrame k).rom = s.rom := rfl
@[simp] theorem State.takeFrame_romSize (k : DpFrame) : (s.takeFrame k).romSize = s.romSize := rfl
@[simp] theorem State.takeFrame_sp (k : DpFrame) : (s.takeFrame k).sp = s.sp := rfl
@[simp] theorem State.takeFrame_dp (k : DpFrame) : (s.takeFrame k).dp = { pending := false, pixels := fitPixels s.cfg.pixelBytes k.pixels, image := if Config.dpImageOk k.image then k.image else s.dp.image } := rfl
@[simp] theorem State.takeFrame_ctrl (k : DpFrame) : (s.takeFrame k).ctrl = s.ctrl := rfl
@[simp] theorem State.takeFrame_loop (k : DpFrame) : (s.takeFrame k).loop = s.loop := rfl
@[simp] theorem State.takeFrame_stopReason (k : DpFrame) : (s.takeFrame k).stopReason = s.stopReason := rfl
@[simp] theorem State.takeFrame_phase (k : DpFrame) : (s.takeFrame k).phase = s.phase := rfl
@[simp] theorem State.takeFrame_requests (k : DpFrame) : (s.takeFrame k).requests = s.requests := rfl
@[simp] theorem State.takeFrame_inputs (k : DpFrame) : (s.takeFrame k).inputs = s.inputs := rfl
@[simp] theorem State.takeFrame_outputs (k : DpFrame) : (s.takeFrame k).outputs = s.outputs := rfl

/-! ## The machine reset -/

@[simp] theorem State.resetMachine_regs : (s.resetMachine).regs = Vector.replicate 32 0 := rfl
@[simp] theorem State.resetMachine_cfg : (s.resetMachine).cfg = s.cfg := rfl
@[simp] theorem State.resetMachine_pc : (s.resetMachine).pc = s.cfg.entryVector := rfl
@[simp] theorem State.resetMachine_delay : (s.resetMachine).delay = .none := rfl
@[simp] theorem State.resetMachine_status : (s.resetMachine).status = 0 := rfl
@[simp] theorem State.resetMachine_cause : (s.resetMachine).cause = 0 := rfl
@[simp] theorem State.resetMachine_epc : (s.resetMachine).epc = 0 := rfl
@[simp] theorem State.resetMachine_ram : (s.resetMachine).ram = Memory.zero := rfl
@[simp] theorem State.resetMachine_rom : (s.resetMachine).rom = s.rom := rfl
@[simp] theorem State.resetMachine_romSize : (s.resetMachine).romSize = s.romSize := rfl
@[simp] theorem State.resetMachine_sp : (s.resetMachine).sp = { image := Config.spResetImage } := rfl
@[simp] theorem State.resetMachine_dp : (s.resetMachine).dp = DpState.reset s.cfg := rfl
@[simp] theorem State.resetMachine_ctrl : (s.resetMachine).ctrl = List.replicate s.cfg.numControllers Controller.zero := rfl
@[simp] theorem State.resetMachine_loop : (s.resetMachine).loop = s.loop := rfl
@[simp] theorem State.resetMachine_stopReason : (s.resetMachine).stopReason = s.stopReason := rfl
@[simp] theorem State.resetMachine_phase : (s.resetMachine).phase = s.phase := rfl
@[simp] theorem State.resetMachine_requests : (s.resetMachine).requests = s.requests := rfl
@[simp] theorem State.resetMachine_inputs : (s.resetMachine).inputs = s.inputs := rfl
@[simp] theorem State.resetMachine_outputs : (s.resetMachine).outputs = s.outputs := rfl

/-! ## A snapshot applied -/

@[simp] theorem State.applySnapshot_regs (i : SnapshotImage) : (s.applySnapshot i).regs = regsOfList i.cpu.regs := by dsimp only [State.applySnapshot]
@[simp] theorem State.applySnapshot_cfg (i : SnapshotImage) : (s.applySnapshot i).cfg = s.cfg := by dsimp only [State.applySnapshot]
@[simp] theorem State.applySnapshot_pc (i : SnapshotImage) : (s.applySnapshot i).pc = i.cpu.pc := by dsimp only [State.applySnapshot]
@[simp] theorem State.applySnapshot_delay (i : SnapshotImage) : (s.applySnapshot i).delay = i.cpu.delay := by dsimp only [State.applySnapshot]
@[simp] theorem State.applySnapshot_status (i : SnapshotImage) : (s.applySnapshot i).status = i.cpu.status := by dsimp only [State.applySnapshot]
@[simp] theorem State.applySnapshot_cause (i : SnapshotImage) : (s.applySnapshot i).cause = i.cpu.cause := by dsimp only [State.applySnapshot]
@[simp] theorem State.applySnapshot_epc (i : SnapshotImage) : (s.applySnapshot i).epc = i.cpu.epc := by dsimp only [State.applySnapshot]
@[simp] theorem State.applySnapshot_ram (i : SnapshotImage) : (s.applySnapshot i).ram = i.ram := by dsimp only [State.applySnapshot]
@[simp] theorem State.applySnapshot_rom (i : SnapshotImage) : (s.applySnapshot i).rom = s.rom := by dsimp only [State.applySnapshot]
@[simp] theorem State.applySnapshot_romSize (i : SnapshotImage) : (s.applySnapshot i).romSize = s.romSize := by dsimp only [State.applySnapshot]
@[simp] theorem State.applySnapshot_sp (i : SnapshotImage) : (s.applySnapshot i).sp = i.sp := by dsimp only [State.applySnapshot]
@[simp] theorem State.applySnapshot_dp (i : SnapshotImage) : (s.applySnapshot i).dp = i.dp := by dsimp only [State.applySnapshot]
@[simp] theorem State.applySnapshot_ctrl (i : SnapshotImage) : (s.applySnapshot i).ctrl = i.ctrl := by dsimp only [State.applySnapshot]
@[simp] theorem State.applySnapshot_loop (i : SnapshotImage) : (s.applySnapshot i).loop = s.loop := by dsimp only [State.applySnapshot]
@[simp] theorem State.applySnapshot_stopReason (i : SnapshotImage) : (s.applySnapshot i).stopReason = s.stopReason := by dsimp only [State.applySnapshot]
@[simp] theorem State.applySnapshot_phase (i : SnapshotImage) : (s.applySnapshot i).phase = s.phase := by dsimp only [State.applySnapshot]
@[simp] theorem State.applySnapshot_requests (i : SnapshotImage) : (s.applySnapshot i).requests = s.requests := by dsimp only [State.applySnapshot]
@[simp] theorem State.applySnapshot_inputs (i : SnapshotImage) : (s.applySnapshot i).inputs = s.inputs := by dsimp only [State.applySnapshot]
@[simp] theorem State.applySnapshot_outputs (i : SnapshotImage) : (s.applySnapshot i).outputs = s.outputs := by dsimp only [State.applySnapshot]

/-! ## Reads of registers after an update -/

@[simp] theorem State.reg_zero : s.reg 0#5 = 0 := rfl

@[simp] theorem State.setReg_zero (v : DWord) : s.setReg 0#5 v = s := rfl

theorem State.reg_of_regs_eq {s t : State} (h : t.regs = s.regs) (r : Reg) : t.reg r = s.reg r := by
  unfold State.reg; split <;> simp_all

/-- A register reads what was written to it; register 0 reads 0. -/
theorem State.reg_setReg_self (r : Reg) (v : DWord) : (s.setReg r v).reg r = if r = 0#5 then 0 else v := by
  unfold State.reg State.setReg; split <;> simp_all

/-- A write to one register leaves the others. -/
theorem State.reg_setReg_of_ne {r q : Reg} (v : DWord) (h : q ≠ r) : (s.setReg r v).reg q = s.reg q := by
  have hn : r.toNat ≠ q.toNat := fun e => h (BitVec.eq_of_toNat_eq e.symm)
  unfold State.reg State.setReg
  split
  · rfl
  · split
    · rfl
    · exact Vector.getElem_set_ne r.isLt q.isLt hn

@[simp] theorem State.seqNext_setReg (r : Reg) (v : DWord) : (s.setReg r v).seqNext = s.seqNext := by
  simp [State.seqNext]

@[simp] theorem State.seqNext_emit (o : Output) : (s.emit o).seqNext = s.seqNext := rfl

@[simp] theorem State.reg_finish (r : Reg) : (s.finish).reg r = s.reg r := rfl

@[simp] theorem State.reg_transfer (d : Delay) (r : Reg) : (s.transfer d).reg r = s.reg r := rfl

@[simp] theorem State.reg_branch (c : Bool) (imm : Half) (r : Reg) : (s.branch c imm).reg r = s.reg r := rfl

@[simp] theorem State.reg_emit (o : Output) (r : Reg) : (s.emit o).reg r = s.reg r := rfl

@[simp] theorem State.reg_trapEntry (code : BitVec 5) (resume : Addr) (inDS : Bool) (r : Reg) : (s.trapEntry code resume inDS).reg r = s.reg r := rfl

@[simp] theorem State.reg_haltWith (f : Fault) (r : Reg) : (s.haltWith f).reg r = s.reg r := rfl

@[simp] theorem State.reg_completeTask (k : SpTask) (r : Reg) : (s.completeTask k).reg r = s.reg r := rfl

@[simp] theorem State.reg_takeFrame (k : DpFrame) (r : Reg) : (s.takeFrame k).reg r = s.reg r := rfl

@[simp] theorem State.reg_countStep (r : Reg) : s.countStep.reg r = s.reg r := State.reg_of_regs_eq (by simp) r

/-! ## The decoder sees only the configuration and the cartridge's length; a byte only RAM and ROM besides -/

theorem State.place_congr {s t : State} (hc : t.cfg = s.cfg) (hs : t.romSize = s.romSize) (a : Addr) :
    t.place a = s.place a := by
  simp [State.place, hc, hs]

theorem State.byteAt_congr {s t : State} (hc : t.cfg = s.cfg) (hm : t.ram = s.ram) (hr : t.rom = s.rom)
    (hs : t.romSize = s.romSize) (a : Addr) : t.byteAt a = s.byteAt a := by
  unfold State.byteAt
  rw [State.place_congr hc hs]
  cases s.place a with
  | none => rfl
  | some p => cases p <;> simp [State.placeByte, hm, hr]

end Sys2Proof.Machine
end

