-- ==== Sys2Proof/Laws/Ops.lean ====
section
/-! SUPPORT. One lemma for each shared operation that says everything it can do: provers cite these instead of unfolding
the operations. -/

namespace Sys2Proof.Machine

variable {s : State}

/-! ## Ends of a step -/

/-- A result written is a next state with the register written and nothing else changed. -/
theorem writeResult_writes (r : Reg) (v : DWord) : WritesRegister r v s (s.writeResult r v) := by
  refine ⟨_, rfl, ?_, fun q hq => ?_, ?_, fun a => ?_, ?_, ?_⟩
  · simp [Holds, State.reg_setReg_self]
  · simp [State.reg_setReg_of_ne s v hq]
  · simp [Cp0Same]
  · exact State.byteAt_congr (by simp) (by simp) (by simp) (by simp) a
  · simp [RestSame]
  · simp [EndsPlain]

/-- The end of a control transfer changes pc and the delay state only. -/
theorem transfer_only (d : Delay) : TransfersOnly d s (.next (s.transfer d)) := by
  refine ⟨_, rfl, fun q => by simp, by simp [Cp0Same], fun a => ?_, by simp [RestSame], by simp [EndsInSlot]⟩
  exact State.byteAt_congr (by simp) (by simp) (by simp) (by simp) a

/-- The end of a linking control transfer changes pc, the delay state and the link register only. -/
theorem transfer_links (d : Delay) (r : Reg) (v : DWord) :
    TransfersAndLinks d r v s (.next ((s.setReg r v).transfer d)) := by
  refine ⟨_, rfl, ?_, fun q hq => ?_, by simp [Cp0Same], fun a => ?_, by simp [RestSame], by simp [EndsInSlot]⟩
  · simp [Holds, State.reg_setReg_self]
  · simp [State.reg_setReg_of_ne s v hq]
  · exact State.byteAt_congr (by simp) (by simp) (by simp) (by simp) a

/-- The same for a value, a delay state or a link that is equal to the one written. -/
theorem writeResult_writes_eq {r : Reg} {v v' : DWord} (h : v = v') : WritesRegister r v' s (s.writeResult r v) :=
  h ▸ writeResult_writes r v

theorem transfer_only_eq {d d' : Delay} (h : d = d') : TransfersOnly d' s (.next (s.transfer d)) := h ▸ transfer_only d

theorem transfer_links_eq {d d' : Delay} {r : Reg} {v : DWord} (h : d = d') :
    TransfersAndLinks d' r v s (.next ((s.setReg r v).transfer d)) := h ▸ transfer_links d r v

/-- A branch is the transfer its condition chooses. -/
theorem branch_eq (c : Bool) (imm : Half) :
    s.branch c imm = s.transfer (if c then .taken (branchTarget s.pc imm) else .notTaken) := rfl

theorem branch_setReg_eq (r : Reg) (v : DWord) (c : Bool) (imm : Half) :
    (s.setReg r v).branch c imm =
      (s.setReg r v).transfer (if c then .taken (branchTarget s.pc imm) else .notTaken) := by
  simp [State.branch]

/-- In a delay slot a control instruction halts. -/
theorem control_of_slot (i : Instr) (m : Result) (h : s.delay ≠ .none) :
    s.control i m = .fault (.branchInDelaySlot s.pc (encode i)) := by
  simp [State.control, State.inDelaySlot, h]

/-- Elsewhere it runs. -/
theorem control_of_none (i : Instr) (m : Result) (h : s.delay = .none) : s.control i m = m := by
  simp [State.control, State.inDelaySlot, h]

theorem alignedTarget_of_aligned {t : Addr} (m : Result) (h : t.toNat % 4 = 0) : alignedTarget t m = m := by
  simp [alignedTarget, h]

theorem alignedTarget_of_misaligned {t : Addr} (m : Result) (h : t.toNat % 4 ≠ 0) :
    alignedTarget t m = .fault (.alignmentError t) := by
  simp [alignedTarget, h]

/-- Overflow is its trap entry. -/
theorem raiseOverflow_traps : TrapsOverflow s s.raiseOverflow := by
  refine ⟨_, rfl, ?_, ?_, fun h => ?_, fun h => ?_, ?_, ?_, ?_, fun q => ?_, fun a => ?_, ?_, rfl, rfl⟩
  · simp [excOv]
  · simp
  · cases hd : s.delay <;> simp [h, State.inDelaySlot, hd]
  · simp [h]
  · simp only [State.trapEntry_cause, causeIP_setExcCode]; split <;> simp
  · simp
  · simp
  · simp
  · exact State.byteAt_congr (by simp) (by simp) (by simp) (by simp) a
  · simp [RestSame]

/-- An unsupported word halts in Strict mode. -/
theorem unsupportedWord_strict (w : Word) (h : s.cfg.mode = .strict) :
    s.unsupportedWord w = .fault (.unsupportedOpcode s.pc w) := by
  simp [State.unsupportedWord, h]

/-- An unsupported word is a logged no-op in Permissive mode. -/
theorem unsupportedWord_permissive (w : Word) (h : s.cfg.mode = .permissive) :
    s.unsupportedWord w = .next (s.emit (.unsupported s.pc w)).finish := by
  simp [State.unsupportedWord, h]

/-! ## Memory accesses -/

/-- An access succeeds exactly where it is aligned and mapped. -/
theorem access_ok_iff (a : Addr) (w : Width) (p : Place) :
    s.access a w = .ok p ↔ a.toNat % w.bytes = 0 ∧ s.place a = some p := by
  unfold State.access
  split
  · simp_all
  · cases h : s.place a <;> simp_all

theorem access_misaligned {a : Addr} {w : Width} (h : a.toNat % w.bytes ≠ 0) :
    s.access a w = .error (.alignmentError a) := by
  simp [State.access, h]

theorem access_unmapped {a : Addr} {w : Width} (h : a.toNat % w.bytes = 0) (hp : s.place a = none) :
    s.access a w = .error (.addressError a) := by
  simp [State.access, h, hp]

theorem place_ram_iff (a : Addr) (o : Nat) : s.place a = some (.ram o) ↔ a.toNat < s.cfg.ramSize ∧ o = a.toNat := by
  unfold State.place
  split
  · simp_all [eq_comm]
  · split <;> simp_all

theorem place_rom_iff (a : Addr) (o : Nat) :
    s.place a = some (.rom o) ↔
      s.cfg.ramSize ≤ a.toNat ∧ s.cfg.cartridgeBase.toNat ≤ a.toNat ∧ o = a.toNat - s.cfg.cartridgeBase.toNat ∧
        o < s.romSize := by
  unfold State.place
  split
  · simp; omega
  · split
    · simp; omega
    · simp; omega

theorem place_none_iff (a : Addr) :
    s.place a = none ↔
      s.cfg.ramSize ≤ a.toNat ∧
        (a.toNat < s.cfg.cartridgeBase.toNat ∨ s.romSize ≤ a.toNat - s.cfg.cartridgeBase.toNat) := by
  unfold State.place
  split
  · simp; omega
  · split
    · simp; omega
    · simp; omega

/-- A store: the halt of its access; RAM with the bytes written; or, in the cartridge, nothing. -/
theorem memWrite_cases (a : Addr) (w : Width) (v : Word) :
    (∃ f, s.access a w = .error f ∧ s.memWrite a w v = .error f) ∨
      (∃ o, s.access a w = .ok (.ram o) ∧
        s.memWrite a w v = .ok { s with ram := s.ram.writeBytes o (storedBytes w v) }) ∨
      (∃ o, s.access a w = .ok (.rom o) ∧ s.memWrite a w v = .ok s) := by
  unfold State.memWrite
  cases h : s.access a w with
  | error f => exact .inl ⟨f, rfl, rfl⟩
  | ok p =>
    cases p with
    | ram o => exact .inr (.inl ⟨o, rfl, rfl⟩)
    | rom o => exact .inr (.inr ⟨o, rfl, rfl⟩)

@[simp] theorem length_storedBytes (w : Width) (v : Word) : (storedBytes w v).length = w.bytes := by
  cases w <;> rfl

/-- A load's end: a halt of its access or the value written. -/
theorem loadResult_cases (r : Reg) (x : Except Fault DWord) :
    (∃ f, x = .error f ∧ s.loadResult r x = .fault f) ∨ (∃ v, x = .ok v ∧ s.loadResult r x = s.writeResult r v) := by
  cases x with
  | error f => exact .inl ⟨f, rfl, rfl⟩
  | ok v => exact .inr ⟨v, rfl, rfl⟩

/-- A failed access halts for its alignment or its region. -/
theorem access_error {a : Addr} {w : Width} {f : Fault} (h : s.access a w = .error f) :
    f = .alignmentError a ∨ f = .addressError a := by
  unfold State.access at h
  split at h
  · cases h; exact .inl rfl
  · split at h
    · cases h
    · cases h; exact .inr rfl

/-- A store's end: a halt of its access or a next state. -/
theorem storeResult_cases (a : Addr) (w : Width) (v : Word) :
    (∃ f, s.access a w = .error f ∧ s.storeResult a w v = .fault f) ∨ ∃ t, s.storeResult a w v = .next t := by
  obtain ⟨f, ha, hm⟩ | ⟨o, _, hm⟩ | ⟨o, _, hm⟩ := memWrite_cases (s := s) a w v
  · exact .inl ⟨f, ha, by simp [State.storeResult, hm]⟩
  · exact .inr ⟨_, by rw [State.storeResult, hm]⟩
  · exact .inr ⟨_, by rw [State.storeResult, hm]⟩

/-- A read of any width fails as its access does. -/
theorem readByte_error {a : Addr} {f : Fault} (h : s.readByte a = .error f) : s.access a .byte = .error f := by
  unfold State.readByte at h; split at h <;> simp_all

theorem readHalf_error {a : Addr} {f : Fault} (h : s.readHalf a = .error f) : s.access a .half = .error f := by
  unfold State.readHalf at h; split at h <;> simp_all

theorem readWord_error {a : Addr} {f : Fault} (h : s.readWord a = .error f) : s.access a .word = .error f := by
  unfold State.readWord at h; split at h <;> simp_all

/-- An unsupported word: a halt, or a next state. -/
theorem unsupportedWord_cases (w : Word) :
    s.unsupportedWord w = .fault (.unsupportedOpcode s.pc w) ∨
      s.unsupportedWord w = .next (s.emit (.unsupported s.pc w)).finish := by
  unfold State.unsupportedWord; cases s.cfg.mode <;> simp

/-- A control instruction: the halt of a delay slot, or its meaning. -/
theorem control_cases (i : Instr) (m : Result) :
    s.control i m = .fault (.branchInDelaySlot s.pc (encode i)) ∨ s.control i m = m := by
  unfold State.control; split <;> simp

/-- A register target: the halt of a misaligned one, or the meaning behind it. -/
theorem alignedTarget_cases (t : Addr) (m : Result) :
    alignedTarget t m = .fault (.alignmentError t) ∨ alignedTarget t m = m := by
  unfold alignedTarget; split <;> simp

end Sys2Proof.Machine
end

