-- ==== Sys2Proof/Laws/Access.lean ====
section
/-! SUPPORT. What an address reads as in each region and after a write, and the bytes of an aligned access as the bytes at
its addresses. -/

namespace Sys2Proof.Machine

variable {s : State}

/-! ## One byte -/

theorem byteAt_of_ram {a : Addr} (h : a.toNat < s.cfg.ramSize) : s.byteAt a = some (s.ram.read a.toNat) := by
  simp [State.byteAt, (place_ram_iff a _).2 ⟨h, rfl⟩, State.placeByte]

theorem byteAt_of_rom {a : Addr} (h : InCartridge s a) :
    s.byteAt a = some (s.rom.read (a.toNat - s.cfg.cartridgeBase.toNat)) := by
  obtain ⟨h1, h2, h3⟩ := h
  simp [State.byteAt, (place_rom_iff a _).2 ⟨h1, h2, rfl, by omega⟩, State.placeByte]

theorem byteAt_none_iff_place (a : Addr) : s.byteAt a = none ↔ s.place a = none := by
  simp [State.byteAt]

theorem place_of_inCartridge {a : Addr} (h : InCartridge s a) :
    s.place a = some (.rom (a.toNat - s.cfg.cartridgeBase.toNat)) := by
  obtain ⟨h1, h2, h3⟩ := h
  exact (place_rom_iff a _).2 ⟨h1, h2, rfl, by omega⟩

/-- An address after bytes are written to RAM: the byte written, or the old one. -/
theorem byteAt_ramWrite (w : s.ram.wf) (o : Nat) (bs : List Byte) (b : Addr) :
    ({ s with ram := s.ram.writeBytes o bs } : State).byteAt b =
      if b.toNat < s.cfg.ramSize ∧ o ≤ b.toNat ∧ b.toNat < o + bs.length then some (bs.getD (b.toNat - o) 0)
      else s.byteAt b := by
  by_cases h : b.toNat < s.cfg.ramSize
  · rw [byteAt_of_ram (s := { s with ram := s.ram.writeBytes o bs }) h, byteAt_of_ram h]
    simp only [Memory.read_writeBytes w, h, true_and]
    split <;> rfl
  · have hp : ({ s with ram := s.ram.writeBytes o bs } : State).place b = s.place b := rfl
    simp only [h, false_and, if_false, State.byteAt, hp]
    cases hq : s.place b with
    | none => rfl
    | some p =>
      cases p with
      | ram k => exact absurd ((place_ram_iff b k).1 hq).1 h
      | rom k => rfl

/-! ## An access -/

/-- The bytes of an aligned mapped access are the bytes at its addresses (20_memory.md R57, R59). -/
theorem byteAt_access (r : s.RegionsAligned) {a : Addr} {w : Width} {p : Place} (h : s.access a w = .ok p) {k : Nat}
    (hk : k < w.bytes) : s.byteAt (a + BitVec.ofNat 32 k) = some (s.placeByte p k) := by
  obtain ⟨ha, hp⟩ := (access_ok_iff a w p).1 h
  obtain ⟨r1, r2, r3⟩ := r
  have hlt := a.isLt
  have hk4 : k < 4 := by cases w <;> simp only [Width.bytes] at hk <;> omega
  have hw : w.bytes = 1 ∨ w.bytes = 2 ∨ w.bytes = 4 := by cases w <;> simp [Width.bytes]
  have hs : (a + BitVec.ofNat 32 k).toNat = a.toNat + k := by
    rw [BitVec.toNat_add, BitVec.toNat_ofNat]
    rcases hw with hw | hw | hw <;> rw [hw] at ha hk <;> omega
  cases p with
  | ram o =>
    obtain ⟨h1, rfl⟩ := (place_ram_iff a o).1 hp
    rw [byteAt_of_ram (by rw [hs]; rcases hw with hw | hw | hw <;> rw [hw] at ha hk <;> omega), hs]
    rfl
  | rom o =>
    obtain ⟨h1, h2, rfl, h3⟩ := (place_rom_iff a o).1 hp
    rw [byteAt_of_rom ⟨by omega, by omega, by rw [hs]; rcases hw with hw | hw | hw <;> rw [hw] at ha hk <;> omega⟩, hs]
    simp only [State.placeByte]
    congr 2
    omega

/-- A mapped aligned access. -/
theorem access_of_byteAt {a : Addr} {w : Width} {b : Byte} (ha : a.toNat % w.bytes = 0) (h : s.byteAt a = some b) :
    ∃ p, s.access a w = .ok p ∧ s.placeByte p 0 = b := by
  simp only [State.byteAt, Option.map_eq_some_iff] at h
  obtain ⟨p, hp, hb⟩ := h
  exact ⟨p, (access_ok_iff a w p).2 ⟨ha, hp⟩, hb⟩

theorem access_of_unmapped {a : Addr} {w : Width} (ha : a.toNat % w.bytes = 0) (h : s.byteAt a = none) :
    s.access a w = .error (.addressError a) :=
  access_unmapped ha ((byteAt_none_iff_place a).1 h)

/-- A store into RAM puts its bytes at its addresses and changes no other byte. -/
theorem storeResult_ram (r : s.ram.wf) {a : Addr} {w : Width} (v : Word) (ha : a.toNat % w.bytes = 0)
    (h : a.toNat + w.bytes ≤ s.cfg.ramSize) : StoresBytes a (storedBytes w v) s (s.storeResult a w v) := by
  have hw : 0 < w.bytes := by cases w <;> simp [Width.bytes]
  have hacc : s.access a w = .ok (.ram a.toNat) :=
    (access_ok_iff a w _).2 ⟨ha, (place_ram_iff a _).2 ⟨by omega, rfl⟩⟩
  have hlt := a.isLt
  refine ⟨({ s with ram := s.ram.writeBytes a.toNat (storedBytes w v) } : State).finish, ?_, fun k hk => ?_,
    fun b hb => ?_, fun q => rfl, ⟨rfl, rfl, rfl⟩, by simp [RestSame], ⟨rfl, rfl⟩⟩
  · simp [State.storeResult, State.memWrite, hacc]
  · rw [length_storedBytes] at hk
    have hwb : w.bytes ≤ 4 := by cases w <;> simp [Width.bytes]
    have hs : (a + BitVec.ofNat 32 k).toNat = a.toNat + k := by
      rw [BitVec.toNat_add, BitVec.toNat_ofNat]
      rcases (show w.bytes = 1 ∨ w.bytes = 2 ∨ w.bytes = 4 by cases w <;> simp [Width.bytes]) with hq | hq | hq <;>
        rw [hq] at ha hk <;> omega
    show ({ s with ram := s.ram.writeBytes a.toNat (storedBytes w v) } : State).byteAt _ = _
    rw [byteAt_ramWrite r, if_pos (by rw [length_storedBytes, hs]; omega), hs]
    simp
  · rw [length_storedBytes] at hb
    show ({ s with ram := s.ram.writeBytes a.toNat (storedBytes w v) } : State).byteAt _ = _
    rw [byteAt_ramWrite r, if_neg (by rw [length_storedBytes]; omega)]

/-- A store into the cartridge changes no byte (20_memory.md R53). -/
theorem storeResult_rom {a : Addr} {w : Width} (v : Word) (ha : a.toNat % w.bytes = 0) (h : InCartridge s a) :
    ChangesNothing s (s.storeResult a w v) := by
  refine ⟨s.finish, ?_, fun q => rfl, ⟨rfl, rfl, rfl⟩, fun b => rfl, by simp [RestSame], ⟨rfl, rfl⟩⟩
  simp [State.storeResult, State.memWrite, (access_ok_iff a w _).2 ⟨ha, place_of_inCartridge h⟩]

end Sys2Proof.Machine
end

