-- ==== Sys2Proof/Laws/Decode.lean ====
section
/-! SUPPORT. The fields of the words `encode` builds, the words of their own fields, and the bytes of words. -/

namespace Sys2Proof

/-! ## The R format -/

@[simp] theorem opOf_encodeR (rs rt rd : Reg) (sa : BitVec 5) (funct : BitVec 6) : opOf (encodeR rs rt rd sa funct) = 0x00#6 := by
  apply BitVec.eq_of_getLsbD_eq; intro i hi
  simp only [opOf, encodeR, place, BitVec.getLsbD_extractLsb', BitVec.getLsbD_or, BitVec.getLsbD_shiftLeft,
    BitVec.getLsbD_setWidth]
  interval_cases i <;> simp

@[simp] theorem rsOf_encodeR (rs rt rd : Reg) (sa : BitVec 5) (funct : BitVec 6) : rsOf (encodeR rs rt rd sa funct) = rs := by
  apply BitVec.eq_of_getLsbD_eq; intro i hi
  simp only [rsOf, encodeR, place, BitVec.getLsbD_extractLsb', BitVec.getLsbD_or, BitVec.getLsbD_shiftLeft,
    BitVec.getLsbD_setWidth]
  interval_cases i <;> simp

@[simp] theorem rtOf_encodeR (rs rt rd : Reg) (sa : BitVec 5) (funct : BitVec 6) : rtOf (encodeR rs rt rd sa funct) = rt := by
  apply BitVec.eq_of_getLsbD_eq; intro i hi
  simp only [rtOf, encodeR, place, BitVec.getLsbD_extractLsb', BitVec.getLsbD_or, BitVec.getLsbD_shiftLeft,
    BitVec.getLsbD_setWidth]
  interval_cases i <;> simp

@[simp] theorem rdOf_encodeR (rs rt rd : Reg) (sa : BitVec 5) (funct : BitVec 6) : rdOf (encodeR rs rt rd sa funct) = rd := by
  apply BitVec.eq_of_getLsbD_eq; intro i hi
  simp only [rdOf, encodeR, place, BitVec.getLsbD_extractLsb', BitVec.getLsbD_or, BitVec.getLsbD_shiftLeft,
    BitVec.getLsbD_setWidth]
  interval_cases i <;> simp

@[simp] theorem saOf_encodeR (rs rt rd : Reg) (sa : BitVec 5) (funct : BitVec 6) : saOf (encodeR rs rt rd sa funct) = sa := by
  apply BitVec.eq_of_getLsbD_eq; intro i hi
  simp only [saOf, encodeR, place, BitVec.getLsbD_extractLsb', BitVec.getLsbD_or, BitVec.getLsbD_shiftLeft,
    BitVec.getLsbD_setWidth]
  interval_cases i <;> simp

@[simp] theorem functOf_encodeR (rs rt rd : Reg) (sa : BitVec 5) (funct : BitVec 6) : functOf (encodeR rs rt rd sa funct) = funct := by
  apply BitVec.eq_of_getLsbD_eq; intro i hi
  simp only [functOf, encodeR, place, BitVec.getLsbD_extractLsb', BitVec.getLsbD_or, BitVec.getLsbD_shiftLeft,
    BitVec.getLsbD_setWidth]
  interval_cases i <;> simp

/-! ## The I format -/

@[simp] theorem opOf_encodeI (op : BitVec 6) (rs rt : Reg) (imm : Half) : opOf (encodeI op rs rt imm) = op := by
  apply BitVec.eq_of_getLsbD_eq; intro i hi
  simp only [opOf, encodeI, place, BitVec.getLsbD_extractLsb', BitVec.getLsbD_or, BitVec.getLsbD_shiftLeft,
    BitVec.getLsbD_setWidth]
  interval_cases i <;> simp

@[simp] theorem rsOf_encodeI (op : BitVec 6) (rs rt : Reg) (imm : Half) : rsOf (encodeI op rs rt imm) = rs := by
  apply BitVec.eq_of_getLsbD_eq; intro i hi
  simp only [rsOf, encodeI, place, BitVec.getLsbD_extractLsb', BitVec.getLsbD_or, BitVec.getLsbD_shiftLeft,
    BitVec.getLsbD_setWidth]
  interval_cases i <;> simp

@[simp] theorem rtOf_encodeI (op : BitVec 6) (rs rt : Reg) (imm : Half) : rtOf (encodeI op rs rt imm) = rt := by
  apply BitVec.eq_of_getLsbD_eq; intro i hi
  simp only [rtOf, encodeI, place, BitVec.getLsbD_extractLsb', BitVec.getLsbD_or, BitVec.getLsbD_shiftLeft,
    BitVec.getLsbD_setWidth]
  interval_cases i <;> simp

@[simp] theorem immOf_encodeI (op : BitVec 6) (rs rt : Reg) (imm : Half) : immOf (encodeI op rs rt imm) = imm := by
  apply BitVec.eq_of_getLsbD_eq; intro i hi
  simp only [immOf, encodeI, place, BitVec.getLsbD_extractLsb', BitVec.getLsbD_or, BitVec.getLsbD_shiftLeft,
    BitVec.getLsbD_setWidth]
  interval_cases i <;> simp

/-! ## The J format -/

@[simp] theorem opOf_encodeJ (op : BitVec 6) (target : BitVec 26) : opOf (encodeJ op target) = op := by
  apply BitVec.eq_of_getLsbD_eq; intro i hi
  simp only [opOf, encodeJ, place, BitVec.getLsbD_extractLsb', BitVec.getLsbD_or, BitVec.getLsbD_shiftLeft,
    BitVec.getLsbD_setWidth]
  interval_cases i <;> simp

@[simp] theorem targetOf_encodeJ (op : BitVec 6) (target : BitVec 26) : targetOf (encodeJ op target) = target := by
  apply BitVec.eq_of_getLsbD_eq; intro i hi
  simp only [targetOf, encodeJ, place, BitVec.getLsbD_extractLsb', BitVec.getLsbD_or, BitVec.getLsbD_shiftLeft,
    BitVec.getLsbD_setWidth]
  interval_cases i <;> simp

/-! ## The C0 format -/

@[simp] theorem opOf_encodeC0 (sub rt rd : Reg) : opOf (encodeC0 sub rt rd) = 0x10#6 := by
  apply BitVec.eq_of_getLsbD_eq; intro i hi
  simp only [opOf, encodeC0, place, BitVec.getLsbD_extractLsb', BitVec.getLsbD_or, BitVec.getLsbD_shiftLeft,
    BitVec.getLsbD_setWidth]
  interval_cases i <;> simp

@[simp] theorem rsOf_encodeC0 (sub rt rd : Reg) : rsOf (encodeC0 sub rt rd) = sub := by
  apply BitVec.eq_of_getLsbD_eq; intro i hi
  simp only [rsOf, encodeC0, place, BitVec.getLsbD_extractLsb', BitVec.getLsbD_or, BitVec.getLsbD_shiftLeft,
    BitVec.getLsbD_setWidth]
  interval_cases i <;> simp

@[simp] theorem rtOf_encodeC0 (sub rt rd : Reg) : rtOf (encodeC0 sub rt rd) = rt := by
  apply BitVec.eq_of_getLsbD_eq; intro i hi
  simp only [rtOf, encodeC0, place, BitVec.getLsbD_extractLsb', BitVec.getLsbD_or, BitVec.getLsbD_shiftLeft,
    BitVec.getLsbD_setWidth]
  interval_cases i <;> simp

@[simp] theorem rdOf_encodeC0 (sub rt rd : Reg) : rdOf (encodeC0 sub rt rd) = rd := by
  apply BitVec.eq_of_getLsbD_eq; intro i hi
  simp only [rdOf, encodeC0, place, BitVec.getLsbD_extractLsb', BitVec.getLsbD_or, BitVec.getLsbD_shiftLeft,
    BitVec.getLsbD_setWidth]
  interval_cases i <;> simp

@[simp] theorem saOf_encodeC0 (sub rt rd : Reg) : saOf (encodeC0 sub rt rd) = 0 := by
  apply BitVec.eq_of_getLsbD_eq; intro i hi
  simp only [saOf, encodeC0, place, BitVec.getLsbD_extractLsb', BitVec.getLsbD_or, BitVec.getLsbD_shiftLeft,
    BitVec.getLsbD_setWidth]
  interval_cases i <;> simp

@[simp] theorem functOf_encodeC0 (sub rt rd : Reg) : functOf (encodeC0 sub rt rd) = 0 := by
  apply BitVec.eq_of_getLsbD_eq; intro i hi
  simp only [functOf, encodeC0, place, BitVec.getLsbD_extractLsb', BitVec.getLsbD_or, BitVec.getLsbD_shiftLeft,
    BitVec.getLsbD_setWidth]
  interval_cases i <;> simp

/-! ## The fixed bits of a row keep the fixed fields -/

theorem encodeR_mask_FC0007FF (rs rt rd : Reg) (sa : BitVec 5) (funct : BitVec 6) :
    encodeR rs rt rd sa funct &&& 0xFC0007FF#32 = encodeR 0 0 0 sa funct := by
  apply BitVec.eq_of_getLsbD_eq; intro i hi
  simp only [encodeR, place, BitVec.getLsbD_and, BitVec.getLsbD_or, BitVec.getLsbD_shiftLeft, BitVec.getLsbD_setWidth]
  interval_cases i <;> simp

theorem encodeR_mask_FFE0003F (rs rt rd : Reg) (sa : BitVec 5) (funct : BitVec 6) :
    encodeR rs rt rd sa funct &&& 0xFFE0003F#32 = encodeR rs 0 0 0 funct := by
  apply BitVec.eq_of_getLsbD_eq; intro i hi
  simp only [encodeR, place, BitVec.getLsbD_and, BitVec.getLsbD_or, BitVec.getLsbD_shiftLeft, BitVec.getLsbD_setWidth]
  interval_cases i <;> simp

theorem encodeR_mask_FC1FFFFF (rs rt rd : Reg) (sa : BitVec 5) (funct : BitVec 6) :
    encodeR rs rt rd sa funct &&& 0xFC1FFFFF#32 = encodeR 0 rt rd sa funct := by
  apply BitVec.eq_of_getLsbD_eq; intro i hi
  simp only [encodeR, place, BitVec.getLsbD_and, BitVec.getLsbD_or, BitVec.getLsbD_shiftLeft, BitVec.getLsbD_setWidth]
  interval_cases i <;> simp

theorem encodeR_mask_FC1F07FF (rs rt rd : Reg) (sa : BitVec 5) (funct : BitVec 6) :
    encodeR rs rt rd sa funct &&& 0xFC1F07FF#32 = encodeR 0 rt 0 sa funct := by
  apply BitVec.eq_of_getLsbD_eq; intro i hi
  simp only [encodeR, place, BitVec.getLsbD_and, BitVec.getLsbD_or, BitVec.getLsbD_shiftLeft, BitVec.getLsbD_setWidth]
  interval_cases i <;> simp

theorem encodeI_mask_FC000000 (op : BitVec 6) (rs rt : Reg) (imm : Half) :
    encodeI op rs rt imm &&& 0xFC000000#32 = encodeI op 0 0 0 := by
  apply BitVec.eq_of_getLsbD_eq; intro i hi
  simp only [encodeI, place, BitVec.getLsbD_and, BitVec.getLsbD_or, BitVec.getLsbD_shiftLeft, BitVec.getLsbD_setWidth]
  interval_cases i <;> simp

theorem encodeI_mask_FC1F0000 (op : BitVec 6) (rs rt : Reg) (imm : Half) :
    encodeI op rs rt imm &&& 0xFC1F0000#32 = encodeI op 0 rt 0 := by
  apply BitVec.eq_of_getLsbD_eq; intro i hi
  simp only [encodeI, place, BitVec.getLsbD_and, BitVec.getLsbD_or, BitVec.getLsbD_shiftLeft, BitVec.getLsbD_setWidth]
  interval_cases i <;> simp

theorem encodeI_mask_FFE00000 (op : BitVec 6) (rs rt : Reg) (imm : Half) :
    encodeI op rs rt imm &&& 0xFFE00000#32 = encodeI op rs 0 0 := by
  apply BitVec.eq_of_getLsbD_eq; intro i hi
  simp only [encodeI, place, BitVec.getLsbD_and, BitVec.getLsbD_or, BitVec.getLsbD_shiftLeft, BitVec.getLsbD_setWidth]
  interval_cases i <;> simp

theorem encodeJ_mask_FC000000 (op : BitVec 6) (target : BitVec 26) :
    encodeJ op target &&& 0xFC000000#32 = encodeJ op 0 := by
  apply BitVec.eq_of_getLsbD_eq; intro i hi
  simp only [encodeJ, place, BitVec.getLsbD_and, BitVec.getLsbD_or, BitVec.getLsbD_shiftLeft, BitVec.getLsbD_setWidth]
  interval_cases i <;> simp

theorem encodeC0_mask_FFE007FF (sub rt rd : Reg) :
    encodeC0 sub rt rd &&& 0xFFE007FF#32 = encodeC0 sub 0 0 := by
  apply BitVec.eq_of_getLsbD_eq; intro i hi
  simp only [encodeC0, place, BitVec.getLsbD_and, BitVec.getLsbD_or, BitVec.getLsbD_shiftLeft, BitVec.getLsbD_setWidth]
  interval_cases i <;> simp

/-! ## A word is made of its fields -/

theorem encodeR_fields (w : Word) (h : opOf w = 0x00#6) :
    encodeR (rsOf w) (rtOf w) (rdOf w) (saOf w) (functOf w) = w := by
  have ho : ∀ i, (opOf w).getLsbD i = false := by simp [h]
  simp only [opOf, BitVec.getLsbD_extractLsb'] at ho
  apply BitVec.eq_of_getLsbD_eq; intro i hi
  have hk := ho (i - 26)
  simp only [encodeR, rsOf, rtOf, rdOf, saOf, functOf, place, BitVec.getLsbD_extractLsb', BitVec.getLsbD_or,
    BitVec.getLsbD_shiftLeft, BitVec.getLsbD_setWidth] at hk ⊢
  interval_cases i <;> simp_all

theorem encodeI_fields (w : Word) : encodeI (opOf w) (rsOf w) (rtOf w) (immOf w) = w := by
  apply BitVec.eq_of_getLsbD_eq; intro i hi
  simp only [encodeI, opOf, rsOf, rtOf, immOf, place, BitVec.getLsbD_extractLsb', BitVec.getLsbD_or,
    BitVec.getLsbD_shiftLeft, BitVec.getLsbD_setWidth]
  interval_cases i <;> simp

theorem encodeJ_fields (w : Word) : encodeJ (opOf w) (targetOf w) = w := by
  apply BitVec.eq_of_getLsbD_eq; intro i hi
  simp only [encodeJ, opOf, targetOf, place, BitVec.getLsbD_extractLsb', BitVec.getLsbD_or, BitVec.getLsbD_shiftLeft,
    BitVec.getLsbD_setWidth]
  interval_cases i <;> simp

theorem encodeC0_fields (w : Word) (h : opOf w = 0x10#6) (hs : saOf w = 0) (hf : functOf w = 0) :
    encodeC0 (rsOf w) (rtOf w) (rdOf w) = w := by
  have ho : ∀ i, (opOf w).getLsbD i = (0x10#6).getLsbD i := by simp [h]
  have hs' : ∀ i, (saOf w).getLsbD i = false := by simp [hs]
  have hf' : ∀ i, (functOf w).getLsbD i = false := by simp [hf]
  simp only [opOf, saOf, functOf, BitVec.getLsbD_extractLsb'] at ho hs' hf'
  apply BitVec.eq_of_getLsbD_eq; intro i hi
  have h1 := ho (i - 26)
  have h2 := hs' (i - 6)
  have h3 := hf' i
  simp only [encodeC0, rsOf, rtOf, rdOf, place, BitVec.getLsbD_extractLsb', BitVec.getLsbD_or,
    BitVec.getLsbD_shiftLeft, BitVec.getLsbD_setWidth] at h1 h2 h3 ⊢
  interval_cases i <;> simp_all

/-! ## Bytes of words -/

@[simp] theorem wordOfBytes_of_word (w : Word) :
    wordOfBytes (w.extractLsb' 24 8) (w.extractLsb' 16 8) (w.extractLsb' 8 8) (w.extractLsb' 0 8) = w := by
  apply BitVec.eq_of_getLsbD_eq; intro i hi
  simp only [wordOfBytes, place, BitVec.getLsbD_extractLsb', BitVec.getLsbD_or, BitVec.getLsbD_shiftLeft,
    BitVec.getLsbD_setWidth]
  interval_cases i <;> simp

theorem bytesOfWord_wordOfBytes (b0 b1 b2 b3 : Byte) : bytesOfWord (wordOfBytes b0 b1 b2 b3) = [b0, b1, b2, b3] := by
  simp only [bytesOfWord, List.cons.injEq, and_true]
  refine ⟨?_, ?_, ?_, ?_⟩ <;>
  · apply BitVec.eq_of_getLsbD_eq; intro i hi
    simp only [wordOfBytes, place, BitVec.getLsbD_extractLsb', BitVec.getLsbD_or, BitVec.getLsbD_shiftLeft,
      BitVec.getLsbD_setWidth]
    interval_cases i <;> simp

@[simp] theorem length_bytesOfWord (w : Word) : (bytesOfWord w).length = 4 := rfl

end Sys2Proof
end

