-- ==== Sys2Proof/Laws/Invariant.lean ====
section
/-! SUPPORT. The updates of the state that keep the invariant. -/

namespace Sys2Proof.Machine

variable {s : State}

/-! ## Values -/

/-- A value that is the sign extension of its low 32 bits. -/
abbrev isSext (v : DWord) : Prop := v = sext64 (low32 v)

theorem isSext_sext64 (w : Word) : isSext (sext64 w) := by
  show sext64 w = sext64 (low32 (sext64 w))
  congr 1
  apply BitVec.eq_of_getLsbD_eq; intro i hi
  simp only [low32, sext64, BitVec.getLsbD_setWidth, BitVec.getLsbD_signExtend, hi, show i < 64 by omega, if_true,
    decide_true, Bool.true_and]

/-- A sign extension, bit by bit: the bits from 31 up are alike. -/
theorem isSext_iff (v : DWord) : isSext v ↔ ∀ k, 31 ≤ k → k < 64 → v.getLsbD k = v.getLsbD 31 := by
  constructor
  · intro h k h1 h2
    have e : ∀ j, j < 64 → v.getLsbD j = if j < 32 then v.getLsbD j else v.getLsbD 31 := fun j hj => by
      conv_lhs => rw [h]
      simp only [low32, sext64, BitVec.getLsbD_setWidth, BitVec.getLsbD_signExtend, hj, BitVec.msb_eq_getLsbD_last,
        decide_true, Bool.true_and, show 32 - 1 < 32 by omega]
      by_cases h3 : j < 32 <;> simp only [h3, if_true, if_false, decide_true, Bool.true_and]
    rw [e k h2]
    split
    · rw [show k = 31 by omega]
    · rfl
  · intro h
    apply BitVec.eq_of_getLsbD_eq; intro i hi
    simp only [low32, sext64, BitVec.getLsbD_signExtend, hi, BitVec.msb_eq_getLsbD_last]
    by_cases h2 : i < 32
    · simp [h2]
    · simp [h2, h i (by omega) hi]

theorem isSext_and {a b : DWord} (ha : isSext a) (hb : isSext b) : isSext (a &&& b) :=
  (isSext_iff _).2 fun k h1 h2 => by
    simp only [BitVec.getLsbD_and, (isSext_iff a).1 ha k h1 h2, (isSext_iff b).1 hb k h1 h2]

theorem isSext_or {a b : DWord} (ha : isSext a) (hb : isSext b) : isSext (a ||| b) :=
  (isSext_iff _).2 fun k h1 h2 => by
    simp only [BitVec.getLsbD_or, (isSext_iff a).1 ha k h1 h2, (isSext_iff b).1 hb k h1 h2]

theorem isSext_xor {a b : DWord} (ha : isSext a) (hb : isSext b) : isSext (a ^^^ b) :=
  (isSext_iff _).2 fun k h1 h2 => by
    simp only [BitVec.getLsbD_xor, (isSext_iff a).1 ha k h1 h2, (isSext_iff b).1 hb k h1 h2]

theorem isSext_not {a : DWord} (ha : isSext a) : isSext (~~~a) :=
  (isSext_iff _).2 fun k h1 h2 => by
    simp only [BitVec.getLsbD_not, (isSext_iff a).1 ha k h1 h2, h2]; simp

theorem isSext_zimm64 (imm : Half) : isSext (zimm64 imm) :=
  (isSext_iff _).2 fun k h1 _ => by
    simp only [zimm64, BitVec.getLsbD_setWidth, BitVec.getLsbD_of_ge imm k (by omega),
      BitVec.getLsbD_of_ge imm 31 (by omega), Bool.and_false]

theorem isSext_boolValue (c : Bool) : isSext (boolValue c) := by cases c <;> decide

theorem isSext_signExtend {n : Nat} (hn : n ≤ 32) (v : BitVec n) : isSext (v.signExtend 64) :=
  (isSext_iff _).2 fun k h1 h2 => by
    simp only [BitVec.getLsbD_signExtend, h2, show (31 : Nat) < 64 by omega, decide_true, Bool.true_and]
    by_cases h : n ≤ 31
    · simp [show ¬k < n by omega, show ¬31 < n by omega]
    · have : n = 32 := by omega
      subst this
      by_cases h3 : k < 32
      · have : k = 31 := by omega
        subst this; rfl
      · simp [h3, BitVec.msb_eq_getLsbD_last]

theorem isSext_setWidth {n : Nat} (hn : n < 32) (v : BitVec n) : isSext (v.setWidth 64) :=
  (isSext_iff _).2 fun k h1 _ => by
    simp only [BitVec.getLsbD_setWidth, BitVec.getLsbD_of_ge v k (by omega), BitVec.getLsbD_of_ge v 31 (by omega),
      Bool.and_false]

/-! ## Alignment -/

theorem add4_aligned {a : Addr} (h : a.toNat % 4 = 0) : (a + 4#32).toNat % 4 = 0 := by
  rw [BitVec.toNat_add]; simp; omega

theorem branchTarget_aligned {pc : Addr} (h : pc.toNat % 4 = 0) (imm : Half) : (branchTarget pc imm).toNat % 4 = 0 := by
  rw [branchTarget, BitVec.toNat_add, BitVec.toNat_add, BitVec.toNat_shiftLeft]; simp [Nat.shiftLeft_eq]; omega

theorem jumpTarget_aligned (pc : Addr) (target : BitVec 26) : (jumpTarget pc target).toNat % 4 = 0 := by
  have h : (jumpTarget pc target).extractLsb' 0 2 = 0#2 := by
    apply BitVec.eq_of_getLsbD_eq; intro i hi
    simp only [jumpTarget, BitVec.getLsbD_extractLsb', BitVec.getLsbD_or, BitVec.getLsbD_and, BitVec.getLsbD_shiftLeft]
    interval_cases i <;> simp
  have := congrArg BitVec.toNat h
  simpa using this

theorem seqNext_aligned (h : s.Inv) : s.seqNext.toNat % 4 = 0 := by
  unfold State.seqNext
  split
  · exact h.delayAligned _ (by assumption)
  · exact add4_aligned h.pcAligned

/-! ## Status and Cause -/

theorem statusBits_mtc0Status (v : Word) : mtc0Status v &&& ~~~0x0000FF03#32 = 0 := by
  rw [mtc0Status, BitVec.and_assoc]; simp

theorem bits_withField {w mask v keep : Word} (h : w &&& keep = 0) (hv : mask &&& keep = 0) :
    withField w mask v &&& keep = 0 := by
  apply BitVec.eq_of_getLsbD_eq; intro i hi
  have h1 := congrArg (·.getLsbD i) h
  have h2 := congrArg (·.getLsbD i) hv
  simp only [BitVec.getLsbD_and, getLsbD_withField] at h1 h2 ⊢
  by_cases hm : mask.getLsbD i = true
  · simp_all
  · simp_all

theorem statusBits_setEXL {w : Word} (h : w &&& ~~~0x0000FF03#32 = 0) : setEXL w &&& ~~~0x0000FF03#32 = 0 :=
  bits_withField h (by decide)

theorem statusBits_clearEXL {w : Word} (h : w &&& ~~~0x0000FF03#32 = 0) : clearEXL w &&& ~~~0x0000FF03#32 = 0 :=
  bits_withField h (by decide)

theorem causeBits_setExcCode {w : Word} (c : BitVec 5) (h : w &&& ~~~0x8000FF7C#32 = 0) :
    setExcCode w c &&& ~~~0x8000FF7C#32 = 0 :=
  bits_withField h (by decide)

theorem causeBits_setBD {w : Word} (b : Bool) (h : w &&& ~~~0x8000FF7C#32 = 0) : setBD w b &&& ~~~0x8000FF7C#32 = 0 :=
  bits_withField h (by decide)

theorem causeBits_setIP2 {w : Word} (h : w &&& ~~~0x8000FF7C#32 = 0) : setIP2 w &&& ~~~0x8000FF7C#32 = 0 :=
  bits_withField h (by decide)

theorem causeBits_mtc0Cause {w : Word} (v : Word) (h : w &&& ~~~0x8000FF7C#32 = 0) :
    mtc0Cause w v &&& ~~~0x8000FF7C#32 = 0 :=
  bits_withField h (by decide)

/-! ## The updates -/

theorem Inv_isSext (h : s.Inv) (r : Reg) : isSext (s.reg r) := h.regsSext r

theorem Inv_setReg (h : s.Inv) (r : Reg) {v : DWord} (hv : isSext v) : (s.setReg r v).Inv := by
  by_cases hr : r = 0#5
  · subst hr; exact h
  · have e : s.setReg r v = { s with regs := s.regs.set r.toNat v r.isLt } := by simp [State.setReg, hr]
    have hz : (s.regs.set r.toNat v r.isLt)[0] = 0 := by
      rw [Vector.getElem_set_ne _ _ (by
        intro h0; exact hr (BitVec.eq_of_toNat_eq (by simpa using h0)))]
      exact h.slotZero
    rw [e]
    refine { h with slotZero := hz, regsSext := fun q => ?_ }
    rw [← e]
    by_cases hq : q = r
    · subst hq
      have := State.reg_setReg_self s q v
      rw [if_neg hr] at this
      rw [State.low, this]; exact hv
    · rw [State.low, State.reg_setReg_of_ne s v hq]; exact h.regsSext q

theorem Inv_finish (h : s.Inv) : s.finish.Inv :=
  { h with pcAligned := seqNext_aligned h, delayAligned := fun t ht => by simp [State.finish] at ht }

theorem Inv_transfer (h : s.Inv) {d : Delay} (hd : ∀ t, d = .taken t → t.toNat % 4 = 0) : (s.transfer d).Inv :=
  { h with pcAligned := add4_aligned h.pcAligned, delayAligned := hd }

theorem Inv_branch (h : s.Inv) (c : Bool) (imm : Half) : (s.branch c imm).Inv :=
  Inv_transfer h fun t ht => by
    split at ht
    · cases ht; exact branchTarget_aligned h.pcAligned imm
    · cases ht

theorem Inv_emit (h : s.Inv) (o : Output) : (s.emit o).Inv := { h with }

theorem exceptionVector_aligned {c : Config} (h : c.wellFormed = true) : c.exceptionVector.toNat % 4 = 0 := by
  simp only [Config.wellFormed, Config.exceptionVectorOk, Bool.and_eq_true, beq_iff_eq] at h
  omega

theorem entryVector_aligned {c : Config} (h : c.wellFormed = true) : c.entryVector.toNat % 4 = 0 := by
  simp only [Config.wellFormed, Config.entryVectorOk, Bool.and_eq_true, beq_iff_eq] at h
  omega

theorem Inv_trapEntry (h : s.Inv) {code : BitVec 5} (hc : code = excInt ∨ code = excOv) (resume : Addr) (inDS : Bool) :
    (s.trapEntry code resume inDS).Inv :=
  { h with
    pcAligned := exceptionVector_aligned h.cfgOk
    delayAligned := fun t ht => by simp [State.trapEntry] at ht
    statusBits := statusBits_setEXL h.statusBits
    causeBits := by
      show setExcCode _ code &&& _ = 0
      refine causeBits_setExcCode code ?_
      split
      · exact h.causeBits
      · exact causeBits_setBD inDS h.causeBits
    excCode := by
      show causeExcCode (setExcCode _ code) = _ ∨ causeExcCode (setExcCode _ code) = _
      rw [causeExcCode_setExcCode]; exact hc }

theorem RegionsAligned_of_Inv (h : s.Inv) : s.RegionsAligned := by
  have := h.cfgOk
  simp only [Config.wellFormed, Config.ramSizeOk, Config.cartridgeBaseOk, Bool.and_eq_true, beq_iff_eq] at this
  exact ⟨by omega, by omega, h.romAligned⟩

theorem Inv_ramWrite (h : s.Inv) {o : Nat} {bs : List Byte} (ho : o + bs.length ≤ s.cfg.ramSize) :
    ({ s with ram := s.ram.writeBytes o bs } : State).Inv :=
  { h with ramWf := Memory.wf_writeBytes h.ramWf o bs, ramBelow := Memory.below_writeBytes h.ramBelow ho }

theorem Inv_memWrite (h : s.Inv) {a : Addr} {w : Width} {v : Word} {t : State} (ht : s.memWrite a w v = .ok t) : t.Inv := by
  rcases memWrite_cases (s := s) a w v with ⟨f, -, e⟩ | ⟨o, ha, e⟩ | ⟨o, -, e⟩ <;> rw [e] at ht
  · cases ht
  · cases ht
    obtain ⟨h1, h2⟩ := (access_ok_iff a w _).1 ha
    obtain ⟨h3, rfl⟩ := (place_ram_iff a o).1 h2
    have h4 := (RegionsAligned_of_Inv h).ramAligned
    refine Inv_ramWrite h ?_
    rw [length_storedBytes]
    rcases (show w.bytes = 1 ∨ w.bytes = 2 ∨ w.bytes = 4 by cases w <;> simp [Width.bytes]) with hq | hq | hq <;>
      rw [hq] at h1 ⊢ <;> omega
  · cases ht; exact h

end Sys2Proof.Machine
end

