-- ==== Sys2Proof/Laws/Host.lean ====
section
/-! SUPPORT. What the host's requests, the coprocessors' phases and a step can do, said once. -/

namespace Sys2Proof.Machine

variable {s : State}

/-! ## Requests -/

theorem loadCartridge_of_ok {bytes : List Byte} (h : cartridgeOk s.cfg bytes = true) :
    s.loadCartridge bytes =
      { s with rom := Memory.ofBytes bytes, romSize := bytes.length, outputs := s.outputs ++ [.reply .done] } := by
  simp [State.loadCartridge, h, State.reply, State.emit]

theorem loadCartridge_of_bad {bytes : List Byte} (h : cartridgeOk s.cfg bytes = false) :
    s.loadCartridge bytes = { s with outputs := s.outputs ++ [.reply .invalidCartridge] } := by
  simp [State.loadCartridge, h, State.reply, State.emit]

theorem cartridgeOk_iff (c : Config) (bytes : List Byte) :
    cartridgeOk c bytes = true ↔
      bytes.length % 4 = 0 ∧ c.headerSize ≤ bytes.length ∧ c.cartridgeBase.toNat + bytes.length ≤ 2 ^ 32 := by
  simp only [cartridgeOk, Bool.and_eq_true, beq_iff_eq, decide_eq_true_eq, and_assoc]

theorem applyCheat_of_ok {address value : Word} (h : cheatOk s.cfg address = true) :
    s.applyCheat address value =
      { s with ram := s.ram.writeBytes address.toNat (bytesOfWord value), outputs := s.outputs ++ [.reply .done] } := by
  simp [State.applyCheat, h, State.reply, State.emit]

theorem applyCheat_of_bad {address value : Word} (h : cheatOk s.cfg address = false) :
    s.applyCheat address value = { s with outputs := s.outputs ++ [.reply .invalidAddress] } := by
  simp [State.applyCheat, h, State.reply, State.emit]

theorem cheatOk_iff (c : Config) (address : Word) :
    cheatOk c address = true ↔ address.toNat % 4 = 0 ∧ address.toNat + 4 ≤ c.ramSize := by
  simp only [cheatOk, Bool.and_eq_true, beq_iff_eq, decide_eq_true_eq]

/-- What every configuration that keeps its constraints has (00_scope.md R5). -/
theorem wellFormed_facts {c : Config} (h : c.wellFormed = true) :
    c.ramSize % 4 = 0 ∧ 4 ≤ c.ramSize ∧ c.ramSize ≤ c.cartridgeBase.toNat ∧ c.cartridgeBase.toNat % 4 = 0 ∧
      4 ≤ c.headerSize ∧ c.mailboxAddr.toNat + 12 ≤ c.ramSize ∧ 1 ≤ c.insnBudget := by
  simp only [Config.wellFormed, Config.ramSizeOk, Config.cartridgeBaseOk, Config.headerSizeOk, Config.mailboxAddrOk,
    Config.insnBudgetOk, Bool.and_eq_true, beq_iff_eq, decide_eq_true_eq] at h
  omega

/-! ## Phases -/

/-- The signal coprocessor does nothing or completes one task. -/
theorem spStepWith_cases (process : SpProcess) :
    s.mailboxWord 0 = 0 ∧ s.spStepWith process = s ∨
      s.mailboxWord 0 ≠ 0 ∧ s.spStepWith process =
        s.completeTask (process s.sp.image s.ram.cells (s.mailboxWord 4) (s.mailboxWord 8)) := by
  unfold State.spStepWith; split
  · exact .inl ⟨by assumption, rfl⟩
  · exact .inr ⟨by assumption, rfl⟩

theorem wf_spWrites {n : Nat} {m : Memory} (h : m.wf) (ws : List (Nat × Byte)) : (spWrites n m ws).wf := by
  induction ws generalizing m with
  | nil => exact h
  | cons w ws ih =>
    refine ih ?_
    split
    · exact Memory.wf_write h _ _
    · exact h

theorem below_spWrites {n : Nat} {m : Memory} (h : m.below n) (ws : List (Nat × Byte)) : (spWrites n m ws).below n := by
  induction ws generalizing m with
  | nil => exact h
  | cons w ws ih =>
    refine ih ?_
    split
    · exact Memory.below_write h (by assumption) _
    · exact h

theorem length_overwriteControllers (old new : List Controller) : (overwriteControllers old new).length = old.length := by
  induction old generalizing new with
  | nil => rfl
  | cons c old ih =>
    cases new with
    | nil => rfl
    | cons d new => simp [overwriteControllers, ih]

theorem getElem?_overwriteControllers (old new : List Controller) {k : Nat} (h : k < old.length) :
    (overwriteControllers old new)[k]? = if k < new.length then new[k]? else old[k]? := by
  induction old generalizing new k with
  | nil => simp at h
  | cons c old ih =>
    cases new with
    | nil => simp [overwriteControllers]
    | cons d new =>
      cases k with
      | zero => simp [overwriteControllers]
      | succ k =>
        simp only [List.length_cons] at h
        simp [overwriteControllers, ih new (show k < old.length by omega)]

/-! ## A step -/

/-- A step that answers a next state runs under a good configuration. -/
theorem step_next {t : State} (h : step s = .next t) : s.cfg.wellFormed = true ∧ s.turn = .next t := by
  unfold step at h; split at h <;> simp_all

/-- At the processor's turn a step is the processor's turn. -/
theorem step_of_processorsTurn {k : Nat} (h : ProcessorsTurn s k) : step s = s.processorTurn := by
  obtain ⟨hc, hl, hp, hr⟩ := h
  have e : s.loopTurn = s.processorTurn := by simp [State.loopTurn, hl, State.macroStepTurn, hp]
  simp only [step, hc, if_true, State.turn, e]
  split
  · rename_i hb
    have : k = 0 := by simpa [State.atBoundary, hl, hp] using hb
    rw [hr this]
  · rfl

theorem not_interrupted (h : NoInterrupt s) : ¬(s.delay = .none ∧ s.interruptPending = true) := by
  rintro ⟨h1, h2⟩
  rcases h with h | h
  · exact h h1
  · rw [h] at h2; cases h2

/-- Where no interrupt is taken, the processor's step halts with its fetch, treats a word that does not decode as
unsupported, and executes one that does. -/
theorem processorStep_of_fetchError (h : NoInterrupt s) {f : Fault} (hf : s.readWord s.pc = .error f) :
    processorStep s = .fault f := by
  simp only [processorStep, not_interrupted h, if_false, State.fetch, hf]

theorem processorStep_of_unsupported (h : NoInterrupt s) {w : Word} (hw : s.readWord s.pc = .ok w)
    (hd : decode w = none) : processorStep s = s.unsupportedWord w := by
  simp only [processorStep, not_interrupted h, if_false, State.fetch, hw, hd]

theorem processorStep_of_decoded (h : NoInterrupt s) {w : Word} {i : Instr} (hw : s.readWord s.pc = .ok w)
    (hd : decode w = some i) : processorStep s = exec i s := by
  simp only [processorStep, not_interrupted h, if_false, State.fetch, hw, hd]

/-- The three things a processor's step can be: the interrupt, a step of a word that does not decode, or of one that does,
or the halt of its fetch. -/
theorem processorStep_cases :
    (s.delay = .none ∧ s.interruptPending = true ∧ processorStep s = .next s.takeInterrupt) ∨
      (NoInterrupt s ∧ ((∃ f, s.readWord s.pc = .error f ∧ processorStep s = .fault f) ∨
        ∃ w, s.readWord s.pc = .ok w ∧
          (decode w = none ∧ processorStep s = s.unsupportedWord w ∨
            ∃ i, decode w = some i ∧ processorStep s = exec i s))) := by
  by_cases h : s.delay = .none ∧ s.interruptPending = true
  · exact .inl ⟨h.1, h.2, by simp [processorStep, h]⟩
  · have hn : NoInterrupt s := by
      by_cases hd : s.delay = .none
      · exact .inr (by simpa [hd] using h)
      · exact .inl hd
    refine .inr ⟨hn, ?_⟩
    cases hr : s.readWord s.pc with
    | error f => exact .inl ⟨f, rfl, processorStep_of_fetchError hn hr⟩
    | ok w =>
      cases hd : decode w with
      | none => exact .inr ⟨w, rfl, .inl ⟨hd, processorStep_of_unsupported hn hr hd⟩⟩
      | some i => exact .inr ⟨w, rfl, .inr ⟨i, hd, processorStep_of_decoded hn hr hd⟩⟩

end Sys2Proof.Machine
end

