-- ==== Sys2Proof/Laws/PerInstr.lean ====
section
/-! SUPPORT. The family OpcodeRow: the word of an instruction matches the row of opcode_table.json that carries its
mnemonic (30_encoding.md R89, R90), one lemma per constructor. -/

namespace Sys2Proof.Laws.OpcodeRow

/-- The word of `i` matches the row with the mnemonic of `i`. -/
def Statement (i : Instr) : Prop := ∃ r ∈ opcodeTable, r.mnemonic = i.mnemonic ∧ r.covers (encode i) = true

/-- A row of the table with the instruction's mnemonic, whose fixed bits the word has. -/
theorem of_row {i : Instr} (r : OpcodeRow) (hr : r ∈ opcodeTable) (hm : r.mnemonic = i.mnemonic)
    (h : encode i &&& r.mask = r.pattern) : Statement i := ⟨r, hr, hm, beq_iff_eq.2 h⟩

theorem add (rd rs rt : Reg) : Statement (.add rd rs rt) :=
  of_row ⟨"ADD", 0xFC0007FF#32, 0x00000020#32⟩ (by decide) rfl ((encodeR_mask_FC0007FF ..).trans (by decide))

theorem addu (rd rs rt : Reg) : Statement (.addu rd rs rt) :=
  of_row ⟨"ADDU", 0xFC0007FF#32, 0x00000021#32⟩ (by decide) rfl ((encodeR_mask_FC0007FF ..).trans (by decide))

theorem sub (rd rs rt : Reg) : Statement (.sub rd rs rt) :=
  of_row ⟨"SUB", 0xFC0007FF#32, 0x00000022#32⟩ (by decide) rfl ((encodeR_mask_FC0007FF ..).trans (by decide))

theorem subu (rd rs rt : Reg) : Statement (.subu rd rs rt) :=
  of_row ⟨"SUBU", 0xFC0007FF#32, 0x00000023#32⟩ (by decide) rfl ((encodeR_mask_FC0007FF ..).trans (by decide))

theorem and (rd rs rt : Reg) : Statement (.and rd rs rt) :=
  of_row ⟨"AND", 0xFC0007FF#32, 0x00000024#32⟩ (by decide) rfl ((encodeR_mask_FC0007FF ..).trans (by decide))

theorem or (rd rs rt : Reg) : Statement (.or rd rs rt) :=
  of_row ⟨"OR", 0xFC0007FF#32, 0x00000025#32⟩ (by decide) rfl ((encodeR_mask_FC0007FF ..).trans (by decide))

theorem xor (rd rs rt : Reg) : Statement (.xor rd rs rt) :=
  of_row ⟨"XOR", 0xFC0007FF#32, 0x00000026#32⟩ (by decide) rfl ((encodeR_mask_FC0007FF ..).trans (by decide))

theorem nor (rd rs rt : Reg) : Statement (.nor rd rs rt) :=
  of_row ⟨"NOR", 0xFC0007FF#32, 0x00000027#32⟩ (by decide) rfl ((encodeR_mask_FC0007FF ..).trans (by decide))

theorem slt (rd rs rt : Reg) : Statement (.slt rd rs rt) :=
  of_row ⟨"SLT", 0xFC0007FF#32, 0x0000002A#32⟩ (by decide) rfl ((encodeR_mask_FC0007FF ..).trans (by decide))

theorem sltu (rd rs rt : Reg) : Statement (.sltu rd rs rt) :=
  of_row ⟨"SLTU", 0xFC0007FF#32, 0x0000002B#32⟩ (by decide) rfl ((encodeR_mask_FC0007FF ..).trans (by decide))

theorem sll (rd rt : Reg) (sa : BitVec 5) : Statement (.sll rd rt sa) :=
  of_row ⟨"SLL", 0xFFE0003F#32, 0x00000000#32⟩ (by decide) rfl ((encodeR_mask_FFE0003F ..).trans (by decide))

theorem srl (rd rt : Reg) (sa : BitVec 5) : Statement (.srl rd rt sa) :=
  of_row ⟨"SRL", 0xFFE0003F#32, 0x00000002#32⟩ (by decide) rfl ((encodeR_mask_FFE0003F ..).trans (by decide))

theorem sra (rd rt : Reg) (sa : BitVec 5) : Statement (.sra rd rt sa) :=
  of_row ⟨"SRA", 0xFFE0003F#32, 0x00000003#32⟩ (by decide) rfl ((encodeR_mask_FFE0003F ..).trans (by decide))

theorem sllv (rd rt rs : Reg) : Statement (.sllv rd rt rs) :=
  of_row ⟨"SLLV", 0xFC0007FF#32, 0x00000004#32⟩ (by decide) rfl ((encodeR_mask_FC0007FF ..).trans (by decide))

theorem srlv (rd rt rs : Reg) : Statement (.srlv rd rt rs) :=
  of_row ⟨"SRLV", 0xFC0007FF#32, 0x00000006#32⟩ (by decide) rfl ((encodeR_mask_FC0007FF ..).trans (by decide))

theorem srav (rd rt rs : Reg) : Statement (.srav rd rt rs) :=
  of_row ⟨"SRAV", 0xFC0007FF#32, 0x00000007#32⟩ (by decide) rfl ((encodeR_mask_FC0007FF ..).trans (by decide))

theorem jr (rs : Reg) : Statement (.jr rs) :=
  of_row ⟨"JR", 0xFC1FFFFF#32, 0x00000008#32⟩ (by decide) rfl ((encodeR_mask_FC1FFFFF ..).trans (by decide))

theorem jalr (rd rs : Reg) : Statement (.jalr rd rs) :=
  of_row ⟨"JALR", 0xFC1F07FF#32, 0x00000009#32⟩ (by decide) rfl ((encodeR_mask_FC1F07FF ..).trans (by decide))

theorem j (target : BitVec 26) : Statement (.j target) :=
  of_row ⟨"J", 0xFC000000#32, 0x08000000#32⟩ (by decide) rfl ((encodeJ_mask_FC000000 ..).trans (by decide))

theorem jal (target : BitVec 26) : Statement (.jal target) :=
  of_row ⟨"JAL", 0xFC000000#32, 0x0C000000#32⟩ (by decide) rfl ((encodeJ_mask_FC000000 ..).trans (by decide))

theorem beq (rs rt : Reg) (imm : Half) : Statement (.beq rs rt imm) :=
  of_row ⟨"BEQ", 0xFC000000#32, 0x10000000#32⟩ (by decide) rfl ((encodeI_mask_FC000000 ..).trans (by decide))

theorem bne (rs rt : Reg) (imm : Half) : Statement (.bne rs rt imm) :=
  of_row ⟨"BNE", 0xFC000000#32, 0x14000000#32⟩ (by decide) rfl ((encodeI_mask_FC000000 ..).trans (by decide))

theorem blez (rs : Reg) (imm : Half) : Statement (.blez rs imm) :=
  of_row ⟨"BLEZ", 0xFC1F0000#32, 0x18000000#32⟩ (by decide) rfl ((encodeI_mask_FC1F0000 ..).trans (by decide))

theorem bgtz (rs : Reg) (imm : Half) : Statement (.bgtz rs imm) :=
  of_row ⟨"BGTZ", 0xFC1F0000#32, 0x1C000000#32⟩ (by decide) rfl ((encodeI_mask_FC1F0000 ..).trans (by decide))

theorem bltz (rs : Reg) (imm : Half) : Statement (.bltz rs imm) :=
  of_row ⟨"BLTZ", 0xFC1F0000#32, 0x04000000#32⟩ (by decide) rfl ((encodeI_mask_FC1F0000 ..).trans (by decide))

theorem bgez (rs : Reg) (imm : Half) : Statement (.bgez rs imm) :=
  of_row ⟨"BGEZ", 0xFC1F0000#32, 0x04010000#32⟩ (by decide) rfl ((encodeI_mask_FC1F0000 ..).trans (by decide))

theorem bltzal (rs : Reg) (imm : Half) : Statement (.bltzal rs imm) :=
  of_row ⟨"BLTZAL", 0xFC1F0000#32, 0x04100000#32⟩ (by decide) rfl ((encodeI_mask_FC1F0000 ..).trans (by decide))

theorem bgezal (rs : Reg) (imm : Half) : Statement (.bgezal rs imm) :=
  of_row ⟨"BGEZAL", 0xFC1F0000#32, 0x04110000#32⟩ (by decide) rfl ((encodeI_mask_FC1F0000 ..).trans (by decide))

theorem addi (rt rs : Reg) (imm : Half) : Statement (.addi rt rs imm) :=
  of_row ⟨"ADDI", 0xFC000000#32, 0x20000000#32⟩ (by decide) rfl ((encodeI_mask_FC000000 ..).trans (by decide))

theorem addiu (rt rs : Reg) (imm : Half) : Statement (.addiu rt rs imm) :=
  of_row ⟨"ADDIU", 0xFC000000#32, 0x24000000#32⟩ (by decide) rfl ((encodeI_mask_FC000000 ..).trans (by decide))

theorem slti (rt rs : Reg) (imm : Half) : Statement (.slti rt rs imm) :=
  of_row ⟨"SLTI", 0xFC000000#32, 0x28000000#32⟩ (by decide) rfl ((encodeI_mask_FC000000 ..).trans (by decide))

theorem sltiu (rt rs : Reg) (imm : Half) : Statement (.sltiu rt rs imm) :=
  of_row ⟨"SLTIU", 0xFC000000#32, 0x2C000000#32⟩ (by decide) rfl ((encodeI_mask_FC000000 ..).trans (by decide))

theorem andi (rt rs : Reg) (imm : Half) : Statement (.andi rt rs imm) :=
  of_row ⟨"ANDI", 0xFC000000#32, 0x30000000#32⟩ (by decide) rfl ((encodeI_mask_FC000000 ..).trans (by decide))

theorem ori (rt rs : Reg) (imm : Half) : Statement (.ori rt rs imm) :=
  of_row ⟨"ORI", 0xFC000000#32, 0x34000000#32⟩ (by decide) rfl ((encodeI_mask_FC000000 ..).trans (by decide))

theorem xori (rt rs : Reg) (imm : Half) : Statement (.xori rt rs imm) :=
  of_row ⟨"XORI", 0xFC000000#32, 0x38000000#32⟩ (by decide) rfl ((encodeI_mask_FC000000 ..).trans (by decide))

theorem lui (rt : Reg) (imm : Half) : Statement (.lui rt imm) :=
  of_row ⟨"LUI", 0xFFE00000#32, 0x3C000000#32⟩ (by decide) rfl ((encodeI_mask_FFE00000 ..).trans (by decide))

theorem lb (rt rs : Reg) (imm : Half) : Statement (.lb rt rs imm) :=
  of_row ⟨"LB", 0xFC000000#32, 0x80000000#32⟩ (by decide) rfl ((encodeI_mask_FC000000 ..).trans (by decide))

theorem lbu (rt rs : Reg) (imm : Half) : Statement (.lbu rt rs imm) :=
  of_row ⟨"LBU", 0xFC000000#32, 0x90000000#32⟩ (by decide) rfl ((encodeI_mask_FC000000 ..).trans (by decide))

theorem lh (rt rs : Reg) (imm : Half) : Statement (.lh rt rs imm) :=
  of_row ⟨"LH", 0xFC000000#32, 0x84000000#32⟩ (by decide) rfl ((encodeI_mask_FC000000 ..).trans (by decide))

theorem lhu (rt rs : Reg) (imm : Half) : Statement (.lhu rt rs imm) :=
  of_row ⟨"LHU", 0xFC000000#32, 0x94000000#32⟩ (by decide) rfl ((encodeI_mask_FC000000 ..).trans (by decide))

theorem lw (rt rs : Reg) (imm : Half) : Statement (.lw rt rs imm) :=
  of_row ⟨"LW", 0xFC000000#32, 0x8C000000#32⟩ (by decide) rfl ((encodeI_mask_FC000000 ..).trans (by decide))

theorem sb (rt rs : Reg) (imm : Half) : Statement (.sb rt rs imm) :=
  of_row ⟨"SB", 0xFC000000#32, 0xA0000000#32⟩ (by decide) rfl ((encodeI_mask_FC000000 ..).trans (by decide))

theorem sh (rt rs : Reg) (imm : Half) : Statement (.sh rt rs imm) :=
  of_row ⟨"SH", 0xFC000000#32, 0xA4000000#32⟩ (by decide) rfl ((encodeI_mask_FC000000 ..).trans (by decide))

theorem sw (rt rs : Reg) (imm : Half) : Statement (.sw rt rs imm) :=
  of_row ⟨"SW", 0xFC000000#32, 0xAC000000#32⟩ (by decide) rfl ((encodeI_mask_FC000000 ..).trans (by decide))

theorem mfc0 (rt rd : Reg) : Statement (.mfc0 rt rd) :=
  of_row ⟨"MFC0", 0xFFE007FF#32, 0x40000000#32⟩ (by decide) rfl ((encodeC0_mask_FFE007FF ..).trans (by decide))

theorem mtc0 (rt rd : Reg) : Statement (.mtc0 rt rd) :=
  of_row ⟨"MTC0", 0xFFE007FF#32, 0x40800000#32⟩ (by decide) rfl ((encodeC0_mask_FFE007FF ..).trans (by decide))

theorem eret : Statement .eret :=
  of_row ⟨"ERET", 0xFFFFFFFF#32, 0x42000018#32⟩ (by decide) rfl (by decide)

end Sys2Proof.Laws.OpcodeRow
end

