-- ==== Sys2Proof/Laws/Snapshot.lean ====
section
/-! SUPPORT. The snapshot's fields and sections read back as they were written, and what a section that passes its checks
gives. -/

namespace Sys2Proof.Machine

variable {s : State}

/-! ## Fields -/

@[simp] theorem takeWord_bytesOfWord (w : Word) (rest : List Byte) : takeWord (bytesOfWord w ++ rest) = some (w, rest) := by
  simp [bytesOfWord, takeWord]

@[simp] theorem takeDWord_bytesOfDWord (d : DWord) (rest : List Byte) :
    takeDWord (bytesOfDWord d ++ rest) = some (d, rest) := by
  have e : (d.extractLsb' 32 32).setWidth 64 <<< 32 ||| (d.extractLsb' 0 32).setWidth 64 = d := by
    apply BitVec.eq_of_getLsbD_eq; intro i hi
    simp only [BitVec.getLsbD_extractLsb', BitVec.getLsbD_or, BitVec.getLsbD_shiftLeft, BitVec.getLsbD_setWidth]
    by_cases h : i < 32
    · simp [h, hi]
    · simp [h, hi, show i - 32 < 32 by omega, show i - 32 < 64 by omega, show 32 + (i - 32) = i by omega]
  simp only [takeDWord, bytesOfDWord, List.append_assoc, takeWord_bytesOfWord, Option.bind_some, Option.map_some, e]

@[simp] theorem takeDWords_bytesOfDWord (xs : List DWord) (rest : List Byte) :
    takeDWords xs.length (xs.flatMap bytesOfDWord ++ rest) = some (xs, rest) := by
  induction xs with
  | nil => rfl
  | cons x xs ih => simp [takeDWords, ih]

@[simp] theorem takeFlag_bytesOfFlag (b : Bool) (rest : List Byte) : takeFlag (bytesOfFlag b ++ rest) = some (b, rest) := by
  cases b <;> simp [takeFlag, bytesOfFlag]

/-- A section whose length a u32 can say reads back. -/
theorem takeSection_sectionBytes (tag : Word) (p rest : List Byte) (hp : p.length < 2 ^ 32) :
    takeSection tag (sectionBytes tag p ++ rest) = some (p, rest) := by
  simp only [takeSection, sectionBytes, bytesOfCount, takeBytes, List.append_assoc, takeWord_bytesOfWord,
    Option.bind_some, if_true, BitVec.toNat_ofNat, Nat.mod_eq_of_lt hp]
  rw [if_pos (by simp)]
  simp

/-! ## Lengths -/

theorem length_flatMap_bytesOfDWord (xs : List DWord) : (xs.flatMap bytesOfDWord).length = 8 * xs.length := by
  induction xs with
  | nil => rfl
  | cons x xs ih => simp only [List.flatMap_cons, List.length_append, ih]; simp [bytesOfDWord, bytesOfWord]; omega

theorem length_regList : s.regList.length = 32 := by simp [State.regList]

/-- Section 1 is 280 bytes long (80_step_loop_and_snapshot.md R279). -/
theorem length_cpuPayload : s.cpuPayload.length = 280 := by
  simp only [State.cpuPayload, List.length_append, length_flatMap_bytesOfDWord, length_regList]
  simp [bytesOfWord]

theorem length_dpPayload (b : Bool) :
    (s.dpPayload b).length = 12 + s.dp.image.length + (if b then s.dp.pixels.length else 0) := by
  simp only [State.dpPayload, List.length_append]
  cases b <;> simp [bytesOfCount, bytesOfFlag, bytesOfWord]

theorem length_ctrlPayload : s.ctrlPayload.length = 4 + 8 * s.ctrl.length := by
  have h (cs : List Controller) : (cs.flatMap controllerBytes).length = 8 * cs.length := by
    induction cs with
    | nil => rfl
    | cons c cs ih => simp only [List.flatMap_cons, List.length_append, ih]; simp [controllerBytes, bytesOfHalf]; omega
  simp only [State.ctrlPayload, List.length_append, h]
  simp [bytesOfCount, bytesOfWord]

theorem length_takeDWords {n : Nat} {bs : List Byte} {xs : List DWord × List Byte} (h : takeDWords n bs = some xs) :
    xs.1.length = n := by
  induction n generalizing bs xs with
  | zero => simp [takeDWords] at h; subst h; rfl
  | succ n ih =>
    simp only [takeDWords, Option.bind_eq_some_iff, Option.map_eq_some_iff] at h
    obtain ⟨x, hx, y, hy, rfl⟩ := h
    simp [ih hy]

theorem length_takeControllers {n : Nat} {bs : List Byte} {cs : List Controller} (h : takeControllers n bs = some cs) :
    cs.length = n := by
  induction n generalizing bs cs with
  | zero => simp [takeControllers] at h; rw [h.2]; rfl
  | succ n ih =>
    simp only [takeControllers, Option.bind_eq_some_iff, Option.map_eq_some_iff] at h
    obtain ⟨x, hx, y, hy, rfl⟩ := h
    simp [ih hy]

/-! ## Sections read back -/

theorem delayOf_delayKind (h : ∀ t, s.delay = .taken t → t.toNat % 4 = 0) :
    delayOf (delayKind s.delay) (delayTarget s.delay) = some s.delay := by
  cases hd : s.delay with
  | none => simp [delayOf, delayKind, delayTarget]
  | notTaken => simp [delayOf, delayKind, delayTarget]
  | taken t => simp [delayOf, delayKind, delayTarget, h t hd]

theorem parseCpu_cpuPayload (h : s.Inv) :
    parseCpu s.cpuPayload =
      some { regs := s.regList, pc := s.pc, delay := s.delay, status := s.status, cause := s.cause, epc := s.epc } := by
  have e := takeDWords_bytesOfDWord s.regList (bytesOfWord s.pc ++ bytesOfWord (delayKind s.delay) ++
    bytesOfWord (delayTarget s.delay) ++ bytesOfWord s.status ++ bytesOfWord s.cause ++ bytesOfWord s.epc)
  have e2 := takeWord_bytesOfWord s.epc []
  rw [length_regList] at e
  rw [List.append_nil] at e2
  unfold parseCpu
  rw [if_pos length_cpuPayload]
  simp only [State.cpuPayload, List.append_assoc] at e ⊢
  rw [e]
  simp only [Option.bind_some, takeCpuWords, takeWord_bytesOfWord, e2, delayOf_delayKind h.delayAligned, Option.map_some]
  rw [if_pos]
  simp only [CpuImage.ok, Bool.and_eq_true, beq_iff_eq, List.all_eq_true, Bool.or_eq_true]
  refine ⟨⟨⟨⟨⟨rfl, fun x hx => ?_⟩, h.pcAligned⟩, h.statusBits⟩, h.causeBits⟩, h.excCode⟩
  simp only [State.regList, List.mem_map] at hx
  obtain ⟨i, _, rfl⟩ := hx
  exact h.regsSext _

theorem parseDp_dpPayload (h : s.Inv) (b : Bool) (hl : s.dp.image.length < 2 ^ 32) :
    parseDp s.cfg (s.dpPayload b) =
      some { s.dp with pixels := if b then s.dp.pixels else List.replicate s.cfg.pixelBytes 0 } := by
  simp only [parseDp, State.dpPayload, List.append_assoc, takeFlag_bytesOfFlag, Option.bind_some, bytesOfCount,
    takeWord_bytesOfWord, takeBytes, BitVec.toNat_ofNat, Nat.mod_eq_of_lt hl]
  rw [if_pos (by simp)]
  simp only [Option.bind_some, List.take_left, List.drop_left, h.dpOk, if_true, pixelsOf]
  cases b <;> simp [h.pixelsFit]

theorem parseRam_readBytes (h : s.Inv) : parseRam s.cfg (s.ram.readBytes 0 s.cfg.ramSize) = some s.ram := by
  simp [parseRam, Memory.ofBytes_readBytes h.ramWf h.ramBelow]

theorem takeController_controllerBytes (c : Controller) (rest : List Byte) :
    takeController (controllerBytes c ++ rest) = some (c, rest) := by
  obtain ⟨b, x, y, k⟩ := c
  have e : (b.extractLsb' 8 8).setWidth 16 <<< 8 ||| (b.extractLsb' 0 8).setWidth 16 = b := by
    apply BitVec.eq_of_getLsbD_eq; intro i hi
    simp only [BitVec.getLsbD_extractLsb', BitVec.getLsbD_or, BitVec.getLsbD_shiftLeft, BitVec.getLsbD_setWidth]
    interval_cases i <;> simp
  cases k <;> simp [controllerBytes, bytesOfHalf, takeController, e]

theorem parseCtrl_ctrlPayload (h : s.Inv) (hl : 4 + 8 * s.ctrl.length < 2 ^ 32) :
    parseCtrl s.cfg s.ctrlPayload = some s.ctrl := by
  have e (cs : List Controller) : takeControllers cs.length (cs.flatMap controllerBytes) = some cs := by
    induction cs with
    | nil => rfl
    | cons c cs ih =>
      simp only [List.length_cons, takeControllers, List.flatMap_cons, takeController_controllerBytes, Option.bind_some,
        ih, Option.map_some]
  simp only [parseCtrl, State.ctrlPayload, bytesOfCount, takeWord_bytesOfWord, Option.bind_some]
  rw [if_pos (by rw [BitVec.toNat_ofNat, Nat.mod_eq_of_lt (by omega), h.ctrlFit]), ← h.ctrlFit]
  exact e _

theorem regsOfList_regList (h : s.regs[0] = 0) : regsOfList s.regList = s.regs := by
  refine Vector.ext fun i hi => ?_
  simp only [regsOfList, Vector.getElem_ofFn, State.regList]
  simp only [List.getD_eq_getElem?_getD, List.getElem?_map, List.getElem?_range hi, Option.map_some, Option.getD_some]
  unfold State.reg
  split
  · rename_i h0
    have h1 := congrArg BitVec.toNat h0
    simp only [BitVec.toNat_ofNat, Nat.zero_mod] at h1
    have : i = 0 := by omega
    subst this; exact h.symm
  · simp [Nat.mod_eq_of_lt hi]

/-! ## What a section that passes its checks gives -/

theorem delayOf_aligned {k t : Word} {d : Delay} (h : delayOf k t = some d) : ∀ u, d = .taken u → u.toNat % 4 = 0 := by
  unfold delayOf at h
  rintro u rfl
  split at h
  · split at h <;> simp at h
  · split at h
    · split at h <;> simp at h; subst h; assumption
    · split at h
      · split at h <;> simp at h
      · simp at h

/-- Check 3 of R280 passed: 32 registers, and every condition it lists. -/
theorem parseCpu_ok {p : List Byte} {c : CpuImage} (h : parseCpu p = some c) :
    c.ok = true ∧ c.regs.length = 32 ∧ ∀ u, c.delay = .taken u → u.toNat % 4 = 0 := by
  unfold parseCpu at h
  split at h
  · simp only [Option.bind_eq_some_iff] at h
    obtain ⟨xs, hxs, d, hd, h⟩ := h
    split at h
    · simp only [Option.some.injEq] at h
      subst h
      refine ⟨by assumption, ?_⟩
      simp only [takeCpuWords, Option.bind_eq_some_iff, Option.map_eq_some_iff] at hd
      obtain ⟨_, _, _, _, _, _, _, _, _, _, _, _, g, hg, rfl⟩ := hd
      exact ⟨length_takeDWords hxs, delayOf_aligned hg⟩
    · cases h
  · cases h

/-- Check 4 of R280 passed. -/
theorem parseSp_ok {p : List Byte} {x : SpState} (h : parseSp p = some x) : Config.spImageOk x.image = true := by
  unfold parseSp at h; split at h
  · simp only [Option.some.injEq] at h; subst h; assumption
  · cases h

/-- Check 5 of R280 passed. -/
theorem parseDp_ok {c : Config} {p : List Byte} {x : DpState} (h : parseDp c p = some x) :
    Config.dpImageOk x.image = true ∧ x.pixels.length = c.pixelBytes := by
  simp only [parseDp, Option.bind_eq_some_iff] at h
  obtain ⟨_, _, _, _, _, _, img, _, h⟩ := h
  split at h
  · simp only [Option.map_eq_some_iff] at h
    obtain ⟨px, hpx, rfl⟩ := h
    refine ⟨by assumption, ?_⟩
    unfold pixelsOf at hpx
    split at hpx
    · split at hpx
      · simp only [Option.some.injEq] at hpx; subst hpx; assumption
      · cases hpx
    · split at hpx
      · simp only [Option.some.injEq] at hpx; subst hpx; simp
      · cases hpx
  · cases h

/-- Check 6 of R280 passed. -/
theorem parseRam_ok {c : Config} {p : List Byte} {m : Memory} (h : parseRam c p = some m) : m.wf ∧ m.below c.ramSize := by
  unfold parseRam at h; split at h
  · simp only [Option.some.injEq] at h
    subst h
    have := Memory.below_ofBytes p
    rw [‹p.length = _›] at this
    exact ⟨Memory.wf_ofBytes p, this⟩
  · cases h

/-- Check 7 of R280 passed. -/
theorem parseCtrl_ok {c : Config} {p : List Byte} {cs : List Controller} (h : parseCtrl c p = some cs) :
    cs.length = c.numControllers := by
  simp only [parseCtrl, Option.bind_eq_some_iff] at h
  obtain ⟨_, _, h⟩ := h
  split at h
  · exact length_takeControllers h
  · cases h

/-- A snapshot that passes gives five sections that pass. -/
theorem parseSnapshot_ok {c : Config} {bs : List Byte} {i : SnapshotImage} (h : parseSnapshot c bs = some i) :
    ∃ p1 p2 p3 p4 p5, parseCpu p1 = some i.cpu ∧ parseSp p2 = some i.sp ∧ parseDp c p3 = some i.dp ∧
      parseRam c p4 = some i.ram ∧ parseCtrl c p5 = some i.ctrl := by
  simp only [parseSnapshot, Option.bind_eq_some_iff] at h
  obtain ⟨_, _, _, _, _, _, h⟩ := h
  split at h
  · simp only [parseSections, Option.bind_eq_some_iff] at h
    obtain ⟨_, _, _, _, _, _, _, _, _, _, h⟩ := h
    split at h
    · simp only [Option.bind_eq_some_iff, Option.map_eq_some_iff] at h
      obtain ⟨a, ha, b, hb, cc, hc, d, hd, e, he, rfl⟩ := h
      exact ⟨_, _, _, _, _, ha, hb, hc, hd, he⟩
    · cases h
  · cases h

/-! ## The whole stream -/

/-- What a saved snapshot reads back as. -/
theorem parseSnapshot_snapshot (h : s.Inv) (hf : SnapshotFits s) (includePixels : Bool) :
    parseSnapshot s.cfg (s.snapshot includePixels) =
      some
        { cpu :=
            { regs := s.regList, pc := s.pc, delay := s.delay, status := s.status, cause := s.cause, epc := s.epc }
          sp := s.sp
          dp := { s.dp with pixels := if includePixels then s.dp.pixels else List.replicate s.cfg.pixelBytes 0 }
          ram := s.ram
          ctrl := s.ctrl } := by
  have wf := wellFormed_facts h.cfgOk
  have base := s.cfg.cartridgeBase.isLt
  have dp := hf.dp
  have cpuLength : s.cpuPayload.length < 2 ^ 32 := by rw [length_cpuPayload]; decide
  have dpLength : (s.dpPayload includePixels).length < 2 ^ 32 := by rw [length_dpPayload]; split <;> omega
  have ramLength : (s.ram.readBytes 0 s.cfg.ramSize).length < 2 ^ 32 := by rw [Memory.length_readBytes]; omega
  have last := takeSection_sectionBytes 5 s.ctrlPayload [] (by rw [length_ctrlPayload]; exact hf.ctrl)
  rw [List.append_nil] at last
  simp only [parseSnapshot, State.snapshot, List.append_assoc, takeWord_bytesOfWord, Option.bind_some, and_self, if_true]
  simp only [parseSections, takeSection_sectionBytes 1 _ _ cpuLength, takeSection_sectionBytes 2 _ _ hf.sp,
    takeSection_sectionBytes 3 _ _ dpLength, takeSection_sectionBytes 4 _ _ ramLength, last, Option.bind_some, if_true,
    parseCpu_cpuPayload h, parseDp_dpPayload h includePixels (by omega), parseRam_readBytes h,
    parseCtrl_ctrlPayload h hf.ctrl, parseSp, h.spOk, Option.map_some]

end Sys2Proof.Machine
end

