-- ==== Sys2Proof/Laws/SnapshotInverse.lean ====
section
/-! SUPPORT. What each reader of the snapshot's fields and sections accepts: exactly the bytes that are written for what it
gives. -/

namespace Sys2Proof.Machine

variable {s : State}

/-! ## Fields -/

theorem eq_of_takeWord {bs : List Byte} {x : Word × List Byte} (h : takeWord bs = some x) :
    bs = bytesOfWord x.1 ++ x.2 := by
  unfold takeWord at h
  split at h
  · cases h; simp [bytesOfWord_wordOfBytes]
  · cases h

theorem eq_of_takeBytes {n : Nat} {bs : List Byte} {x : List Byte × List Byte} (h : takeBytes n bs = some x) :
    bs = x.1 ++ x.2 ∧ x.1.length = n := by
  unfold takeBytes at h
  split at h
  · cases h; simpa
  · cases h

theorem bytesOfDWord_of_words (a b : Word) :
    bytesOfDWord (a.setWidth 64 <<< 32 ||| b.setWidth 64) = bytesOfWord a ++ bytesOfWord b := by
  have high : (a.setWidth 64 <<< 32 ||| b.setWidth 64).extractLsb' 32 32 = a := by
    apply BitVec.eq_of_getLsbD_eq; intro i hi
    simp only [BitVec.getLsbD_extractLsb', BitVec.getLsbD_or, BitVec.getLsbD_shiftLeft, BitVec.getLsbD_setWidth]
    simp [hi, show 32 + i < 64 by omega]; omega
  have low : (a.setWidth 64 <<< 32 ||| b.setWidth 64).extractLsb' 0 32 = b := by
    apply BitVec.eq_of_getLsbD_eq; intro i hi
    simp only [BitVec.getLsbD_extractLsb', BitVec.getLsbD_or, BitVec.getLsbD_shiftLeft, BitVec.getLsbD_setWidth]
    simp [hi]; omega
  rw [bytesOfDWord, high, low]

theorem eq_of_takeDWord {bs : List Byte} {x : DWord × List Byte} (h : takeDWord bs = some x) :
    bs = bytesOfDWord x.1 ++ x.2 := by
  simp only [takeDWord, Option.bind_eq_some_iff, Option.map_eq_some_iff] at h
  obtain ⟨hi, h1, lo, h2, rfl⟩ := h
  rw [eq_of_takeWord h1, eq_of_takeWord h2, bytesOfDWord_of_words, List.append_assoc]

theorem eq_of_takeDWords {n : Nat} {bs : List Byte} {x : List DWord × List Byte} (h : takeDWords n bs = some x) :
    bs = x.1.flatMap bytesOfDWord ++ x.2 := by
  induction n generalizing bs x with
  | zero => simp only [takeDWords, Option.some.injEq] at h; subst h; rfl
  | succ n ih =>
    simp only [takeDWords, Option.bind_eq_some_iff, Option.map_eq_some_iff] at h
    obtain ⟨a, ha, y, hy, rfl⟩ := h
    rw [eq_of_takeDWord ha, ih hy, List.flatMap_cons, List.append_assoc]

theorem eq_of_takeFlag {bs : List Byte} {x : Bool × List Byte} (h : takeFlag bs = some x) :
    bs = bytesOfFlag x.1 ++ x.2 := by
  simp only [takeFlag, Option.bind_eq_some_iff] at h
  obtain ⟨w, hw, h⟩ := h
  have e := eq_of_takeWord hw
  split at h
  · rename_i h0; cases h; rw [e, h0]; rfl
  · split at h
    · rename_i h1; cases h; rw [e, h1]; rfl
    · cases h

theorem bytesOfCount_length {p : List Byte} {n : Word} (h : p.length = n.toNat) : bytesOfCount p.length = bytesOfWord n := by
  rw [bytesOfCount, h, BitVec.ofNat_toNat, BitVec.setWidth_eq]

theorem eq_of_takeSection {tag : Word} {bs : List Byte} {x : List Byte × List Byte} (h : takeSection tag bs = some x) :
    bs = sectionBytes tag x.1 ++ x.2 := by
  simp only [takeSection, Option.bind_eq_some_iff] at h
  obtain ⟨t, ht, h⟩ := h
  split at h
  · rename_i hTag
    simp only [Option.bind_eq_some_iff] at h
    obtain ⟨n, hn, h⟩ := h
    obtain ⟨hb, hl⟩ := eq_of_takeBytes h
    rw [eq_of_takeWord ht, eq_of_takeWord hn, hb, hTag, sectionBytes, bytesOfCount_length hl]
    simp only [List.append_assoc]
  · cases h

/-! ## Sections, each as the state that carries what it gives writes it -/

/-- A list of 32 registers whose first is 0 is the register list of the file made from it. -/
theorem regList_regsOfList {xs : List DWord} (hl : xs.length = 32) (h0 : xs.head? = some 0) (h : s.regs = regsOfList xs) :
    s.regList = xs := by
  refine List.ext_getElem (by rw [length_regList, hl]) fun i h1 h2 => ?_
  have hi : i < 32 := by omega
  simp only [State.regList, List.getElem_map, List.getElem_range, State.reg, h, regsOfList, Vector.getElem_ofFn]
  split
  · rename_i e
    have : i = 0 := by
      have := congrArg BitVec.toNat e
      simp only [BitVec.toNat_ofNat, Nat.zero_mod] at this
      omega
    subst this
    cases xs with
    | nil => cases hl
    | cons x xs => simp only [List.head?_cons, Option.some.injEq] at h0; simp [h0]
  · simp [Nat.mod_eq_of_lt hi, List.getD_eq_getElem?_getD, List.getElem?_eq_getElem h2]

theorem eq_of_delayOf {k t : Word} {d : Delay} (h : delayOf k t = some d) : k = delayKind d ∧ t = delayTarget d := by
  unfold delayOf at h
  split at h
  · split at h <;> simp at h; subst h; exact ⟨by assumption, by assumption⟩
  · split at h
    · split at h <;> simp at h; subst h; exact ⟨by assumption, rfl⟩
    · split at h
      · split at h <;> simp at h; subst h; exact ⟨by assumption, by assumption⟩
      · simp at h

theorem eq_of_parseCpu {p : List Byte} {c : CpuImage} (h : parseCpu p = some c) (hr : s.regs = regsOfList c.regs)
    (hp : s.pc = c.pc) (hd : s.delay = c.delay) (hs : s.status = c.status) (hc : s.cause = c.cause)
    (he : s.epc = c.epc) : p = s.cpuPayload := by
  obtain ⟨ok, hl, -⟩ := parseCpu_ok h
  simp only [CpuImage.ok, Bool.and_eq_true, beq_iff_eq] at ok
  have regs := regList_regsOfList hl ok.1.1.1.1.1 hr
  unfold parseCpu at h
  split at h
  · rename_i length
    simp only [Option.bind_eq_some_iff] at h
    obtain ⟨xs, hxs, d, hw, h⟩ := h
    split at h
    · cases h
      have len := congrArg List.length (eq_of_takeDWords hxs)
      simp only [takeCpuWords, Option.bind_eq_some_iff, Option.map_eq_some_iff] at hw
      obtain ⟨w1, h1, w2, h2, w3, h3, w4, h4, w5, h5, w6, h6, g, hg, rfl⟩ := hw
      have e : p = xs.1.flatMap bytesOfDWord ++ (bytesOfWord w1.1 ++ (bytesOfWord w2.1 ++ (bytesOfWord w3.1 ++
          (bytesOfWord w4.1 ++ (bytesOfWord w5.1 ++ (bytesOfWord w6.1 ++ w6.2)))))) := by
        rw [eq_of_takeDWords hxs, eq_of_takeWord h1, eq_of_takeWord h2, eq_of_takeWord h3, eq_of_takeWord h4,
          eq_of_takeWord h5, eq_of_takeWord h6]
      have rest : w6.2 = [] := by
        have := congrArg List.length e
        simp only [List.length_append, length_flatMap_bytesOfDWord, length_bytesOfWord, length, length_takeDWords hxs]
          at this
        exact List.length_eq_zero_iff.1 (by omega)
      rw [e, rest, State.cpuPayload, regs, hp, hd, hs, hc, he, ← (eq_of_delayOf hg).1, ← (eq_of_delayOf hg).2]
      simp only [List.append_assoc, List.append_nil]
    · cases h
  · cases h

theorem eq_of_parseSp {p : List Byte} {x : SpState} (h : parseSp p = some x) : p = x.image := by
  unfold parseSp at h; split at h
  · cases h; rfl
  · cases h

theorem eq_of_parseDp {c : Config} {p : List Byte} (h : parseDp c p = some s.dp) :
    ∃ includePixels, p = s.dpPayload includePixels := by
  simp only [parseDp, Option.bind_eq_some_iff] at h
  obtain ⟨pending, h1, present, h2, n, h3, image, h4, h⟩ := h
  obtain ⟨hb, hl⟩ := eq_of_takeBytes h4
  split at h
  · simp only [Option.map_eq_some_iff] at h
    obtain ⟨px, hpx, hdp⟩ := h
    refine ⟨present.1, ?_⟩
    rw [State.dpPayload, ← hdp, bytesOfCount_length hl, eq_of_takeFlag h1, eq_of_takeFlag h2, eq_of_takeWord h3, hb]
    unfold pixelsOf at hpx
    split at hpx
    · split at hpx
      · rename_i e _; cases hpx; simp [e]
      · cases hpx
    · split at hpx
      · rename_i e e2; simp [e, e2]
      · cases hpx
  · cases h

theorem eq_of_parseRam {c : Config} {p : List Byte} {m : Memory} (h : parseRam c p = some m) :
    p = m.readBytes 0 c.ramSize := by
  unfold parseRam at h; split at h
  · rename_i hl
    cases h
    refine List.ext_getElem (by simp [hl]) fun i h1 h2 => ?_
    have e := Memory.getD_readBytes (m := Memory.ofBytes p) 0 c.ramSize i
    rw [if_pos (by omega), Nat.zero_add, Memory.read_ofBytes] at e
    simpa [List.getD_eq_getElem?_getD, List.getElem?_eq_getElem h1, List.getElem?_eq_getElem h2] using e.symm
  · cases h

theorem bytesOfHalf_of_bytes (a b : Byte) : bytesOfHalf (a.setWidth 16 <<< 8 ||| b.setWidth 16) = [a, b] := by
  simp only [bytesOfHalf, List.cons.injEq, and_true]
  refine ⟨?_, ?_⟩ <;>
  · apply BitVec.eq_of_getLsbD_eq; intro i hi
    simp only [BitVec.getLsbD_extractLsb', BitVec.getLsbD_or, BitVec.getLsbD_shiftLeft, BitVec.getLsbD_setWidth]
    interval_cases i <;> simp

theorem eq_of_takeController {bs : List Byte} {x : Controller × List Byte} (h : takeController bs = some x) :
    bs = controllerBytes x.1 ++ x.2 := by
  unfold takeController at h
  split at h
  · split at h
    · rename_i hc
      cases h
      obtain ⟨h1 | h1, rfl, rfl, rfl⟩ := hc <;> subst h1 <;> simp [controllerBytes, bytesOfHalf_of_bytes]
    · cases h
  · cases h

theorem eq_of_takeControllers {n : Nat} {bs : List Byte} {cs : List Controller} (h : takeControllers n bs = some cs) :
    bs = cs.flatMap controllerBytes := by
  induction n generalizing bs cs with
  | zero => simp [takeControllers] at h; simp [h]
  | succ n ih =>
    simp only [takeControllers, Option.bind_eq_some_iff, Option.map_eq_some_iff] at h
    obtain ⟨a, ha, y, hy, rfl⟩ := h
    rw [eq_of_takeController ha, ih hy, List.flatMap_cons]

theorem eq_of_parseCtrl {c : Config} {p : List Byte} (h : parseCtrl c p = some s.ctrl) : p = s.ctrlPayload := by
  have hl := parseCtrl_ok h
  simp only [parseCtrl, Option.bind_eq_some_iff] at h
  obtain ⟨n, hn, h⟩ := h
  split at h
  · rename_i e
    rw [State.ctrlPayload, bytesOfCount, hl, ← e, BitVec.ofNat_toNat, BitVec.setWidth_eq, eq_of_takeWord hn,
      eq_of_takeControllers h]
  · cases h

end Sys2Proof.Machine
end

