-- ==== Sys2Proof/Machine/Assembler.lean ====
section
/-! DEFINITION. The assembler's side of 30_encoding.md R95 and R96: how labels become fields, what the pseudo-instructions
stand for, and how an instruction is written. Nothing of it is machine state; the machine runs the words. -/

namespace Sys2Proof.Machine

/-! ## Labels (R95) -/

/-- A branch's immediate for a label, `(label - (instPC + 4)) >> 2`, where it fits a signed 16-bit field. DESIGN CHOICE
(log 23): the difference is taken modulo 2^32 and read as signed, and a label whose difference is not a multiple of 4, of
which R95 says nothing, has no immediate. -/
def branchField (instPC label : Addr) : Option Half :=
  let distance := (label - (instPC + 4#32)).toInt
  if distance % 4 = 0 ∧ -32768 ≤ distance / 4 ∧ distance / 4 ≤ 32767 then some (BitVec.ofInt 16 (distance / 4)) else none

/-- A jump's target field for a label, `label[27:2]`, where `label[31:28]` is that of `instPC + 4`; `label[1:0]` does not
enter it, as R95 writes the field. -/
def jumpField (instPC label : Addr) : Option (BitVec 26) :=
  if label.extractLsb' 28 4 = (instPC + 4#32).extractLsb' 28 4 then some (label.extractLsb' 2 26) else none

/-! ## Pseudo-instructions (R96) -/

/-- The pseudo-instructions; branch operands are the immediate fields their labels give, and the immediate of `li` is a
32-bit word (log 24). -/
inductive Pseudo where
  | nop
  | move (rd rs : Reg)
  | not (rd rs : Reg)
  | neg (rd rs : Reg)
  | negu (rd rs : Reg)
  | b (imm : Half)
  | bal (imm : Half)
  | beqz (rs : Reg) (imm : Half)
  | bnez (rs : Reg) (imm : Half)
  | li (rt : Reg) (imm : Word)
  | la (rt : Reg) (addr : Addr)
deriving DecidableEq, Repr

/-- LUI and ORI that together load 32 bits. -/
def loadWordPair (rt : Reg) (v : Word) : List Instr :=
  [.lui rt (v.extractLsb' 16 16), .ori rt rt (v.extractLsb' 0 16)]

/-- The expansions. DESIGN CHOICE (log 24): the ranges of `li` are tested on the word read as signed for the first row and
as unsigned for the second, so `li rt, 0xFFFF8000` is `li rt, -32768`, one ADDIU; R96 gives integer ranges and says nothing
of such a literal. -/
def Pseudo.expand : Pseudo → List Instr
  | .nop => [.sll 0 0 0]
  | .move rd rs => [.addu rd rs 0]
  | .not rd rs => [.nor rd rs 0]
  | .neg rd rs => [.sub rd 0 rs]
  | .negu rd rs => [.subu rd 0 rs]
  | .b imm => [.beq 0 0 imm]
  | .bal imm => [.bgezal 0 imm]
  | .beqz rs imm => [.beq rs 0 imm]
  | .bnez rs imm => [.bne rs 0 imm]
  | .li rt imm =>
    if -32768 ≤ imm.toInt ∧ imm.toInt ≤ 32767 then [.addiu rt 0 (imm.setWidth 16)]
    else if 32768 ≤ imm.toNat ∧ imm.toNat ≤ 65535 then [.ori rt 0 (imm.setWidth 16)]
    else loadWordPair rt imm
  | .la rt addr => loadWordPair rt addr

/-! ## How an instruction is written (R95) -/

/-- `rN`. -/
def regText (r : Reg) : String := "r" ++ toString r.toNat

/-- The conventional names of 10_state.md R20, in the registers' order. -/
def conventionalNames : List String :=
  ["zero", "at", "v0", "v1", "a0", "a1", "a2", "a3", "t0", "t1", "t2", "t3", "t4", "t5", "t6", "t7"] ++
    ["s0", "s1", "s2", "s3", "s4", "s5", "s6", "s7", "t8", "t9", "k0", "k1", "gp", "sp", "fp", "ra"]

/-- A number in hexadecimal. -/
def hexText (n : Nat) : String := "0x" ++ String.ofList (Nat.toDigits 16 n)

/-- `op a, b, c`. -/
def asmText (op : String) (operands : List String) : String := op ++ " " ++ String.intercalate ", " operands

/-- `offset(rs)`. -/
def offsetText (imm : Half) (rs : Reg) : String := toString imm.toInt ++ "(" ++ regText rs ++ ")"

/-- The branch target as its label's address. -/
def labelText (instPC : Addr) (imm : Half) : String := hexText (branchTarget instPC imm).toNat

/-- The text of an instruction that stands at an address, destination first. -/
def asmOf (instPC : Addr) : Instr → String
  | .add rd rs rt => asmText "add" [regText rd, regText rs, regText rt]
  | .addu rd rs rt => asmText "addu" [regText rd, regText rs, regText rt]
  | .sub rd rs rt => asmText "sub" [regText rd, regText rs, regText rt]
  | .subu rd rs rt => asmText "subu" [regText rd, regText rs, regText rt]
  | .and rd rs rt => asmText "and" [regText rd, regText rs, regText rt]
  | .or rd rs rt => asmText "or" [regText rd, regText rs, regText rt]
  | .xor rd rs rt => asmText "xor" [regText rd, regText rs, regText rt]
  | .nor rd rs rt => asmText "nor" [regText rd, regText rs, regText rt]
  | .slt rd rs rt => asmText "slt" [regText rd, regText rs, regText rt]
  | .sltu rd rs rt => asmText "sltu" [regText rd, regText rs, regText rt]
  | .sll rd rt sa => asmText "sll" [regText rd, regText rt, toString sa.toNat]
  | .srl rd rt sa => asmText "srl" [regText rd, regText rt, toString sa.toNat]
  | .sra rd rt sa => asmText "sra" [regText rd, regText rt, toString sa.toNat]
  | .sllv rd rt rs => asmText "sllv" [regText rd, regText rt, regText rs]
  | .srlv rd rt rs => asmText "srlv" [regText rd, regText rt, regText rs]
  | .srav rd rt rs => asmText "srav" [regText rd, regText rt, regText rs]
  | .jr rs => asmText "jr" [regText rs]
  | .jalr rd rs => asmText "jalr" [regText rd, regText rs]
  | .j target => asmText "j" [hexText (jumpTarget instPC target).toNat]
  | .jal target => asmText "jal" [hexText (jumpTarget instPC target).toNat]
  | .beq rs rt imm => asmText "beq" [regText rs, regText rt, labelText instPC imm]
  | .bne rs rt imm => asmText "bne" [regText rs, regText rt, labelText instPC imm]
  | .blez rs imm => asmText "blez" [regText rs, labelText instPC imm]
  | .bgtz rs imm => asmText "bgtz" [regText rs, labelText instPC imm]
  | .bltz rs imm => asmText "bltz" [regText rs, labelText instPC imm]
  | .bgez rs imm => asmText "bgez" [regText rs, labelText instPC imm]
  | .bltzal rs imm => asmText "bltzal" [regText rs, labelText instPC imm]
  | .bgezal rs imm => asmText "bgezal" [regText rs, labelText instPC imm]
  | .addi rt rs imm => asmText "addi" [regText rt, regText rs, toString imm.toInt]
  | .addiu rt rs imm => asmText "addiu" [regText rt, regText rs, toString imm.toInt]
  | .slti rt rs imm => asmText "slti" [regText rt, regText rs, toString imm.toInt]
  | .sltiu rt rs imm => asmText "sltiu" [regText rt, regText rs, toString imm.toInt]
  | .andi rt rs imm => asmText "andi" [regText rt, regText rs, hexText imm.toNat]
  | .ori rt rs imm => asmText "ori" [regText rt, regText rs, hexText imm.toNat]
  | .xori rt rs imm => asmText "xori" [regText rt, regText rs, hexText imm.toNat]
  | .lui rt imm => asmText "lui" [regText rt, hexText imm.toNat]
  | .lb rt rs imm => asmText "lb" [regText rt, offsetText imm rs]
  | .lbu rt rs imm => asmText "lbu" [regText rt, offsetText imm rs]
  | .lh rt rs imm => asmText "lh" [regText rt, offsetText imm rs]
  | .lhu rt rs imm => asmText "lhu" [regText rt, offsetText imm rs]
  | .lw rt rs imm => asmText "lw" [regText rt, offsetText imm rs]
  | .sb rt rs imm => asmText "sb" [regText rt, offsetText imm rs]
  | .sh rt rs imm => asmText "sh" [regText rt, offsetText imm rs]
  | .sw rt rs imm => asmText "sw" [regText rt, offsetText imm rs]
  | .mfc0 rt rd => asmText "mfc0" [regText rt, "$" ++ toString rd.toNat]
  | .mtc0 rt rd => asmText "mtc0" [regText rt, "$" ++ toString rd.toNat]
  | .eret => "eret"

end Sys2Proof.Machine
end

