-- ==== Sys2Proof/Tests/Slice0.lean ====
section
/-! SUPPORT. The model's own tests. Expected values come from spec/95_test_vectors.md or are worked out by hand from the
rules named; then a witness for the hypotheses of every statement that has some. -/

namespace Sys2Proof.Machine.Tests

/-! ## Small states -/

/-- Registers set one after another. -/
def withRegs (s : State) : List (Reg × DWord) → State
  | [] => s
  | (r, v) :: rest => withRegs (s.setReg r v) rest

/-- The sign extension that a register's 8 digits stand for in 95_test_vectors.md. -/
def sx (w : Word) : DWord := w.signExtend 64

/-- Configuration T, the loop Running at pc = 0x1000, nothing else set. -/
def small : State := { State.reset with pc := 0x1000#32, loop := .running }

/-- The state before a single-step vector of 95_test_vectors.md: a word at pc = 0x1000 and some registers. -/
def before (w : Nat) (regs : List (Reg × DWord)) : State := withRegs (small.withFetchWord 32 w) regs

/-- The same in the slot of a taken branch to 0x500. -/
def inSlot (s : State) : State := { s with delay := .taken 0x500#32 }

/-- The same in Permissive mode. -/
def permissive (s : State) : State := { s with cfg := { s.cfg with mode := .permissive } }

/-- The memory of section 6 of 95_test_vectors.md. -/
def loadStoreState (w : Nat) (regs : List (Reg × DWord)) : State :=
  let s := before w ((1#5, 0x2000#64) :: regs)
  { s with
    ram := s.ram.writeBytes 0x2000 [0x80, 0x81, 0xF2, 0xF3, 0x7F, 0xFF, 0x00, 0x00]
    rom := Memory.ofBytes [0x4D, 0x49, 0x50, 0x53]
    romSize := 0x200 }

/-- A register, pc and the delay state after one step that completes. -/
def seen (r : Reg) (s : State) : Option (DWord × Addr × Delay) :=
  (nextState (step s)).bind fun t => if t.loop = .running then some (t.reg r, t.pc, t.delay) else none

/-- Status, Cause, EPC, pc and the delay state after one step that completes. -/
def seenCp0 (s : State) : Option (Word × Word × Word × Addr × Delay) :=
  (nextState (step s)).bind fun t =>
    if t.loop = .running then some (t.status, t.cause, t.epc, t.pc, t.delay) else none

/-- RAM bytes after one step that completes. -/
def seenRam (a n : Nat) (s : State) : Option (List Byte) :=
  (nextState (step s)).bind fun t => if t.loop = .running then some (t.ram.readBytes a n) else none

/-- The halt after one step, where pc and the delay state stay. -/
def halts (s : State) : Option StopReason :=
  (nextState (step s)).bind fun t =>
    if t.loop = .stopped ∧ t.pc = s.pc ∧ t.delay = s.delay then some t.stopReason else none

/-! ## WellFormed: every check refuses a configuration that breaks it (00_scope.md R5) -/

theorem test_default_config_is_well_formed : Config.default.wellFormed = true := by decide

theorem test_config_ramSize_refused :
    Config.wellFormed { Config.default with ramSize := 0x00800002 } = false ∧
    Config.wellFormed { Config.default with ramSize := 0 } = false := by decide

theorem test_config_cartridgeBase_refused :
    Config.wellFormed { Config.default with cartridgeBase := 0x10000002#32 } = false ∧
    Config.wellFormed { Config.default with cartridgeBase := 0x007FFFFC#32 } = false := by decide

theorem test_config_headerSize_refused :
    Config.wellFormed { Config.default with headerSize := 0x42 } = false ∧
    Config.wellFormed { Config.default with headerSize := 0 } = false := by decide

theorem test_config_entryVector_refused :
    Config.wellFormed { Config.default with entryVector := 0x10000041#32 } = false := by decide

theorem test_config_exceptionVector_refused :
    Config.wellFormed { Config.default with exceptionVector := 0x10000182#32 } = false := by decide

theorem test_config_mailboxAddr_refused :
    Config.wellFormed { Config.default with mailboxAddr := 0x00000F01#32 } = false ∧
    Config.wellFormed { Config.default with mailboxAddr := 0x007FFFF8#32 } = false := by decide

theorem test_config_insnBudget_refused :
    Config.wellFormed { Config.default with insnBudget := 0 } = false := by decide

theorem test_config_pixelSize_refused :
    Config.wellFormed { Config.default with pixelWidth := 0 } = false ∧
    Config.wellFormed { Config.default with pixelHeight := 0 } = false := by decide

/-! ## Decode: words written out from the spec's encodings, every constructor -/

theorem test_decode_register_alu :
    decode 0x00221820#32 = some (.add 3 1 2) ∧ decode 0x00221821#32 = some (.addu 3 1 2) ∧
    decode 0x00221822#32 = some (.sub 3 1 2) ∧ decode 0x00021823#32 = some (.subu 3 0 2) ∧
    decode 0x00221824#32 = some (.and 3 1 2) ∧ decode 0x00221825#32 = some (.or 3 1 2) ∧
    decode 0x00221826#32 = some (.xor 3 1 2) ∧ decode 0x00221827#32 = some (.nor 3 1 2) ∧
    decode 0x0022182A#32 = some (.slt 3 1 2) ∧ decode 0x0002182B#32 = some (.sltu 3 0 2) := by decide

theorem test_decode_shifts :
    decode 0x000117C0#32 = some (.sll 2 1 31) ∧ decode 0x00011102#32 = some (.srl 2 1 4) ∧
    decode 0x000117C3#32 = some (.sra 2 1 31) ∧ decode 0x00611004#32 = some (.sllv 2 1 3) ∧
    decode 0x00611006#32 = some (.srlv 2 1 3) ∧ decode 0x00611007#32 = some (.srav 2 1 3) ∧
    decode 0x00000000#32 = some (.sll 0 0 0) := by decide

theorem test_decode_control :
    decode 0x03E00008#32 = some (.jr 31) ∧ decode 0x01204809#32 = some (.jalr 9 9) ∧
    decode 0x08000100#32 = some (.j 0x100) ∧ decode 0x0C000018#32 = some (.jal 0x18) ∧
    decode 0x10220003#32 = some (.beq 1 2 3) ∧ decode 0x1422FFFF#32 = some (.bne 1 2 0xFFFF) ∧
    decode 0x18200004#32 = some (.blez 1 4) ∧ decode 0x1C200004#32 = some (.bgtz 1 4) ∧
    decode 0x04200002#32 = some (.bltz 1 2) ∧ decode 0x04210002#32 = some (.bgez 1 2) ∧
    decode 0x04300002#32 = some (.bltzal 1 2) ∧ decode 0x07F10002#32 = some (.bgezal 31 2) := by decide

theorem test_decode_immediate :
    decode 0x20220001#32 = some (.addi 2 1 1) ∧ decode 0x2422FFFF#32 = some (.addiu 2 1 0xFFFF) ∧
    decode 0x2822FFFF#32 = some (.slti 2 1 0xFFFF) ∧ decode 0x2C227FFF#32 = some (.sltiu 2 1 0x7FFF) ∧
    decode 0x3022FF00#32 = some (.andi 2 1 0xFF00) ∧ decode 0x34228001#32 = some (.ori 2 1 0x8001) ∧
    decode 0x3822FFFF#32 = some (.xori 2 1 0xFFFF) ∧ decode 0x3C028000#32 = some (.lui 2 0x8000) := by decide

theorem test_decode_load_store :
    decode 0x83A5FFFE#32 = some (.lb 5 29 0xFFFE) ∧ decode 0x93A6FFFF#32 = some (.lbu 6 29 0xFFFF) ∧
    decode 0x84220002#32 = some (.lh 2 1 2) ∧ decode 0x94220002#32 = some (.lhu 2 1 2) ∧
    decode 0x8C620004#32 = some (.lw 2 3 4) ∧ decode 0xA0220003#32 = some (.sb 2 1 3) ∧
    decode 0xA7A4FFFE#32 = some (.sh 4 29 0xFFFE) ∧ decode 0xAC22FFFC#32 = some (.sw 2 1 0xFFFC) := by decide

theorem test_decode_cop0 :
    decode 0x401A7000#32 = some (.mfc0 26 14) ∧ decode 0x40826000#32 = some (.mtc0 2 12) ∧
    decode 0x42000018#32 = some .eret := by decide

/-- The Unsupported words of 95_test_vectors.md section 2. -/
theorem test_decode_unsupported :
    decode 0x00200000#32 = none ∧ decode 0x03E00808#32 = none ∧ decode 0x18210004#32 = none ∧
    decode 0x3C221234#32 = none ∧ decode 0x0000000C#32 = none ∧ decode 0x0000000D#32 = none ∧
    decode 0x00000018#32 = none ∧ decode 0x44000000#32 = none ∧ decode 0x42000010#32 = none ∧
    decode 0xFFFFFFFF#32 = none := by decide

theorem test_decode_bytes :
    decodeBytes [0x00, 0x22, 0x18, 0x20, 0xAA] = .ok (.add 3 1 2, [0xAA]) ∧
    decodeBytes [0x00, 0x00, 0x00, 0x0C] = .error (.unsupported 0x0000000C#32) ∧
    decodeBytes [0x00, 0x22, 0x18] = .error .truncated := by decide

theorem test_decodeTableWord : decodeTableWord 32 0x8C620004 = some (.lw 2 3 4) := by decide

/-! ## Single steps: register-register (95_test_vectors.md section 3) -/

theorem test_add_negative :
    seen 3 (before 0x00221820 [(1, sx 0xFFFFFFFF), (2, sx 0xFFFFFFFF)]) =
      some (0xFFFFFFFFFFFFFFFE#64, 0x1004#32, .none) := by decide

theorem test_add_to_r0_traps :
    seenCp0 (before 0x00220020 [(1, sx 0x7FFFFFFF), (2, 1)]) =
      some (0x2#32, 0x30#32, 0x1000#32, 0x10000180#32, .none) := by decide

theorem test_addu_wraps :
    seen 3 (before 0x00221821 [(1, sx 0x7FFFFFFF), (2, 1)]) =
      some (0xFFFFFFFF80000000#64, 0x1004#32, .none) := by decide

theorem test_sub_negative :
    seen 3 (before 0x00221822 [(1, 5), (2, 7)]) = some (0xFFFFFFFFFFFFFFFE#64, 0x1004#32, .none) := by decide

theorem test_sub_traps :
    seenCp0 (before 0x00021822 [(2, sx 0x80000000)]) =
      some (0x2#32, 0x30#32, 0x1000#32, 0x10000180#32, .none) := by decide

theorem test_subu_from_zero :
    seen 3 (before 0x00021823 [(2, 1)]) = some (0xFFFFFFFFFFFFFFFF#64, 0x1004#32, .none) := by decide

theorem test_and :
    seen 3 (before 0x00221824 [(1, sx 0xF0F0F0F0), (2, sx 0x0FF00FF0)]) =
      some (0xF000F0#64, 0x1004#32, .none) := by decide

theorem test_or :
    seen 3 (before 0x00221825 [(1, sx 0xF0F0F0F0), (2, sx 0x0FF00FF0)]) =
      some (0xFFFFFFFFFFF0FFF0#64, 0x1004#32, .none) := by decide

theorem test_xor :
    seen 3 (before 0x00221826 [(1, sx 0xF0F0F0F0), (2, sx 0x0FF00FF0)]) =
      some (0xFFFFFFFFFF00FF00#64, 0x1004#32, .none) := by decide

theorem test_nor :
    seen 3 (before 0x00221827 [(1, sx 0xF0F0F0F0), (2, sx 0x0FF00FF0)]) =
      some (0xF000F#64, 0x1004#32, .none) := by decide

theorem test_slt :
    seen 3 (before 0x0022182A [(1, sx 0xFFFFFFFF), (2, 1)]) = some (1#64, 0x1004#32, .none) := by decide

theorem test_sltu :
    seen 3 (before 0x0022182B [(1, sx 0xFFFFFFFF), (2, 1)]) = some (0#64, 0x1004#32, .none) := by decide

theorem test_sltu_above_bit31 :
    seen 3 (before 0x0002182B [(2, sx 0x80000000)]) = some (1#64, 0x1004#32, .none) := by decide

theorem test_sll_31 :
    seen 2 (before 0x000117C0 [(1, 1)]) = some (0xFFFFFFFF80000000#64, 0x1004#32, .none) := by decide

theorem test_nop : seen 0 (before 0x00000000 []) = some (0#64, 0x1004#32, .none) := by decide

theorem test_srl_4 :
    seen 2 (before 0x00011102 [(1, sx 0x80000000)]) = some (0x8000000#64, 0x1004#32, .none) := by decide

theorem test_srl_0_keeps_bit31 :
    seen 2 (before 0x00011002 [(1, sx 0x80000000)]) = some (0xFFFFFFFF80000000#64, 0x1004#32, .none) := by decide

theorem test_sra_4 :
    seen 2 (before 0x00011103 [(1, sx 0x80000000)]) = some (0xFFFFFFFFF8000000#64, 0x1004#32, .none) := by decide

theorem test_sllv_low_five_bits :
    seen 2 (before 0x00611004 [(1, 1), (3, 0x21)]) = some (2#64, 0x1004#32, .none) := by decide

theorem test_srlv_shift_0 :
    seen 2 (before 0x00611006 [(1, sx 0xFFFFFFFF), (3, sx 0xFFFFFFE0)]) =
      some (0xFFFFFFFFFFFFFFFF#64, 0x1004#32, .none) := by decide

theorem test_srav_31 :
    seen 2 (before 0x00611007 [(1, sx 0x80000000), (3, 0x1F)]) =
      some (0xFFFFFFFFFFFFFFFF#64, 0x1004#32, .none) := by decide

/-! ## Control transfer (section 4) -/

theorem test_jr :
    seen 31 (before 0x03E00008 [(31, 0x400)]) = some (0x400#64, 0x1004#32, .taken 0x400#32) := by decide

theorem test_jr_misaligned :
    halts (before 0x03E00008 [(31, 0x402)]) = some (.halted (.alignmentError 0x402#32)) := by decide

theorem test_jalr_same_register :
    seen 9 (before 0x01204809 [(9, 0x800)]) = some (0x1008#64, 0x1004#32, .taken 0x800#32) := by decide

theorem test_jalr_r0 :
    seen 0 (before 0x01200009 [(9, 0x800)]) = some (0#64, 0x1004#32, .taken 0x800#32) := by decide

theorem test_j : seen 31 (before 0x08000100 []) = some (0#64, 0x1004#32, .taken 0x400#32) := by decide

/-- The region bits come from instPC + 4 (90_conflicts.md C2): RAM_SIZE is 0x10000000 for this row. -/
def atRegionEnd : State :=
  { State.reset with cfg := { Config.default with ramSize := 0x10000000 }, pc := 0x0FFFFFFC#32 }

theorem test_j_region_of_the_slot :
    seen 31 (atRegionEnd.withFetchWord 32 0x08000100) = some (0#64, 0x10000000#32, .taken 0x10000400#32) := by
  decide

theorem test_jal : seen 31 (before 0x0C000100 []) = some (0x1008#64, 0x1004#32, .taken 0x400#32) := by decide

theorem test_beq_taken :
    seen 31 (before 0x10220003 [(1, 7), (2, 7)]) = some (0#64, 0x1004#32, .taken 0x1010#32) := by decide

theorem test_beq_in_slot :
    halts (inSlot (before 0x10220003 [(1, 1), (2, 1)])) =
      some (.halted (.branchInDelaySlot 0x1000#32 0x10220003#32)) := by decide

theorem test_bne_backward :
    seen 31 (before 0x1422FFFF [(1, 7), (2, 8)]) = some (0#64, 0x1004#32, .taken 0x1000#32) := by decide

theorem test_blez_zero : seen 31 (before 0x18200004 []) = some (0#64, 0x1004#32, .taken 0x1014#32) := by decide

theorem test_bgtz_zero : seen 31 (before 0x1C200004 []) = some (0#64, 0x1004#32, .notTaken) := by decide

theorem test_bltz_negative :
    seen 31 (before 0x04200002 [(1, sx 0x80000000)]) = some (0#64, 0x1004#32, .taken 0x100C#32) := by decide

theorem test_bgez_negative :
    seen 31 (before 0x04210002 [(1, sx 0xFFFFFFFF)]) = some (0#64, 0x1004#32, .notTaken) := by decide

theorem test_bltzal_links_untaken :
    seen 31 (before 0x04300002 [(1, 5)]) = some (0x1008#64, 0x1004#32, .notTaken) := by decide

theorem test_bgezal_tests_old_r31 :
    seen 31 (before 0x07F10002 [(31, sx 0xFFFFFFFC)]) = some (0x1008#64, 0x1004#32, .notTaken) := by decide

theorem test_branch_target_wraps :
    seen 31 (before 0x10008000 []) = some (0#64, 0x1004#32, .taken 0xFFFE1004#32) := by decide

theorem test_addu_in_taken_slot :
    seen 3 (inSlot (before 0x00221821 [(1, 1), (2, 2)])) = some (3#64, 0x500#32, .none) := by decide

/-! ## Immediate arithmetic (section 5) -/

theorem test_addi_traps :
    seenCp0 (before 0x2022FFFF [(1, sx 0x80000000)]) =
      some (0x2#32, 0x30#32, 0x1000#32, 0x10000180#32, .none) := by decide

theorem test_addi_negative :
    seen 2 (before 0x2022FFFF [(1, sx 0xFFFFFFFF)]) = some (0xFFFFFFFFFFFFFFFE#64, 0x1004#32, .none) := by decide

theorem test_addiu_wraps :
    seen 2 (before 0x24220001 [(1, sx 0x7FFFFFFF)]) = some (0xFFFFFFFF80000000#64, 0x1004#32, .none) := by decide

theorem test_slti :
    seen 2 (before 0x2822FFFF [(1, sx 0x80000000)]) = some (1#64, 0x1004#32, .none) := by decide

theorem test_sltiu_sign_extends :
    seen 2 (before 0x2C22FFFF [(1, 5)]) = some (1#64, 0x1004#32, .none) := by decide

theorem test_andi_zero_extends :
    seen 2 (before 0x3022FF00 [(1, sx 0xFFFFFFFF)]) = some (0xFF00#64, 0x1004#32, .none) := by decide

theorem test_ori : seen 2 (before 0x34228001 []) = some (0x8001#64, 0x1004#32, .none) := by decide

theorem test_xori :
    seen 2 (before 0x3822FFFF [(1, sx 0xFFFFFFFF)]) = some (0xFFFFFFFFFFFF0000#64, 0x1004#32, .none) := by decide

theorem test_lui : seen 2 (before 0x3C028000 []) = some (0xFFFFFFFF80000000#64, 0x1004#32, .none) := by decide

theorem test_lui_r0 : seen 0 (before 0x3C001234 []) = some (0#64, 0x1004#32, .none) := by decide

/-! ## Loads and stores (section 6) -/

theorem test_lb : seen 2 (loadStoreState 0x80220000 []) = some (0xFFFFFFFFFFFFFF80#64, 0x1004#32, .none) := by decide

theorem test_lbu : seen 2 (loadStoreState 0x90220000 []) = some (0x80#64, 0x1004#32, .none) := by decide

theorem test_lh : seen 2 (loadStoreState 0x84220002 []) = some (0xFFFFFFFFFFFFF2F3#64, 0x1004#32, .none) := by decide

theorem test_lh_misaligned :
    halts (loadStoreState 0x84220001 []) = some (.halted (.alignmentError 0x2001#32)) := by decide

theorem test_lhu : seen 2 (loadStoreState 0x94220002 []) = some (0xF2F3#64, 0x1004#32, .none) := by decide

theorem test_lw_onto_its_base :
    seen 1 (loadStoreState 0x8C210000 []) = some (0xFFFFFFFF8081F2F3#64, 0x1004#32, .none) := by decide

/-- ROM reads, the end of the cartridge, the end of RAM, alignment before region, and an address that wraps. -/
theorem test_lw_addresses :
    seen 2 (loadStoreState 0x8C620000 [(3, 0x10000000)]) = some (0x4D495053#64, 0x1004#32, .none) ∧
    halts (loadStoreState 0x8C620000 [(3, 0x10000200)]) = some (.halted (.addressError 0x10000200#32)) ∧
    halts (loadStoreState 0x8C620000 [(3, 0x00800000)]) = some (.halted (.addressError 0x00800000#32)) ∧
    halts (loadStoreState 0x8C620000 [(3, 0x00800002)]) = some (.halted (.alignmentError 0x00800002#32)) ∧
    seen 2 (loadStoreState 0x8C620004 [(3, sx 0xFFFFFFFC)]) = some (0#64, 0x1004#32, .none) := by decide

theorem test_sb :
    seenRam 0x2000 5 (loadStoreState 0xA0220003 [(2, 0xAB)]) = some [0x80, 0x81, 0xF2, 0xAB, 0x7F] := by decide

theorem test_sb_unmapped :
    halts (loadStoreState 0xA0620000 [(2, 1), (3, 0x00800000)]) = some (.halted (.addressError 0x00800000#32)) := by
  decide

theorem test_sh :
    seenRam 0x2001 4 (loadStoreState 0xA4220002 [(2, 0x1234)]) = some [0x81, 0x12, 0x34, 0x7F] := by decide

theorem test_sh_misaligned :
    halts (loadStoreState 0xA4220003 [(2, 0x1234)]) = some (.halted (.alignmentError 0x2003#32)) := by decide

theorem test_sw :
    seenRam 0x1FFB 6 (loadStoreState 0xAC22FFFC [(2, 0xFFFFFFFFDEADBEEF)]) =
      some [0x00, 0xDE, 0xAD, 0xBE, 0xEF, 0x80] := by decide

/-- A ROM write is discarded without a fault. -/
theorem test_sw_to_rom :
    ((nextState (step (loadStoreState 0xAC620000 [(2, 0xFFFFFFFFDEADBEEF), (3, 0x10000000)]))).map fun t =>
      (t.rom.readBytes 0 4, t.pc)) = some ([0x4D, 0x49, 0x50, 0x53], 0x1004#32) := by decide

/-! ## Coprocessor 0 (section 7) -/

theorem test_mfc0_cause_sign_extends :
    seen 2 { before 0x40026800 [] with cause := 0x80000030#32 } =
      some (0xFFFFFFFF80000030#64, 0x1004#32, .none) := by decide

theorem test_mfc0_absent :
    halts (before 0x40024800 []) = some (.halted (.unsupportedOpcode 0x1000#32 0x40024800#32)) ∧
    ((nextState (step (permissive (before 0x40024800 [])))).map fun t => (t.reg 2, t.outputs, t.pc)) =
      some (0, [.unsupported 0x1000#32 0x40024800#32], 0x1004#32) := by decide

theorem test_mtc0_status_and_epc :
    seenCp0 (before 0x40826000 [(2, 0xFFFFFFFFFFFFFFFF)]) = some (0xFF03#32, 0, 0, 0x1004#32, .none) ∧
    seenCp0 (before 0x40827000 [(2, 0x1002)]) = some (0, 0, 0x1002#32, 0x1004#32, .none) := by decide

theorem test_mtc0_cause_writes_ip_only :
    seenCp0 { before 0x40826800 [(2, 0xFFFFFFFFFFFFFFFF)] with cause := 0x80000030#32 } =
      some (0, 0x8000FF30#32, 0, 0x1004#32, .none) := by decide

theorem test_eret :
    seenCp0 { before 0x42000018 [] with status := 0x403#32, epc := 0x210#32 } =
      some (0x401#32, 0, 0x210#32, 0x210#32, .none) := by decide

theorem test_eret_halts :
    halts { before 0x42000018 [] with status := 0x403#32, epc := 0x212#32 } =
      some (.halted (.alignmentError 0x212#32)) ∧
    halts { inSlot (before 0x42000018 []) with epc := 0x210#32 } =
      some (.halted (.branchInDelaySlot 0x1000#32 0x42000018#32)) := by decide

/-! ## Decode failures, fetch failures, Permissive mode (section 2) -/

theorem test_unsupported_and_unmapped_halt :
    halts (before 0x0000000D []) = some (.halted (.unsupportedOpcode 0x1000#32 0x0000000D#32)) ∧
    halts { small with pc := 0x00800000#32 } = some (.halted (.addressError 0x00800000#32)) := by decide

theorem test_permissive_noop_in_a_slot :
    ((nextState (step (permissive (inSlot (before 0xFFFFFFFF []))))).map fun t => (t.outputs, t.pc, t.delay)) =
      some ([.unsupported 0x1000#32 0xFFFFFFFF#32], 0x500#32, .none) := by decide

/-! ## Exceptions and interrupts (section 8) -/

/-- The operands of section 8's overflowing add. -/
def overflowing : State := before 0x00221820 [(1, sx 0x7FFFFFFF), (2, 1)]

/-- The operands of section 8's addu, with Status and Cause. -/
def interrupted (status cause : Word) : State :=
  { before 0x00221821 [(1, 1), (2, 2)] with status := status, cause := cause }

theorem test_overflow_in_slots :
    seenCp0 (inSlot overflowing) = some (0x2#32, 0x80000030#32, 0xFFC#32, 0x10000180#32, .none) ∧
    seenCp0 { overflowing with delay := .notTaken } =
      some (0x2#32, 0x80000030#32, 0xFFC#32, 0x10000180#32, .none) := by decide

theorem test_overflow_nested :
    seenCp0 { overflowing with status := 0x403#32, cause := 0x80000000#32, epc := 0x300#32 } =
      some (0x403#32, 0x80000030#32, 0x300#32, 0x10000180#32, .none) := by decide

theorem test_interrupt_taken :
    seenCp0 (interrupted 0x401#32 0x400#32) = some (0x403#32, 0x400#32, 0x1000#32, 0x10000180#32, .none) ∧
    seenCp0 (interrupted 0x8001#32 0x8000#32) = some (0x8003#32, 0x8000#32, 0x1000#32, 0x10000180#32, .none) ∧
    seen 3 (interrupted 0x401#32 0x400#32) = some (0#64, 0x10000180#32, .none) := by decide

/-- Deferred by a delay slot, blocked by EXL, masked, and disabled. -/
theorem test_interrupt_not_taken :
    seen 3 (inSlot (interrupted 0x401#32 0x400#32)) = some (3#64, 0x500#32, .none) ∧
    seen 3 (interrupted 0x403#32 0x400#32) = some (3#64, 0x1004#32, .none) ∧
    seen 3 (interrupted 0x001#32 0x400#32) = some (3#64, 0x1004#32, .none) ∧
    seen 3 (interrupted 0x400#32 0x400#32) = some (3#64, 0x1004#32, .none) := by decide

/-- SP_PROCESS_T of section 8: the sum of `len` words at `ptr`, written after them. -/
def spProcessT : SpProcess := fun _ cells ptr len =>
  let m : Memory := { cells := cells }
  let sum := (List.range len.toNat).foldl (fun acc k => acc + m.readWord (ptr.toNat + 4 * k)) (0 : Word)
  let bytes := (bytesOfWord sum).zipIdx.map fun x => (ptr.toNat + 4 * len.toNat + x.2, x.1)
  { ramWrites := bytes, image := [], dpCommands := false, pcm := [] }

/-- Section 8's task: READY, TASK_PTR, TASK_LEN and two words. -/
def taskState (ready : Word) : State :=
  { small with
    ram := ((small.ram.writeBytes 0xF00 (bytesOfWord ready ++ bytesOfWord 0x200 ++ bytesOfWord 2)).writeBytes 0x200
      (bytesOfWord 3)).writeBytes 0x204 (bytesOfWord 4) }

theorem test_sp_phase :
    ((taskState 1).spStepWith spProcessT).ram.readWord 0x208 = 7#32 ∧
    ((taskState 1).spStepWith spProcessT).mailboxWord 0 = 0 ∧
    ((taskState 1).spStepWith spProcessT).cause = 0x400#32 ∧
    ((taskState 1).spStepWith spProcessT).dp.pending = false ∧
    ((taskState 0).spStepWith spProcessT).ram = (taskState 0).ram ∧
    ((taskState 0).spStepWith spProcessT).cause = 0 := by decide

/-! ## The host's interface (sections 1 and 9) -/

theorem test_loop_requests :
    (State.reset.applyRequest .start).loop = .running ∧ (State.reset.applyRequest .start).stopReason = .none ∧
    (small.applyRequest .resume).outputs = [.reply .ignored] ∧ (small.applyRequest .pause).loop = .paused ∧
    (small.applyRequest .stop).stopReason = .hostStop := by decide

/-- The lengths of section 9's table, by their counts alone; the smallest cartridge that loads. -/
theorem test_cartridge_lengths :
    cartridgeOk Config.default (List.replicate 0x40 0) = true ∧
    cartridgeOk Config.default (List.replicate 0x3C 0) = false ∧
    cartridgeOk Config.default (List.replicate 0x41 0) = false := by decide

theorem test_cheat :
    ((small.applyRequest (.applyCheat 0x100 0xCAFEBABE)).ram.readBytes 0x100 4) = [0xCA, 0xFE, 0xBA, 0xBE] ∧
    (small.applyRequest (.applyCheat 0x007FFFFC 1)).outputs = [.reply .done] ∧
    (small.applyRequest (.applyCheat 0x00800000 1)).outputs = [.reply .invalidAddress] ∧
    (small.applyRequest (.applyCheat 0x102 1)).outputs = [.reply .invalidAddress] := by decide

/-- A stop held during a macro-step lets it end: the collaborators' phase runs, then the request. -/
theorem test_stop_waits_for_the_boundary :
    ((stepsFrom 1 ({ small with phase := .collaborators }.issue .stop)).map fun t => (t.loop, t.phase)) =
      some (.running, .processor 0) ∧
    ((stepsFrom 2 ({ small with phase := .collaborators }.issue .stop)).map fun t => (t.loop, t.stopReason)) =
      some (.stopped, .hostStop) := by decide

/-- The CPU section of a reset state is 280 bytes and reads back; section 9's bad fields fail. -/
theorem test_snapshot_cpu_section :
    State.reset.cpuPayload.length = 280 ∧ (parseCpu State.reset.cpuPayload).isSome = true ∧
    parseCpu { State.reset with pc := 0x10000042#32 }.cpuPayload = none ∧
    parseCpu { State.reset with delay := .taken 0x502#32 }.cpuPayload = none ∧
    parseCpu { State.reset with status := 4 }.cpuPayload = none ∧
    parseCpu { State.reset with cause := 1 }.cpuPayload = none ∧
    parseCpu { State.reset with cause := 0x10#32 }.cpuPayload = none := by
  set_option maxRecDepth 20000 in decide

theorem test_snapshot_register_checks :
    parseCpu (withRegs State.reset [(5, 0x80000000#64)]).cpuPayload = none ∧
    parseCpu ([1, 1] ++ State.reset.cpuPayload.drop 2) = none ∧ delayOf 3 0 = none := by
  set_option maxRecDepth 20000 in decide

theorem test_snapshot_header_and_controllers :
    parseSnapshot Config.default (bytesOfWord snapshotMagic ++ bytesOfWord 2 ++ bytesOfWord 5) = none ∧
    parseSnapshot Config.default (bytesOfWord snapshotMagic ++ bytesOfWord 1 ++ bytesOfWord 4) = none ∧
    parseCtrl Config.default State.reset.ctrlPayload = some [Controller.zero] ∧
    parseCtrl Config.default [0, 0, 0, 1, 0, 0, 0, 0, 2, 0, 0, 0] = none ∧
    parseCtrl Config.default (0 :: 0 :: 0 :: 2 :: List.replicate 16 0) = none := by decide

/-- Labels and pseudo-instructions (30_encoding.md R95, R96), as programs P1 to P3 use them. -/
theorem test_assembler :
    branchField 0x10000050#32 0x10000048#32 = some 0xFFFD#16 ∧
    jumpField 0x10000044#32 0x10000060#32 = some 0x18 ∧
    Pseudo.expand (.li 1 10) = [.addiu 1 0 10] ∧ Pseudo.expand (.li 1 0x8001) = [.ori 1 0 0x8001] ∧
    Pseudo.expand (.li 1 0xFFFF7FFF) = [.lui 1 0xFFFF, .ori 1 1 0x7FFF] ∧
    Pseudo.expand (.li 1 0x7FFFFFFF) = [.lui 1 0x7FFF, .ori 1 1 0xFFFF] := by decide

/-- The host's placement of a word runs it as the first instruction. -/
theorem test_withFetchWord_runs :
    seen 3 (State.reset.withFetchWord 32 0x24030005) = some (5#64, 0x10000044#32, .none) := by decide

/-! ## Witnesses: concrete states and operands that meet the hypotheses of a statement, clause by clause

Each is named after the statement it belongs to. -/

/-- The fault of an answer, where it is one. -/
def faultOf : Result → Option Fault
  | .fault f => some f
  | _ => none

theorem eq_fault {r : Result} {f : Fault} (h : faultOf r = some f) : r = .fault f := by
  cases r <;> simp_all [faultOf]

theorem exists_next {r : Result} (h : (nextState r).isSome = true) : ∃ t, r = .next t := by
  cases r <;> simp_all [nextState]

/-- A cartridge of 0x200 bytes, mapped. -/
def withRom : State := loadStoreState 0 []

theorem processorsTurn_small : ProcessorsTurn small 0 := ⟨by decide, rfl, rfl, fun _ => rfl⟩

theorem withRom_aligned : withRom.RegionsAligned := ⟨by decide, by decide, by decide⟩

theorem witness_DecodeAndEncodeAgree : decode 0x42000018#32 = some .eret ∧ encode .eret = 0x42000018#32 := by decide

theorem witness_DecodeFollowsTheOpcodeTable :
    (⟨"ADD", 0xFC0007FF#32, 0x00000020#32⟩ : OpcodeRow) ∈ opcodeTable ∧
    (⟨"ADD", 0xFC0007FF#32, 0x00000020#32⟩ : OpcodeRow).covers 0x00221820#32 = true ∧
    (∀ r ∈ opcodeTable, r.covers 0xFFFFFFFF#32 = false) := by decide

theorem witness_RegisterZeroIsHardwired :
    (31#5 : Reg) ≠ 0 ∧ (small.setReg 31 7).reg 31 = 7 ∧ (small.setReg 0 7).reg 0 = 0 := by decide

/-- Operands in x1 and x2. -/
def pair (a b : Word) : State := withRegs small [(1, sx a), (2, sx b)]

/-- The sums at both ends of the 32-bit range, and one past each. -/
theorem witness_AddWritesTheSumOrTraps :
    let sum (s : State) : Int := (s.low 1).toInt + (s.low 2).toInt
    sum (pair 0x7FFFFFFE 1) = 2 ^ 31 - 1 ∧ sum (pair 0x80000001 0xFFFFFFFF) = -2 ^ 31 ∧
    sum (pair 0x7FFFFFFF 1) = 2 ^ 31 ∧ sum (pair 0x80000000 0xFFFFFFFF) = -2 ^ 31 - 1 := by decide

theorem witness_SubWritesTheDifferenceOrTraps :
    let difference (s : State) : Int := (s.low 1).toInt - (s.low 2).toInt
    difference (pair 0x7FFFFFFE 0xFFFFFFFF) = 2 ^ 31 - 1 ∧ difference (pair 0x80000001 1) = -2 ^ 31 ∧
    difference (pair 0 0x80000000) = 2 ^ 31 ∧ difference (pair 0x80000000 1) = -2 ^ 31 - 1 := by decide

theorem witness_AddiWritesTheSumOrTraps :
    let sum (s : State) (imm : Half) : Int := (s.low 1).toInt + imm.toInt
    sum (pair 0x7FFF8000 0) 0x7FFF#16 = 2 ^ 31 - 1 ∧ sum (pair 0x80008000 0) 0x8000#16 = -2 ^ 31 ∧
    sum (pair 0x7FFFFFFF 0) 1#16 = 2 ^ 31 ∧ sum (pair 0x80000000 0) 0xFFFF#16 = -2 ^ 31 - 1 := by decide

theorem witness_SetLessThanOnRegisters :
    let s := withRegs small [(1, sx 0x80000000), (2, sx 0x7FFFFFFF)]
    s.reg 1 = sext64 (s.low 1) ∧ s.reg 2 = sext64 (s.low 2) ∧ (s.reg 1).toInt < (s.reg 2).toInt ∧
      ¬(s.reg 1).toNat < (s.reg 2).toNat := by decide

theorem witness_RegisterJumps :
    let s := withRegs small [(1, sx 0xFFFFFFFC), (2, 1), (3, 3)]
    s.delay = .none ∧ (s.low 1).toNat % 4 = 0 ∧ (s.low 0).toNat % 4 = 0 ∧ (s.low 2).toNat % 4 ≠ 0 ∧
      (s.low 3).toNat % 4 ≠ 0 := by decide

/-- For AbsoluteJumps, BranchesOnEquality, BranchesOnSign and LinkingBranches, at both ends of an address region. -/
theorem witness_control_outside_a_slot : small.delay = .none ∧ atRegionEnd.delay = .none := by decide

theorem witness_ControlInstructionsHaltInDelaySlots :
    Instr.isControl .eret = true ∧ Instr.isControl (.j 0) = true ∧ Instr.isControl (.sw 1 2 3) = false ∧
    (inSlot small).delay ≠ .none ∧
    ({ small with delay := .notTaken } : State).delay ≠ .none := by decide

/-- An addu outside a slot, in either kind of slot, and an add that traps. -/
theorem witness_OtherInstructionsEndAtTheSuccessor :
    Instr.isControl (.addu 3 1 2) = false ∧ (∃ t, exec (.addu 3 1 2) small = .next t) ∧
    (∃ t, exec (.addu 3 1 2) (inSlot small) = .next t) ∧
    (∃ t, exec (.addu 3 1 2) { small with delay := .notTaken } = .next t) ∧
    (∃ t, exec (.add 3 1 2) overflowing = .next t) :=
  ⟨by decide, exists_next (by decide), exists_next (by decide), exists_next (by decide), exists_next (by decide)⟩

theorem witness_JumpTakesEffectAfterItsSlot :
    ∃ t u, small.delay = .none ∧ exec (.j 0x100) small = .next t ∧ exec (.addu 3 1 2) t = .next u ∧
      ¬TrapsOverflow t (exec (.addu 3 1 2) t) := by
  refine ⟨small.transfer (.taken 0x400#32), _, rfl, rfl, rfl, ?_⟩
  rintro ⟨t, ht, hc, -⟩
  cases ht
  exact absurd hc (by decide)

/-- The last byte of RAM and the first after it; the cartridge's first byte, its last, and the ones around it. -/
theorem witness_AddressDecodeIsTotal :
    withRom.place 0x007FFFFF#32 = some (.ram 0x7FFFFF) ∧ withRom.place 0x00800000#32 = none ∧
    withRom.place 0x0FFFFFFF#32 = none ∧ withRom.place 0x10000000#32 = some (.rom 0) ∧
    withRom.place 0x100001FF#32 = some (.rom 0x1FF) ∧ withRom.place 0x10000200#32 = none := by decide

/-- The last word of RAM, and the last word of the smallest cartridge. -/
theorem witness_WordsReadBackAndRomReadsTheCartridge :
    withRom.ram.wf ∧ (0x007FFFFC#32).toNat % 4 = 0 ∧ (0x007FFFFC#32).toNat < withRom.cfg.ramSize ∧
    withRom.cfg.wellFormed = true ∧ cartridgeOk withRom.cfg (List.replicate 0x40 1) = true ∧ 0x3C % 4 = 0 ∧
    0x3C < (List.replicate 0x40 (1 : Byte)).length := by decide

theorem witness_MixedWidthViewsAreBigEndian :
    withRom.ram.wf ∧ withRom.cfg.ramSize % 4 = 0 ∧ (0x007FFFFC#32).toNat < withRom.cfg.ramSize ∧
    (0x007FFFFC#32).toNat % 4 = 0 ∧ (0x007FFFFF#32).toNat < withRom.cfg.ramSize := by decide

/-- The last byte of RAM and the first unmapped one; x1 = 0x2000. -/
theorem witness_LoadBytes :
    withRom.byteAt (BitVec.ofInt 32 ((withRom.reg 1).toNat + (0x0003#16).toInt)) = some 0xF3 ∧
    ∃ s : State, s.byteAt (BitVec.ofInt 32 ((s.reg 1).toNat + (0xFFFF#16).toInt)) = some 0 ∧
      s.byteAt (BitVec.ofInt 32 ((s.reg 1).toNat + (0#16).toInt)) = none :=
  ⟨by decide, withRegs withRom [(1, 0x00800000)], by decide, by decide⟩

/-- An even address at the end of RAM, an odd one, and an even unmapped one. -/
theorem witness_LoadHalves :
    let s := withRegs withRom [(1, 0x00800000)]
    let ea (imm : Half) : Addr := BitVec.ofInt 32 ((s.reg 1).toNat + imm.toInt)
    s.RegionsAligned ∧
    ((ea 0xFFFE#16).toNat % 2 = 0 ∧ s.byteAt (ea 0xFFFE#16) = some 0 ∧ s.byteAt (ea 0xFFFE#16 + 1#32) = some 0) ∧
    (ea 0xFFFF#16).toNat % 2 ≠ 0 ∧ ((ea 0#16).toNat % 2 = 0 ∧ s.byteAt (ea 0#16) = none) :=
  ⟨⟨by decide, by decide, by decide⟩, by decide, by decide, by decide⟩

/-- The last word of RAM, addresses misaligned by 1 and 3, and a 4-aligned unmapped one. -/
theorem witness_LoadWords :
    let s := withRegs withRom [(1, 0x00800000)]
    let ea (imm : Half) : Addr := BitVec.ofInt 32 ((s.reg 1).toNat + imm.toInt)
    s.RegionsAligned ∧
    ((ea 0xFFFC#16).toNat % 4 = 0 ∧ s.byteAt (ea 0xFFFC#16) = some 0 ∧ s.byteAt (ea 0xFFFC#16 + 1#32) = some 0 ∧
      s.byteAt (ea 0xFFFC#16 + 2#32) = some 0 ∧ s.byteAt (ea 0xFFFC#16 + 3#32) = some 0) ∧
    ((ea 1#16).toNat % 4 ≠ 0 ∧ (ea 0xFFFF#16).toNat % 4 ≠ 0) ∧
    ((ea 0#16).toNat % 4 = 0 ∧ s.byteAt (ea 0#16) = none) :=
  ⟨⟨by decide, by decide, by decide⟩, by decide, by decide, by decide⟩

/-- For StoreBytes, StoreHalves and StoreWords: the end of RAM, the first and last places of the cartridge, misaligned
addresses, and the unmapped address after RAM. -/
theorem witness_stores :
    let s := withRegs withRom [(1, 0x00800000), (2, 0x10000000)]
    let ea (r : Reg) (imm : Half) : Addr := effectiveAddr (s.reg r) imm
    s.RegionsAligned ∧ s.ram.wf ∧
    ((ea 1 0xFFFF#16).toNat < s.cfg.ramSize ∧ (ea 1 0xFFFE#16).toNat % 2 = 0 ∧ (ea 1 0xFFFC#16).toNat % 4 = 0) ∧
    (InCartridge s (ea 2 0#16) ∧ InCartridge s (ea 2 0x01FF#16) ∧ InCartridge s (ea 2 0x01FC#16) ∧
      (ea 2 0x01FC#16).toNat % 4 = 0) ∧
    ((ea 1 1#16).toNat % 2 ≠ 0 ∧ (ea 1 2#16).toNat % 4 ≠ 0) ∧
    (s.byteAt (ea 1 0#16) = none ∧ (ea 1 0#16).toNat % 4 = 0) :=
  ⟨⟨by decide, by decide, by decide⟩, by decide, by decide,
    ⟨by unfold InCartridge; decide, by unfold InCartridge; decide, by unfold InCartridge; decide, by decide⟩,
    by decide, by decide⟩

theorem witness_StoresAreSeenByTheNextFetch :
    withRom.ram.wf ∧ withRom.delay = .none ∧ effectiveAddr (withRom.reg 1) 0xF004#16 = withRom.pc + 4#32 ∧
    (withRom.pc + 4#32).toNat % 4 = 0 ∧ (withRom.pc + 4#32).toNat < withRom.cfg.ramSize := by decide

/-- The numbers next to the implemented ones, in both modes. -/
theorem witness_AbsentCp0RegistersAreUnsupported :
    (11#5 : Reg) ≠ 12 ∧ (11#5 : Reg) ≠ 13 ∧ (11#5 : Reg) ≠ 14 ∧ (15#5 : Reg) ≠ 12 ∧ (15#5 : Reg) ≠ 13 ∧
    (15#5 : Reg) ≠ 14 ∧ small.cfg.mode = .strict ∧ (permissive small).cfg.mode = .permissive := by decide

theorem witness_EretReturnsOrHalts :
    small.delay = .none ∧ small.epc.toNat % 4 = 0 ∧ ({ small with epc := 0xFFFFFFFC#32 } : State).epc.toNat % 4 = 0 ∧
    ({ small with epc := 0x213#32 } : State).epc.toNat % 4 ≠ 0 ∧ (inSlot small).delay ≠ .none := by decide

/-- MTC0, ERET and an overflowing ADD change Status, Cause or EPC. -/
theorem witness_OnlyMtc0EretAndTrapsWriteCp0 :
    (∃ t, exec (.mtc0 1 14) (withRegs small [(1, 4)]) = .next t ∧ ¬Cp0Same (withRegs small [(1, 4)]) t) ∧
    (∃ t, exec .eret { small with status := 2 } = .next t ∧ ¬Cp0Same { small with status := 2 } t) ∧
    (∃ t, exec (.add 3 1 2) overflowing = .next t ∧ ¬Cp0Same overflowing t) :=
  ⟨⟨_, rfl, by unfold Cp0Same; decide⟩, ⟨_, rfl, by unfold Cp0Same; decide⟩, ⟨_, rfl, by unfold Cp0Same; decide⟩⟩

theorem witness_TrapEntrySavesAndRedirects :
    statusEXL small.status = false ∧ statusEXL ({ small with status := 0x403#32 } : State).status = true := by decide

theorem witness_TrapThenEretReturns : statusEXL small.status = false ∧ small.pc.toNat % 4 = 0 := by decide

/-- At the first and at the last processor step of a macro-step. -/
theorem witness_InterruptIsTakenBeforeTheFetch :
    let s := interrupted 0x401#32 0x400#32
    ProcessorsTurn s 0 ∧ ProcessorsTurn { s with phase := .processor 999 } 999 ∧ s.delay = .none ∧
      statusIE s.status = true ∧ statusEXL s.status = false ∧ causeIP s.cause &&& statusIM s.status ≠ 0 :=
  ⟨⟨by decide, by decide, by decide, fun _ => by decide⟩,
    ⟨by decide, by decide, by decide, fun h => absurd h (by decide)⟩, by decide, by decide, by decide, by decide⟩

/-- A word that runs, and one whose instruction halts. -/
theorem witness_StepRunsTheDecodedInstruction :
    (ProcessorsTurn (before 0x00221821 []) 0 ∧ NoInterrupt (before 0x00221821 []) ∧
      (before 0x00221821 []).readWord (before 0x00221821 []).pc = .ok 0x00221821#32 ∧
      decode 0x00221821#32 = some (.addu 3 1 2) ∧ ∃ t, exec (.addu 3 1 2) (before 0x00221821 []) = .next t) ∧
    (ProcessorsTurn (inSlot (before 0x08000100 [])) 0 ∧ NoInterrupt (inSlot (before 0x08000100 [])) ∧
      (inSlot (before 0x08000100 [])).readWord 0x1000#32 = .ok 0x08000100#32 ∧
      decode 0x08000100#32 = some (.j 0x100) ∧
      exec (.j 0x100) (inSlot (before 0x08000100 [])) = .fault (.branchInDelaySlot 0x1000#32 0x08000100#32)) :=
  ⟨⟨⟨by decide, by decide, by decide, fun _ => by decide⟩, .inr (by decide), rfl, by decide, exists_next (by decide)⟩,
    ⟨⟨by decide, by decide, by decide, fun _ => by decide⟩, .inl (by decide), rfl, by decide, eq_fault (by decide)⟩⟩

/-- An unmapped pc, and an unsupported word in each mode. -/
theorem witness_FetchAndDecodeFailures :
    (NoInterrupt { small with pc := 0x00800000#32 } ∧ (0x00800000#32).toNat % 4 = 0 ∧
      ({ small with pc := 0x00800000#32 } : State).byteAt 0x00800000#32 = none) ∧
    (NoInterrupt (before 0x0000000D []) ∧ (before 0x0000000D []).pc.toNat % 4 = 0 ∧
      (before 0x0000000D []).readWord (before 0x0000000D []).pc = .ok 0x0000000D#32 ∧ decode 0x0000000D#32 = none ∧
      (before 0x0000000D []).cfg.mode = .strict ∧ (permissive (before 0x0000000D [])).cfg.mode = .permissive) :=
  ⟨⟨.inr (by decide), by decide, by decide⟩,
    ⟨.inr (by decide), by decide, rfl, by decide, by decide, by decide⟩⟩

/-- The last processor step of a macro-step, with a request held. -/
def heldAtTheEnd : State := { (before 0x0000000D []).issue .pause with phase := .processor 999 }

/-- A halt with no request held, and one inside a macro-step with a request held. -/
theorem witness_HaltStopsTheLoopAndRestartRepeatsIt :
    (ProcessorsTurn (before 0x0000000D []) 0 ∧ (before 0x0000000D []).requests = [] ∧
      processorStep (before 0x0000000D []) = .fault (.unsupportedOpcode 0x1000#32 0x0000000D#32)) ∧
    (ProcessorsTurn heldAtTheEnd 999 ∧ heldAtTheEnd.requests = [.pause] ∧
      processorStep heldAtTheEnd = .fault (.unsupportedOpcode 0x1000#32 0x0000000D#32)) :=
  ⟨⟨⟨by decide, by decide, by decide, fun _ => by decide⟩, by decide, eq_fault (by decide)⟩,
    ⟨⟨by decide, by decide, by decide, fun h => absurd h (by decide)⟩, by decide, eq_fault (by decide)⟩⟩

/-- An instruction that emits nothing, and one that emits a log event. -/
theorem witness_InstructionsLeaveTheRestAlone :
    (∃ t, exec (.addu 3 1 2) small = .next t ∧ t.outputs = small.outputs) ∧
    (∃ t, exec (.mfc0 2 9) (permissive small) = .next t ∧ t.outputs = [.unsupported 0x1000#32 0x40024800#32]) :=
  ⟨⟨_, rfl, by decide⟩, ⟨_, rfl, by decide⟩⟩

theorem witness_MacroStepPhasesInOrder :
    small.cfg.wellFormed = true ∧ small.loop = .running ∧
    (ProcessorsTurn (before 0x00221821 []) 0 ∧ ∃ t, processorStep (before 0x00221821 []) = .next t) ∧
    ({ small with phase := .signal } : State).phase = .signal ∧
    ({ small with phase := .display } : State).phase = .display ∧
    ({ small with phase := .collaborators } : State).phase = .collaborators :=
  ⟨by decide, rfl, ⟨⟨by decide, by decide, by decide, fun _ => by decide⟩, exists_next (by decide)⟩, rfl, rfl, rfl⟩

/-- READY clear and READY set, with the mailbox at the end of RAM. -/
theorem witness_SignalCoprocessorPhase :
    (taskState 0).ram.wf ∧ (taskState 0).mailboxWord 0 = 0 ∧ (taskState 1).ram.wf ∧ (taskState 1).mailboxWord 0 ≠ 0 ∧
    (taskState 1).ram.below (taskState 1).cfg.ramSize ∧
    (taskState 1).cfg.mailboxAddr.toNat + 4 ≤ (taskState 1).cfg.ramSize ∧
    Config.mailboxAddrOk { Config.default with mailboxAddr := 0x007FFFF4#32 } = true := by decide

/-- The invariant at State.reset: for SaveThenLoadRestoresTheState, LoadedStatesKeepTheInvariant and
StepKeepsTheInvariant. -/
theorem witness_inv : State.reset.Inv where
  cfgOk := by decide
  slotZero := by decide
  regsSext := by decide
  pcAligned := by decide
  delayAligned := fun t ht => by simp [State.reset, State.construct] at ht
  statusBits := by decide
  causeBits := by decide
  excCode := by decide
  ramWf := by decide
  ramBelow := by decide
  romWf := by decide
  romBelow := by decide
  romAligned := by decide
  romFits := by decide
  spOk := by simp [State.reset, State.construct, Config.spImageOk]
  dpOk := by simp [State.reset, State.construct, Config.dpImageOk, DpState.reset]
  pixelsFit := by decide
  ctrlFit := by decide
  phaseOk := fun k hk => by cases hk; decide
  restsAtBoundary := fun _ => rfl

/-- A display coprocessor that has a command pending. -/
def displayPending : State := { small with dp := { small.dp with pending := true } }

/-- A render that paints the whole buffer and keeps its opaque state. -/
def paint : DpRender := fun _ pixels image _ => { pixels := pixels.map fun _ => 0xFF, image := image }

/-- A pending command, a frame of the buffer's size with an image DP_ENCODE produces, and records for a yield. -/
theorem witness_DisplayAndYieldPhases :
    (small.dp.pending = false ∧ displayPending.dp.pending = true) ∧
    ((paint true displayPending.dp.pixels displayPending.dp.image displayPending.ram.cells).pixels.length =
        displayPending.cfg.pixelBytes ∧
      Config.dpImageOk (paint true displayPending.dp.pixels displayPending.dp.image displayPending.ram.cells).image =
        true ∧
      (displayPending.renderWith paint).dp.pixels = [0xFF, 0xFF, 0xFF, 0xFF]) ∧
    ((small.provideInput [Controller.zero]).inputs = [[Controller.zero]] ∧ 0 < small.ctrl.length) :=
  ⟨by decide, ⟨by decide, witness_inv.dpOk, by decide⟩, by decide⟩

theorem witness_RequestsActOnlyAtBoundaries :
    small.cfg.wellFormed = true ∧ (small.issue .pause).requests = .pause :: [] ∧
    (small.issue .pause).phase = .processor 0 ∧ State.reset.loop ≠ .running ∧
    ∃ t, step { small.issue .pause with phase := .collaborators } = .next t :=
  ⟨by decide, by decide, by decide, by decide, exists_next (by decide)⟩

theorem witness_LoopTransitions :
    State.reset.cfg.wellFormed = true ∧ State.reset.loop ≠ .running ∧ State.reset.requests = [] ∧
    ({ small with loop := .paused } : State).loop ≠ .running := by decide

theorem witness_ResetRequestResetsTheMachine :
    (0x007FFFFF#32).toNat < withRom.cfg.ramSize ∧ withRom.cfg.ramSize ≤ (0x00800000#32).toNat := by decide

/-- The least length that loads, the length below it, and one that is no multiple of 4. -/
theorem witness_CartridgeLoadMapsTheStream :
    let good (n : Nat) : Prop := (List.replicate n (0 : Byte)).length % 4 = 0 ∧
      Config.default.headerSize ≤ (List.replicate n (0 : Byte)).length ∧
      Config.default.cartridgeBase.toNat + (List.replicate n (0 : Byte)).length ≤ 2 ^ 32
    Config.default.wellFormed = true ∧ good 0x40 ∧ ¬good 0x3C ∧ ¬good 0x41 := by
  simp only [List.length_replicate]; decide

theorem witness_CheatWritesOneRamWord :
    small.ram.wf ∧ ((0x007FFFFC#32).toNat % 4 = 0 ∧ (0x007FFFFC#32).toNat + 4 ≤ small.cfg.ramSize) ∧
    ¬((0x00800000#32).toNat % 4 = 0 ∧ (0x00800000#32).toNat + 4 ≤ small.cfg.ramSize) ∧
    ¬((0x102#32).toNat % 4 = 0 ∧ (0x102#32).toNat + 4 ≤ small.cfg.ramSize) := by decide

/-- The same of a state that runs. -/
theorem witness_inv_running : small.Inv :=
  { witness_inv with pcAligned := by decide, restsAtBoundary := fun h => absurd rfl h }

/-- Every section of the reset state's snapshot has a length that fits. -/
theorem witness_snapshotFits : SnapshotFits State.reset where
  sp := by simp [State.reset, State.construct, Config.spResetImage]
  dp := by simp [State.reset, State.construct, DpState.reset, Config.dpResetImage, Config.pixelBytes,
    Config.default]; omega
  ctrl := by decide

theorem witness_OnlyCartridgeLoadsChangeTheRom :
    (∃ t, step (before 0x00221821 []) = .next t) ∧
    (∃ t, step (State.reset.issue (.loadCartridge (List.replicate 0x40 1))) = .next t) ∧
    (State.reset.issue (.loadCartridge (List.replicate 0x40 1))).requests =
      .loadCartridge (List.replicate 0x40 1) :: [] ∧ State.reset.loop ≠ .running :=
  ⟨exists_next (by decide), exists_next (by decide), rfl, by decide⟩

/-- For InvariantHoldsAtConstruction: the least configuration that keeps the constraints. -/
theorem witness_InvariantHoldsAtConstruction :
    Config.wellFormed
      { Config.default with
        ramSize := 12, cartridgeBase := 12#32, headerSize := 4, entryVector := 0#32, exceptionVector := 0#32,
        mailboxAddr := 0#32, insnBudget := 1 } = true := by decide

/-- A step from a state that keeps the invariant, running and at rest. -/
theorem witness_StepKeepsTheInvariant :
    State.reset.Inv ∧ (∃ t, step State.reset = .next t) ∧ small.Inv ∧ (∃ t, step small = .next t) :=
  ⟨witness_inv, exists_next (by decide), witness_inv_running, exists_next (by decide)⟩

/-- A stream that fails, and one that loads. -/
theorem witness_LoadedStatesKeepTheInvariant :
    State.reset.Inv ∧ State.reset.loadSnapshot [] = none ∧
    ∃ t, State.reset.loadSnapshot (State.reset.snapshot false) = some t := by
  refine ⟨witness_inv, rfl, Option.isSome_iff_exists.mp ?_⟩
  rw [State.loadSnapshot, parseSnapshot_snapshot witness_inv witness_snapshotFits]
  rfl

theorem witness_SaveThenLoadRestoresTheState : State.reset.Inv ∧ SnapshotFits State.reset :=
  ⟨witness_inv, witness_snapshotFits⟩

/-- A configuration that breaks a constraint, and one that keeps them all. -/
theorem witness_OnlyBadConfigurationsAreRefused :
    ({ small with cfg := { small.cfg with insnBudget := 0 } } : State).cfg.wellFormed = false ∧
    small.cfg.wellFormed = true := by decide

end Sys2Proof.Machine.Tests
end

