-- ==== Sys2Proof/Proofs/Refusal.lean ====
section
/-! SUPPORT. Where the model refuses: no instruction and no turn does, so only the configuration's check is left
(00_scope.md R5; logs 8 and 10). -/

namespace Sys2Proof.Machine

variable {s : State}

/-! ## What the shared operations answer: a next state or a halt -/

/-- An outcome that is a next state or a halt. -/
def NotRefused (m : Result) : Prop := ∀ r, m ≠ .refused r

theorem notRefused_next (t : State) : NotRefused (.next t) := fun _ => nofun

theorem notRefused_fault (f : Fault) : NotRefused (.fault f) := fun _ => nofun

theorem notRefused_ite {c : Prop} [Decidable c] {m n : Result} (hm : NotRefused m) (hn : NotRefused n) :
    NotRefused (if c then m else n) := by
  split
  · exact hm
  · exact hn

theorem notRefused_writeResult (r : Reg) (v : DWord) : NotRefused (s.writeResult r v) := notRefused_next _

theorem notRefused_raiseOverflow : NotRefused s.raiseOverflow := notRefused_next _

theorem notRefused_control (i : Instr) {m : Result} (h : NotRefused m) : NotRefused (s.control i m) :=
  notRefused_ite (notRefused_fault _) h

theorem notRefused_alignedTarget (a : Addr) {m : Result} (h : NotRefused m) : NotRefused (alignedTarget a m) :=
  notRefused_ite (notRefused_fault _) h

theorem notRefused_unsupportedWord (w : Word) : NotRefused (s.unsupportedWord w) := by
  obtain h | h := unsupportedWord_cases (s := s) w <;> rw [h]
  · exact notRefused_fault _
  · exact notRefused_next _

theorem notRefused_loadResult (r : Reg) (x : Except Fault DWord) : NotRefused (s.loadResult r x) := by
  obtain ⟨f, -, h⟩ | ⟨v, -, h⟩ := loadResult_cases (s := s) r x <;> rw [h]
  · exact notRefused_fault f
  · exact notRefused_writeResult r v

theorem notRefused_storeResult (a : Addr) (w : Width) (v : Word) : NotRefused (s.storeResult a w v) := by
  obtain ⟨f, -, h⟩ | ⟨t, h⟩ := storeResult_cases (s := s) a w v <;> rw [h]
  · exact notRefused_fault f
  · exact notRefused_next t

/-! ## What the instructions answer -/

theorem notRefused_execMfc0 (rt rd : Reg) : NotRefused (execMfc0 rt rd s) := by
  unfold execMfc0
  split
  · exact notRefused_writeResult _ _
  · exact notRefused_unsupportedWord _

theorem notRefused_execMtc0 (rt rd : Reg) : NotRefused (execMtc0 rt rd s) := by
  unfold execMtc0
  split
  · exact notRefused_next _
  · exact notRefused_unsupportedWord _

/-- Every instruction has a meaning in every state: it completes or halts (40_execution_cycle.md R104, R108). -/
theorem notRefused_exec (i : Instr) : NotRefused (exec i s) := by
  cases i with
  | addu | subu | and | or | xor | nor | slt | sltu | sll | srl | sra | sllv | srlv | srav
  | addiu | slti | sltiu | andi | ori | xori | lui => exact notRefused_writeResult _ _
  | add | sub | addi => exact notRefused_ite notRefused_raiseOverflow (notRefused_writeResult _ _)
  | j | jal | beq | bne | blez | bgtz | bltz | bgez | bltzal | bgezal =>
    exact notRefused_control _ (notRefused_next _)
  | jr | jalr | eret => exact notRefused_control _ (notRefused_alignedTarget _ (notRefused_next _))
  | lb | lbu | lh | lhu | lw => exact notRefused_loadResult _ _
  | sb | sh | sw => exact notRefused_storeResult _ _ _
  | mfc0 rt rd => exact notRefused_execMfc0 rt rd
  | mtc0 rt rd => exact notRefused_execMtc0 rt rd

theorem notRefused_processorStep : NotRefused (processorStep s) := by
  obtain ⟨-, -, h⟩ | ⟨-, ⟨f, -, h⟩ | ⟨w, -, ⟨-, h⟩ | ⟨i, -, h⟩⟩⟩ := processorStep_cases (s := s) <;> rw [h]
  · exact notRefused_next _
  · exact notRefused_fault f
  · exact notRefused_unsupportedWord w
  · exact notRefused_exec i

/-! ## What a turn answers: a next state -/

/-- The processor's turn: a halt is a next state too (80_step_loop_and_snapshot.md R263; log 8). -/
theorem processorTurn_next : ∃ t, s.processorTurn = .next t := by
  unfold State.processorTurn
  cases h : processorStep s with
  | next t => exact ⟨t.countStep, rfl⟩
  | fault f => exact ⟨s.haltWith f, rfl⟩
  | refused r => exact absurd h (notRefused_processorStep r)

theorem macroStepTurn_next : ∃ t, s.macroStepTurn = .next t := by
  unfold State.macroStepTurn
  cases s.phase with
  | processor k => exact processorTurn_next
  | signal | display | collaborators => exact ⟨_, rfl⟩

/-- A loop that is not Running rests (80_step_loop_and_snapshot.md R265; log 9). -/
theorem loopTurn_next : ∃ t, s.loopTurn = .next t := by
  unfold State.loopTurn
  cases s.loop with
  | running => exact macroStepTurn_next
  | stopped | paused => exact ⟨s, rfl⟩

/-- At a boundary the first held request is applied, whatever it is (80_step_loop_and_snapshot.md R271). -/
theorem turn_next : ∃ t, s.turn = .next t := by
  unfold State.turn
  split
  · cases s.requests with
    | nil => exact loopTurn_next
    | cons r rest => exact ⟨_, rfl⟩
  · exact loopTurn_next

/-! ## The configuration's check -/

theorem step_of_badConfiguration (h : s.cfg.wellFormed = false) : step s = .refused .invalidConfiguration := by
  simp [step, h]

theorem step_of_goodConfiguration (h : s.cfg.wellFormed = true) : step s = s.turn := by
  simp [step, h]

/-- Settles O60: only the configuration's check refuses, because a turn always answers a next state. -/
theorem onlyBadConfigurationsAreRefused : Obligations.OnlyBadConfigurationsAreRefused := by
  unfold Obligations.OnlyBadConfigurationsAreRefused
  refine fun s => ⟨step_of_badConfiguration, fun h => ?_⟩
  rw [step_of_goodConfiguration h]
  exact turn_next

end Sys2Proof.Machine
end

