-- ==== Sys2Proof/Proofs/State.lean ====
section
/-! SUPPORT. What an instruction can answer, said once (`exec_answer`); from it, that only MTC0, ERET and an overflow write
CP0 (10_state.md R34), and that every step keeps the invariant (10_state.md R21 to R25, R31, R32, R36, R37). -/

namespace Sys2Proof.Machine

variable {s t : State} {i : Instr}

/-! ## The register file -/

/-- Settles O4: from the laws of the two register ports. -/
theorem registerZeroIsHardwired : Obligations.RegisterZeroIsHardwired := by
  unfold Obligations.RegisterZeroIsHardwired
  refine fun s r v => ⟨s.reg_zero, s.setReg_zero v, fun hr => ?_, fun q hq => s.reg_setReg_of_ne v hq⟩
  exact (s.reg_setReg_self r v).trans (if_neg hr)

/-! ## What an instruction answers -/

/-- Every answer an instruction `i` can give in the state `s`. What the invariant needs of a written value or of a transfer's
target stands under the hypothesis that the state keeps it. -/
inductive Answer (s : State) (i : Instr) : Result → Prop
  | halts (f : Fault) : Answer s i (.fault f)
  | writesRegister (r : Reg) (v : DWord) (hv : s.Inv → isSext v) : Answer s i (.next (s.setReg r v).finish)
  | transfers (d : Delay) (hd : s.Inv → ∀ a, d = .taken a → a.toNat % 4 = 0) : Answer s i (.next (s.transfer d))
  | links (r : Reg) (d : Delay) (hd : s.Inv → ∀ a, d = .taken a → a.toNat % 4 = 0) :
      Answer s i (.next ((s.setReg r (linkValue s.pc)).transfer d))
  | stores (a : Addr) (w : Width) (v : Word) (t : State) (h : s.memWrite a w v = .ok t) : Answer s i (.next t.finish)
  | logsNoOp (w : Word) : Answer s i (.next (s.emit (.unsupported s.pc w)).finish)
  | traps (hi : i.mnemonic ∈ ["ADD", "SUB", "ADDI"]) (h : exec i s = s.raiseOverflow) :
      Answer s i (.next (s.trapEntry excOv s.pc s.inDelaySlot))
  | writesCp0 (hi : i.mnemonic = "MTC0") (n : Reg) (v : Word) (t : State) (h : s.cp0Write n v = some t) :
      Answer s i (.next t.finish)
  | returns (hi : i = .eret) (h : s.epc.toNat % 4 = 0) :
      Answer s i (.next { s with status := clearEXL s.status, pc := s.epc, delay := .none })

theorem answer_writeResult {r : Reg} {v : DWord} (hv : s.Inv → isSext v) : Answer s i (s.writeResult r v) :=
  .writesRegister r v hv

theorem answer_loadResult (r : Reg) {x : Except Fault DWord} (hx : ∀ v, x = .ok v → isSext v) :
    Answer s i (s.loadResult r x) := by
  obtain ⟨f, -, e⟩ | ⟨v, hv, e⟩ := loadResult_cases (s := s) r x <;> rw [e]
  · exact .halts f
  · exact answer_writeResult fun _ => hx v hv

theorem answer_storeResult (a : Addr) (w : Width) (v : Word) : Answer s i (s.storeResult a w v) := by
  unfold State.storeResult
  cases h : s.memWrite a w v with
  | error f => exact .halts f
  | ok t => exact .stores a w v t h

theorem answer_unsupportedWord (w : Word) : Answer s i (s.unsupportedWord w) := by
  obtain e | e := unsupportedWord_cases (s := s) w <;> rw [e]
  · exact .halts _
  · exact .logsNoOp w

/-- The arithmetic that traps: on overflow the trap, else the result in its register. -/
theorem answer_ofOverflow {c : Bool} {r : Reg} {w : Word} (hi : i.mnemonic ∈ ["ADD", "SUB", "ADDI"])
    (he : exec i s = if c then s.raiseOverflow else s.writeResult r (sext64 w)) : Answer s i (exec i s) := by
  cases c with
  | false => rw [he]; exact answer_writeResult fun _ => isSext_sext64 w
  | true => have := Answer.traps hi he; rwa [he]

theorem answer_control {m : Result} (h : Answer s i m) : Answer s i (s.control i m) := by
  obtain e | e := control_cases (s := s) i m <;> rw [e]
  · exact .halts _
  · exact h

theorem answer_alignedTarget {a : Addr} {m : Result} (h : a.toNat % 4 = 0 → Answer s i m) :
    Answer s i (alignedTarget a m) := by
  by_cases ha : a.toNat % 4 = 0
  · rw [alignedTarget_of_aligned m ha]; exact h ha
  · rw [alignedTarget_of_misaligned m ha]; exact .halts _

theorem taken_aligned {a : Addr} (ha : a.toNat % 4 = 0) : ∀ b, Delay.taken a = .taken b → b.toNat % 4 = 0 :=
  fun _ e => Delay.taken.inj e ▸ ha

/-- The delay state a conditional branch sets. -/
theorem branchDelay_aligned (h : s.Inv) (c : Bool) (imm : Half) :
    ∀ a, (if c then Delay.taken (branchTarget s.pc imm) else .notTaken) = .taken a → a.toNat % 4 = 0 :=
  (Inv_branch h c imm).delayAligned

theorem answer_branch (c : Bool) (imm : Half) : Answer s i (.next (s.branch c imm)) :=
  .transfers _ fun h => branchDelay_aligned h c imm

theorem answer_branchLink (r : Reg) (c : Bool) (imm : Half) :
    Answer s i (.next ((s.setReg r (linkValue s.pc)).branch c imm)) := by
  rw [branch_setReg_eq]
  exact .links r _ fun h => branchDelay_aligned h c imm

/-- A loaded value extended to 64 bits. -/
theorem isSext_of_map {n : Nat} {x : Except Fault (BitVec n)} {f : BitVec n → DWord} (hf : ∀ b, isSext (f b)) :
    ∀ v, x.map f = .ok v → isSext v := by
  cases x with
  | error e => exact nofun
  | ok b => rintro _ ⟨⟩; exact hf b

theorem answer_execMfc0 (rt rd : Reg) : Answer s i (execMfc0 rt rd s) := by
  unfold execMfc0
  split
  · exact answer_writeResult fun _ => isSext_sext64 _
  · exact answer_unsupportedWord _

theorem answer_execMtc0 (rt rd : Reg) : Answer s (.mtc0 rt rd) (execMtc0 rt rd s) := by
  unfold execMtc0
  split
  next t h => exact .writesCp0 rfl rd _ t h
  next => exact answer_unsupportedWord _

theorem answer_execEret : Answer s .eret (execEret s) :=
  answer_control (answer_alignedTarget (.returns rfl))

/-- What an instruction can answer, one shape for each shared end of an instruction. -/
theorem exec_answer (i : Instr) (s : State) : Answer s i (exec i s) := by
  cases i with
  | add | sub | addi => exact answer_ofOverflow (by simp [Instr.mnemonic]) rfl
  | addu | subu | sll | srl | sra | sllv | srlv | srav | addiu | lui =>
    exact answer_writeResult fun _ => isSext_sext64 _
  | slt | sltu | slti | sltiu => exact answer_writeResult fun _ => isSext_boolValue _
  | and => exact answer_writeResult fun h => isSext_and (h.regsSext _) (h.regsSext _)
  | or => exact answer_writeResult fun h => isSext_or (h.regsSext _) (h.regsSext _)
  | xor => exact answer_writeResult fun h => isSext_xor (h.regsSext _) (h.regsSext _)
  | nor => exact answer_writeResult fun h => isSext_not (isSext_or (h.regsSext _) (h.regsSext _))
  | andi => exact answer_writeResult fun h => isSext_and (h.regsSext _) (isSext_zimm64 _)
  | ori => exact answer_writeResult fun h => isSext_or (h.regsSext _) (isSext_zimm64 _)
  | xori => exact answer_writeResult fun h => isSext_xor (h.regsSext _) (isSext_zimm64 _)
  | jr => exact answer_control (answer_alignedTarget fun ha => .transfers _ fun _ => taken_aligned ha)
  | jalr => exact answer_control (answer_alignedTarget fun ha => .links _ _ fun _ => taken_aligned ha)
  | j => exact answer_control (.transfers _ fun _ => taken_aligned (jumpTarget_aligned _ _))
  | jal => exact answer_control (.links _ _ fun _ => taken_aligned (jumpTarget_aligned _ _))
  | beq | bne | blez | bgtz | bltz | bgez => exact answer_control (answer_branch _ _)
  | bltzal | bgezal => exact answer_control (answer_branchLink _ _ _)
  | lb | lh | lw => exact answer_loadResult _ (isSext_of_map (isSext_signExtend (by decide)))
  | lbu | lhu => exact answer_loadResult _ (isSext_of_map (isSext_setWidth (by decide)))
  | sb | sh | sw => exact answer_storeResult _ _ _
  | mfc0 rt rd => exact answer_execMfc0 rt rd
  | mtc0 rt rd => exact answer_execMtc0 rt rd
  | eret => exact answer_execEret

theorem answer_of_next (h : exec i s = .next t) : Answer s i (.next t) := h ▸ exec_answer i s

/-- A store changes RAM only. -/
theorem memWrite_eq {a : Addr} {w : Width} {v : Word} (h : s.memWrite a w v = .ok t) : t = { s with ram := t.ram } := by
  obtain ⟨f, -, e⟩ | ⟨o, -, e⟩ | ⟨o, -, e⟩ := memWrite_cases (s := s) a w v <;> rw [e] at h <;> cases h <;> rfl

/-- A write to a CP0 register as MTC0 makes it: Status under its mask, IP of Cause, or EPC (45_coprocessor0.md R205). -/
theorem cp0Write_cases {n : Reg} {v : Word} (h : s.cp0Write n v = some t) :
    t = { s with status := mtc0Status v } ∨ t = { s with cause := mtc0Cause s.cause v } ∨ t = { s with epc := v } := by
  unfold State.cp0Write at h
  split at h
  · exact .inl (Option.some.inj h).symm
  · exact .inr (.inl (Option.some.inj h).symm)
  · exact .inr (.inr (Option.some.inj h).symm)
  · cases h

/-! ## Who writes CP0 -/

/-- Settles O39: of the ends of an instruction only MTC0's, ERET's and the overflow trap touch CP0. -/
theorem onlyMtc0EretAndTrapsWriteCp0 : Obligations.OnlyMtc0EretAndTrapsWriteCp0 := by
  unfold Obligations.OnlyMtc0EretAndTrapsWriteCp0
  intro i s t h changed
  cases answer_of_next h with
  | writesCp0 hi => exact .inl (by simp [hi])
  | returns hi => exact .inl (by simp [hi, Instr.mnemonic])
  | traps hi he => exact .inr ⟨hi, he ▸ raiseOverflow_traps⟩
  | writesRegister r v | links r d => exact absurd (by simp [Cp0Same]) changed
  | transfers d | logsNoOp w => exact absurd ⟨rfl, rfl, rfl⟩ changed
  | stores a w v t hm => rw [memWrite_eq hm] at changed; exact absurd ⟨rfl, rfl, rfl⟩ changed

/-! ## The invariant over an instruction -/

theorem Inv_cp0Write (h : s.Inv) {n : Reg} {v : Word} (e : s.cp0Write n v = some t) : t.Inv := by
  obtain rfl | rfl | rfl := cp0Write_cases e
  · exact { h with statusBits := statusBits_mtc0Status v }
  · exact { h with
      causeBits := causeBits_mtc0Cause v h.causeBits
      excCode := (causeExcCode_mtc0Cause s.cause v).symm ▸ h.excCode }
  · exact { h with }

theorem Inv_trapReturn (h : s.Inv) (ha : s.epc.toNat % 4 = 0) :
    ({ s with status := clearEXL s.status, pc := s.epc, delay := .none } : State).Inv :=
  { h with statusBits := statusBits_clearEXL h.statusBits, pcAligned := ha, delayAligned := nofun }

theorem exec_keepsInv (h : s.Inv) (e : exec i s = .next t) : t.Inv := by
  cases answer_of_next e with
  | writesRegister r v hv => exact Inv_finish (Inv_setReg h r (hv h))
  | transfers d hd => exact Inv_transfer h (hd h)
  | links r d hd => exact Inv_transfer (Inv_setReg h r (isSext_sext64 _)) (hd h)
  | stores a w v t hm => exact Inv_finish (Inv_memWrite h hm)
  | logsNoOp w => exact Inv_finish (Inv_emit h _)
  | traps => exact Inv_trapEntry h (.inr rfl) _ _
  | writesCp0 _ n v t hc => exact Inv_finish (Inv_cp0Write h hc)
  | returns _ ha => exact Inv_trapReturn h ha

theorem exec_loop (e : exec i s = .next t) : t.loop = s.loop := by
  cases answer_of_next e with
  | writesRegister | links => simp
  | transfers | logsNoOp | traps | returns => rfl
  | stores a w v t hm => rw [memWrite_eq hm]; rfl
  | writesCp0 _ n v t hc => obtain rfl | rfl | rfl := cp0Write_cases hc <;> rfl

/-! ## The invariant over a processor step -/

theorem unsupportedWord_next {w : Word} (e : s.unsupportedWord w = .next t) :
    t = (s.emit (.unsupported s.pc w)).finish := by
  obtain e' | e' := unsupportedWord_cases (s := s) w <;> rw [e'] at e <;> cases e
  rfl

/-- The next state of a processor step: the interrupt's, the logged no-op's, or an instruction's. -/
theorem processorStep_next (e : processorStep s = .next t) :
    t = s.takeInterrupt ∨ (∃ w, t = (s.emit (.unsupported s.pc w)).finish) ∨ ∃ i, exec i s = .next t := by
  obtain ⟨-, -, h⟩ | ⟨-, ⟨f, -, h⟩ | ⟨w, -, ⟨-, h⟩ | ⟨i, -, h⟩⟩⟩ := processorStep_cases (s := s) <;> rw [h] at e
  · cases e; exact .inl rfl
  · cases e
  · exact .inr (.inl ⟨w, unsupportedWord_next e⟩)
  · exact .inr (.inr ⟨i, e⟩)

theorem processorStep_keepsInv (h : s.Inv) (e : processorStep s = .next t) : t.Inv := by
  obtain rfl | ⟨w, rfl⟩ | ⟨i, e⟩ := processorStep_next e
  · exact Inv_trapEntry h (.inl rfl) _ _
  · exact Inv_finish (Inv_emit h _)
  · exact exec_keepsInv h e

theorem processorStep_loop (e : processorStep s = .next t) : t.loop = s.loop := by
  obtain rfl | ⟨w, rfl⟩ | ⟨i, e⟩ := processorStep_next e
  · rfl
  · rfl
  · exact exec_loop e

/-! ## The invariant over a turn of the running loop -/

theorem insnBudget_pos (h : s.Inv) : 0 < s.cfg.insnBudget := by
  obtain ⟨-, -, -, -, -, -, hb⟩ := wellFormed_facts h.cfgOk
  exact hb

/-- While the loop runs, the turn may pass to any phase whose count is below INSN_BUDGET. -/
theorem Inv_setPhase (h : s.Inv) (run : s.loop = .running) {p : Phase}
    (hp : ∀ k, p = .processor k → k < s.cfg.insnBudget) : ({ s with phase := p } : State).Inv :=
  { h with phaseOk := hp, restsAtBoundary := fun rest => absurd run rest }

theorem Inv_countStep (h : s.Inv) (run : s.loop = .running) : s.countStep.Inv := by
  unfold State.countStep
  split
  · refine Inv_setPhase h run fun k hk => ?_
    split at hk
    · cases hk; assumption
    · cases hk
  · exact h

theorem Inv_haltWith (h : s.Inv) (f : Fault) : (s.haltWith f).Inv :=
  have pos := insnBudget_pos h
  { h with phaseOk := fun k hk => by cases hk; exact pos, restsAtBoundary := fun _ => rfl }

theorem Inv_completeTask (h : s.Inv) (task : SpTask) : (s.completeTask task).Inv :=
  { h with
    ramWf := Memory.wf_writeBytes (wf_spWrites h.ramWf _) _ _
    ramBelow := by
      obtain ⟨-, -, -, -, -, mailbox, -⟩ := wellFormed_facts h.cfgOk
      refine Memory.below_writeBytes (below_spWrites h.ramBelow _) ?_
      show _ + 4 ≤ _
      omega
    causeBits := causeBits_setIP2 h.causeBits
    excCode := (causeExcCode_setIP2 s.cause).symm ▸ h.excCode
    spOk := by
      simp only [State.completeTask_sp, spAfter]
      split
      · assumption
      · exact h.spOk }

theorem Inv_spStep (h : s.Inv) : s.spStep.Inv := by
  obtain ⟨-, e⟩ | ⟨-, e⟩ := spStepWith_cases (s := s) Config.spProcess <;> rw [State.spStep, e]
  · exact h
  · exact Inv_completeTask h _

theorem spStep_loop : s.spStep.loop = s.loop := by
  obtain ⟨-, e⟩ | ⟨-, e⟩ := spStepWith_cases (s := s) Config.spProcess <;> rw [State.spStep, e]
  rfl

theorem Inv_takeFrame (h : s.Inv) (frame : DpFrame) : (s.takeFrame frame).Inv :=
  { h with
    dpOk := by
      simp only [State.takeFrame_dp]
      split
      · assumption
      · exact h.dpOk
    pixelsFit := by simp [fitPixels] }

/-- The display coprocessor does nothing or takes one frame (80_step_loop_and_snapshot.md R268). -/
theorem renderIfReady_cases : s.renderIfReady = s ∨ ∃ frame, s.renderIfReady = s.takeFrame frame := by
  unfold State.renderIfReady State.renderWith
  split
  · exact .inr ⟨_, rfl⟩
  · exact .inl rfl

theorem Inv_renderIfReady (h : s.Inv) : s.renderIfReady.Inv := by
  obtain e | ⟨frame, e⟩ := renderIfReady_cases (s := s) <;> rw [e]
  · exact h
  · exact Inv_takeFrame h frame

theorem renderIfReady_loop : s.renderIfReady.loop = s.loop := by
  obtain e | ⟨frame, e⟩ := renderIfReady_cases (s := s) <;> rw [e]
  rfl

theorem Inv_yieldPhase (h : s.Inv) : s.yieldPhase.Inv := by
  unfold State.yieldPhase
  split
  · exact h
  · exact { h with ctrlFit := (length_overwriteControllers _ _).trans h.ctrlFit }

theorem yieldPhase_loop : s.yieldPhase.loop = s.loop := by
  unfold State.yieldPhase; split <;> rfl

theorem processorTurn_keepsInv (h : s.Inv) (run : s.loop = .running) (e : s.processorTurn = .next t) : t.Inv := by
  unfold State.processorTurn at e
  split at e
  next u hu => cases e; exact Inv_countStep (processorStep_keepsInv h hu) ((processorStep_loop hu).trans run)
  next f _ => cases e; exact Inv_haltWith h f
  next => cases e

theorem macroStepTurn_keepsInv (h : s.Inv) (run : s.loop = .running) (e : s.macroStepTurn = .next t) : t.Inv := by
  unfold State.macroStepTurn at e
  split at e
  next => exact processorTurn_keepsInv h run e
  next => cases e; exact Inv_setPhase (Inv_spStep h) (spStep_loop.trans run) nofun
  next => cases e; exact Inv_setPhase (Inv_renderIfReady h) (renderIfReady_loop.trans run) nofun
  next =>
    cases e
    have hy := Inv_yieldPhase h
    exact Inv_setPhase hy (yieldPhase_loop.trans run) fun k hk => by cases hk; exact insnBudget_pos hy

theorem loopTurn_keepsInv (h : s.Inv) (e : s.loopTurn = .next t) : t.Inv := by
  unfold State.loopTurn at e
  split at e
  next run => exact macroStepTurn_keepsInv h run e
  next => cases e; exact h

/-! ## The invariant over a request -/

/-- With the whole instruction budget ahead the loop may go to any of its states. -/
theorem Inv_setLoop (h : s.Inv) (hp : s.phase = .processor 0) (l : LoopState) (r : StopReason) :
    ({ s with loop := l, stopReason := r } : State).Inv :=
  { h with restsAtBoundary := fun _ => hp }

/-- Where the invariant holds, the machine is at a boundary only with the whole instruction budget ahead (log 21). -/
theorem phase_of_atBoundary (h : s.Inv) (hb : s.atBoundary = true) : s.phase = .processor 0 := by
  simp only [State.atBoundary, Bool.or_eq_true, bne_iff_ne, beq_iff_eq] at hb
  exact hb.elim h.restsAtBoundary id

/-- `start`, `pause`, `resume` and `stop` change at most the loop's state and stop reason, and reply
(80_step_loop_and_snapshot.md R264). -/
theorem loopRequest_eq {r : HostRequest} (hr : r = .start ∨ r = .pause ∨ r = .resume ∨ r = .stop) :
    ∃ l x o, s.applyRequest r = ({ s with loop := l, stopReason := x } : State).emit o := by
  obtain rfl | rfl | rfl | rfl := hr <;>
    simp only [State.applyRequest, State.start, State.pause, State.resume, State.stop] <;>
    split <;> exact ⟨_, _, _, rfl⟩

theorem Inv_loopRequest (h : s.Inv) (hp : s.phase = .processor 0) {r : HostRequest}
    (hr : r = .start ∨ r = .pause ∨ r = .resume ∨ r = .stop) : (s.applyRequest r).Inv := by
  obtain ⟨l, x, o, e⟩ := loopRequest_eq (s := s) hr
  rw [e]
  exact Inv_emit (Inv_setLoop h hp l x) o

/-- Every register reads 0 where every slot holds 0. -/
theorem reg_of_regs_replicate (h : s.regs = Vector.replicate 32 0) (r : Reg) : s.reg r = 0 := by
  unfold State.reg; split <;> simp [h]

theorem Inv_resetMachine (h : s.Inv) : s.resetMachine.Inv :=
  { h with
    slotZero := by simp
    regsSext := fun r => by
      have hz : s.resetMachine.reg r = 0 := reg_of_regs_replicate (by simp) r
      rw [State.low, hz]; decide
    pcAligned := entryVector_aligned h.cfgOk
    delayAligned := nofun
    statusBits := by simp
    causeBits := by simp
    excCode := .inl (by simp [causeExcCode, excInt])
    ramWf := Memory.wf_zero
    ramBelow := Memory.below_zero _
    spOk := by simp [Config.spImageOk]
    dpOk := by simp [DpState.reset, Config.dpImageOk]
    pixelsFit := by simp [DpState.reset]
    ctrlFit := by simp }

theorem Inv_loadCartridge (h : s.Inv) (bytes : List Byte) : (s.loadCartridge bytes).Inv := by
  cases ok : cartridgeOk s.cfg bytes with
  | false => rw [loadCartridge_of_bad ok]; exact { h with }
  | true =>
    rw [loadCartridge_of_ok ok]
    obtain ⟨aligned, -, fits⟩ := (cartridgeOk_iff s.cfg bytes).1 ok
    exact { h with
      romWf := Memory.wf_ofBytes bytes
      romBelow := Memory.below_ofBytes bytes
      romAligned := aligned
      romFits := fits }

theorem Inv_applyCheat (h : s.Inv) (address value : Word) : (s.applyCheat address value).Inv := by
  cases ok : cheatOk s.cfg address with
  | false => rw [applyCheat_of_bad ok]; exact { h with }
  | true =>
    rw [applyCheat_of_ok ok]
    obtain ⟨-, fits⟩ := (cheatOk_iff s.cfg address).1 ok
    exact Inv_emit (Inv_ramWrite h (bs := bytesOfWord value) fits) _

/-- The conditions of check 3 of R280, one by one. -/
theorem cpuImageOk_iff (c : CpuImage) :
    c.ok = true ↔ c.regs.head? = some 0 ∧ (∀ x ∈ c.regs, isSext x) ∧ c.pc.toNat % 4 = 0 ∧
      c.status &&& ~~~0x0000FF03#32 = 0 ∧ c.cause &&& ~~~0x8000FF7C#32 = 0 ∧
      (causeExcCode c.cause = excInt ∨ causeExcCode c.cause = excOv) := by
  simp only [CpuImage.ok, Bool.and_eq_true, Bool.or_eq_true, List.all_eq_true, beq_iff_eq, and_assoc]

/-- A register file made of a list reads a value of the list, or the 0 of register 0. -/
theorem reg_regsOfList {xs : List DWord} (hl : xs.length = 32) (h : s.regs = regsOfList xs) (r : Reg) :
    s.reg r = 0 ∨ s.reg r ∈ xs := by
  have hr : r.toNat < xs.length := hl ▸ r.isLt
  unfold State.reg
  split
  · exact .inl rfl
  · right
    simp [h, regsOfList, List.getElem?_eq_getElem hr]

theorem Inv_applySnapshot (h : s.Inv) {stream : List Byte} {img : SnapshotImage}
    (parsed : parseSnapshot s.cfg stream = some img) : (s.applySnapshot img).Inv := by
  obtain ⟨p1, p2, p3, p4, p5, cpu, sp, dp, ram, ctrl⟩ := parseSnapshot_ok parsed
  obtain ⟨ok, length, delay⟩ := parseCpu_ok cpu
  obtain ⟨head, sext, pc, status, cause, code⟩ := (cpuImageOk_iff _).1 ok
  obtain ⟨ramWf, ramBelow⟩ := parseRam_ok ram
  obtain ⟨dpOk, pixels⟩ := parseDp_ok dp
  constructor
  case slotZero => simp [regsOfList, ← List.head?_eq_getElem?, head]
  case regsSext =>
    intro r
    obtain e | e := reg_regsOfList length (State.applySnapshot_regs s img) r
    · rw [State.low, e]; decide
    · exact sext _ e
  case pcAligned => exact pc
  case delayAligned => exact delay
  case statusBits => exact status
  case causeBits => exact cause
  case excCode => exact code
  case ramWf => exact ramWf
  case spOk => exact parseSp_ok sp
  case dpOk => exact dpOk
  case ramBelow => simpa using ramBelow
  case pixelsFit => simpa using pixels
  case ctrlFit => simpa using parseCtrl_ok ctrl
  case cfgOk => simpa using h.cfgOk
  case romWf => simpa using h.romWf
  case romBelow => simpa using h.romBelow
  case romAligned => simpa using h.romAligned
  case romFits => simpa using h.romFits
  case phaseOk => simpa using h.phaseOk
  case restsAtBoundary => simpa using h.restsAtBoundary

theorem Inv_load (h : s.Inv) (stream : List Byte) : (s.load stream).Inv := by
  unfold State.load State.loadSnapshot
  cases parsed : parseSnapshot s.cfg stream with
  | none => exact Inv_emit h _
  | some img => exact Inv_emit (Inv_applySnapshot h parsed) _

/-- A request applied with the whole instruction budget ahead, as at every boundary. -/
theorem Inv_applyRequest (h : s.Inv) (hp : s.phase = .processor 0) (r : HostRequest) : (s.applyRequest r).Inv := by
  cases r with
  | reset => exact Inv_emit (Inv_resetMachine h) _
  | loadCartridge bytes => exact Inv_loadCartridge h bytes
  | start | pause | resume | stop => exact Inv_loopRequest h hp (by simp)
  | save includePixels => exact Inv_emit h _
  | load stream => exact Inv_load h stream
  | applyCheat address value => exact Inv_applyCheat h address value

/-! ## The invariant over a step -/

theorem turn_keepsInv (h : s.Inv) (e : s.turn = .next t) : t.Inv := by
  unfold State.turn at e
  split at e
  next hb =>
    have hp := phase_of_atBoundary h hb
    split at e
    next r rest _ => cases e; exact Inv_applyRequest (s := { s with requests := rest }) { h with } hp r
    next => exact loopTurn_keepsInv h e
  next => exact loopTurn_keepsInv h e

/-- Settles O59: a turn is a request applied at a boundary, a processor step, a coprocessor's phase or a rest, and each of
them keeps the invariant. -/
theorem stepKeepsTheInvariant : Obligations.StepKeepsTheInvariant := by
  unfold Obligations.StepKeepsTheInvariant
  intro s t h e
  exact turn_keepsInv h (step_next e).2

end Sys2Proof.Machine
end

