-- ==== Sys2Proof/Proofs/Memory.lean ====
section
/-! SUPPORT. Reads and writes of aligned RAM, the cartridge a load maps, and the cartridge kept by everything but a load
(20_memory.md R51 to R61, R66, R67, R72). -/

namespace Sys2Proof.Machine

variable {s t : State} {i : Instr}

/-! ## The address decoder -/

/-- Settles O25: each clause is one region of the decoder. -/
theorem addressDecodeIsTotal : Obligations.AddressDecodeIsTotal := by
  unfold Obligations.AddressDecodeIsTotal
  intro s a o
  refine ⟨fun h => (place_ram_iff a _).2 ⟨h, rfl⟩, fun h h0 ho => ?_, fun h ho => ?_⟩
  · exact (place_rom_iff a _).2 ⟨h, by omega, by omega, by omega⟩
  · exact (place_none_iff a).2 ⟨h, by omega⟩

/-! ## Parts of a word -/

theorem extractLsb'_eq_ofNat_div {w : Nat} (v : BitVec w) (k n : Nat) :
    v.extractLsb' k n = BitVec.ofNat n (v.toNat / 2 ^ k) := by
  rw [BitVec.extractLsb', Nat.shiftRight_eq_div_pow]

theorem extractLsb'_zero_eq_ofNat {w : Nat} (v : BitVec w) (n : Nat) : v.extractLsb' 0 n = BitVec.ofNat n v.toNat := rfl

/-- Two neighbouring bytes of a word make the halfword that holds them (20_memory.md R57). -/
theorem halfOfBytes_extractLsb' (v : Word) (k : Nat) :
    (v.extractLsb' (k + 8) 8).setWidth 16 <<< 8 ||| (v.extractLsb' k 8).setWidth 16 = v.extractLsb' k 16 := by
  apply BitVec.eq_of_getLsbD_eq; intro j hj
  by_cases h : j < 8
  · simp [h, hj]
  · simp [h, hj, show j - 8 < 8 by omega, show k + 8 + (j - 8) = k + j by omega]

/-! ## Bytes just written -/

theorem Memory.read_writeBytes_add {m : Memory} (w : m.wf) (a : Nat) {bs : List Byte} {k : Nat} (hk : k < bs.length) :
    (m.writeBytes a bs).read (a + k) = bs.getD k 0 := by
  rw [Memory.read_writeBytes w, if_pos (by omega), Nat.add_sub_cancel_left]

theorem Memory.readWord_writeBytes {m : Memory} (w : m.wf) (a : Nat) (v : Word) :
    (m.writeBytes a (bytesOfWord v)).readWord a = v := by
  have byte := fun k (hk : k < 4) => Memory.read_writeBytes_add w a (bs := bytesOfWord v) (k := k) hk
  rw [Memory.readWord, byte 1 (by decide), byte 2 (by decide), byte 3 (by decide)]
  exact (congrArg (wordOfBytes · _ _ _) (byte 0 (by decide))).trans (wordOfBytes_of_word v)

theorem Memory.readWord_ofBytes (bs : List Byte) (o : Nat) :
    (Memory.ofBytes bs).readWord o =
      wordOfBytes (bs.getD o 0) (bs.getD (o + 1) 0) (bs.getD (o + 2) 0) (bs.getD (o + 3) 0) := by
  simp only [Memory.readWord, Memory.read_ofBytes]

/-- The state with bytes written to RAM from an offset. -/
def State.writeRam (s : State) (o : Nat) (bs : List Byte) : State := { s with ram := s.ram.writeBytes o bs }

@[simp] theorem State.writeRam_cfg (o : Nat) (bs : List Byte) : (s.writeRam o bs).cfg = s.cfg := rfl

@[simp] theorem State.writeRam_pc (o : Nat) (bs : List Byte) : (s.writeRam o bs).pc = s.pc := rfl

@[simp] theorem State.writeRam_delay (o : Nat) (bs : List Byte) : (s.writeRam o bs).delay = s.delay := rfl

@[simp] theorem State.writeRam_ram (o : Nat) (bs : List Byte) : (s.writeRam o bs).ram = s.ram.writeBytes o bs := rfl

/-! ## Accesses to RAM and to the cartridge -/

theorem access_of_ram {a : Addr} {w : Width} (ha : a.toNat % w.bytes = 0) (h : a.toNat < s.cfg.ramSize) :
    s.access a w = .ok (.ram a.toNat) :=
  (access_ok_iff a w _).2 ⟨ha, (place_ram_iff a _).2 ⟨h, rfl⟩⟩

theorem readByte_of_ram {a : Addr} (h : a.toNat < s.cfg.ramSize) : s.readByte a = .ok (s.ram.read a.toNat) := by
  rw [State.readByte, access_of_ram (Nat.mod_one _) h]; rfl

theorem readHalf_of_ram {a : Addr} (ha : a.toNat % 2 = 0) (h : a.toNat < s.cfg.ramSize) :
    s.readHalf a =
      .ok ((s.ram.read a.toNat).setWidth 16 <<< 8 ||| (s.ram.read (a.toNat + 1)).setWidth 16) := by
  rw [State.readHalf, access_of_ram ha h]; rfl

theorem readWord_of_ram {a : Addr} (ha : a.toNat % 4 = 0) (h : a.toNat < s.cfg.ramSize) :
    s.readWord a = .ok (s.ram.readWord a.toNat) := by
  rw [State.readWord, access_of_ram ha h]; rfl

theorem readWord_of_rom {a : Addr} (ha : a.toNat % 4 = 0) (h : InCartridge s a) :
    s.readWord a = .ok (s.rom.readWord (a.toNat - s.cfg.cartridgeBase.toNat)) := by
  rw [State.readWord, (access_ok_iff a .word _).2 ⟨ha, place_of_inCartridge h⟩]; rfl

theorem memWrite_of_ram {a : Addr} {w : Width} (v : Word) (ha : a.toNat % w.bytes = 0) (h : a.toNat < s.cfg.ramSize) :
    s.memWrite a w v = .ok (s.writeRam a.toNat (storedBytes w v)) := by
  rw [State.memWrite, access_of_ram ha h]; rfl

/-! ## Reads of what was just written -/

/-- A written word reads back (20_memory.md R61). -/
theorem readWord_writeRam (w : s.ram.wf) {a : Addr} (v : Word) (ha : a.toNat % 4 = 0) (h : a.toNat < s.cfg.ramSize) :
    (s.writeRam a.toNat (bytesOfWord v)).readWord a = .ok v := by
  rw [readWord_of_ram ha (by simpa using h), State.writeRam_ram, Memory.readWord_writeBytes w]

section Written

variable (w : s.ram.wf) {a b : Addr} (bs : List Byte) {k : Nat} (hb : b.toNat = a.toNat + k)
  (h : b.toNat < s.cfg.ramSize)

include w hb h

/-- The byte `k` after the address of written bytes (20_memory.md R60). -/
theorem readByte_writeRam (hk : k < bs.length) : (s.writeRam a.toNat bs).readByte b = .ok (bs.getD k 0) := by
  rw [readByte_of_ram (by simpa using h), State.writeRam_ram, hb, Memory.read_writeBytes_add w _ hk]

/-- The halfword `k` bytes after the address of written bytes (20_memory.md R60). -/
theorem readHalf_writeRam (hk : k + 1 < bs.length) (ha : b.toNat % 2 = 0) :
    (s.writeRam a.toNat bs).readHalf b =
      .ok ((bs.getD k 0).setWidth 16 <<< 8 ||| (bs.getD (k + 1) 0).setWidth 16) := by
  rw [readHalf_of_ram ha (by simpa using h), State.writeRam_ram, hb, Nat.add_assoc, Memory.read_writeBytes_add w _ hk,
    Memory.read_writeBytes_add w _ (Nat.lt_of_succ_lt hk)]

end Written

theorem toNat_add_of_wordAligned {a : Addr} (ha : a.toNat % 4 = 0) {k : Nat} (hk : k < 4) :
    (a + BitVec.ofNat 32 k).toNat = a.toNat + k := by
  rw [BitVec.toNat_add, BitVec.toNat_ofNat]; omega

/-- Settles O27: the bytes a store lists are the word's, the most significant first. -/
theorem mixedWidthViewsAreBigEndian : Obligations.MixedWidthViewsAreBigEndian := by
  unfold Obligations.MixedWidthViewsAreBigEndian
  intro s a v w hsize h
  refine ⟨fun ha => ⟨_, memWrite_of_ram v ha h, ?_, ?_, ?_, ?_⟩, _, memWrite_of_ram v (Nat.mod_one _) h, ?_, ?_⟩
  · rw [readByte_writeRam w _ (k := 0) rfl h (by simp [Width.bytes]), ← extractLsb'_eq_ofNat_div]
    rfl
  · have h3 : (a + 3#32).toNat = a.toNat + 3 := toNat_add_of_wordAligned ha (by decide)
    rw [readByte_writeRam w _ h3 (by omega) (by simp [Width.bytes])]
    rfl
  · rw [readHalf_writeRam w _ (k := 0) rfl h (by simp [Width.bytes]) (by omega), ← extractLsb'_eq_ofNat_div,
      ← halfOfBytes_extractLsb']
    rfl
  · have h2 : (a + 2#32).toNat = a.toNat + 2 := toNat_add_of_wordAligned ha (by decide)
    rw [readHalf_writeRam w _ h2 (by omega) (by simp [Width.bytes]) (by omega), ← extractLsb'_zero_eq_ofNat,
      ← halfOfBytes_extractLsb']
    rfl
  · rw [readByte_writeRam w _ (k := 0) rfl h (by simp [Width.bytes])]
    rfl
  · intro b hb
    rw [State.writeRam, byteAt_ramWrite w, if_neg (by rw [length_storedBytes, Width.bytes]; omega)]

/-! ## The next fetch -/

theorem storeResult_of_ram {a : Addr} {w : Width} (v : Word) (ha : a.toNat % w.bytes = 0)
    (h : a.toNat < s.cfg.ramSize) :
    s.storeResult a w v = .next (s.writeRam a.toNat (storedBytes w v)).finish := by
  rw [State.storeResult, memWrite_of_ram v ha h]

@[simp] theorem readWord_finish (a : Addr) : s.finish.readWord a = s.readWord a := rfl

theorem exec_sw (rt rs : Reg) (imm : Half) (s : State) :
    exec (.sw rt rs imm) s = s.storeResult (effectiveAddr (s.reg rs) imm) .word (s.low rt) := rfl

theorem seqNext_of_none (h : s.delay = .none) : s.seqNext = s.pc + 4#32 := by
  simp [State.seqNext, h]

/-- Settles O34: the store ends at the address it wrote to. -/
theorem storesAreSeenByTheNextFetch : Obligations.StoresAreSeenByTheNextFetch := by
  unfold Obligations.StoresAreSeenByTheNextFetch
  intro rt rs imm s w noSlot target aligned inRam
  have ends : ∀ bs, (s.writeRam (s.pc + 4#32).toNat bs).finish.pc = s.pc + 4#32 := fun _ => by
    simp [seqNext_of_none, noSlot]
  refine ⟨_, by rw [exec_sw, target, storeResult_of_ram _ aligned inRam], ends _, ?_⟩
  rw [ends, readWord_finish]
  exact readWord_writeRam w (s.low rt) aligned inRam

/-! ## The cartridge a load maps -/

/-- No address of a good cartridge wraps (20_memory.md R66). -/
theorem toNat_cartridgeAddr {bytes : List Byte} (ok : cartridgeOk s.cfg bytes = true) {o : Nat}
    (ho : o < bytes.length) : (s.cfg.cartridgeBase + BitVec.ofNat 32 o).toNat = s.cfg.cartridgeBase.toNat + o := by
  obtain ⟨-, -, fits⟩ := (cartridgeOk_iff s.cfg bytes).1 ok
  rw [BitVec.toNat_add, BitVec.toNat_ofNat]
  omega

theorem inCartridge_loadCartridge (hc : s.cfg.wellFormed = true) {bytes : List Byte}
    (ok : cartridgeOk s.cfg bytes = true) {o : Nat} (ho : o < bytes.length) :
    InCartridge (s.loadCartridge bytes) (s.cfg.cartridgeBase + BitVec.ofNat 32 o) := by
  obtain ⟨-, -, above, -⟩ := wellFormed_facts hc
  rw [loadCartridge_of_ok ok, InCartridge, toNat_cartridgeAddr ok ho]
  refine ⟨?_, ?_, ?_⟩ <;> simp only <;> omega

/-- Settles O26: RAM takes the word's bytes, and a load lays the cartridge's out from CARTRIDGE_BASE. -/
theorem wordsReadBackAndRomReadsTheCartridge : Obligations.WordsReadBackAndRomReadsTheCartridge := by
  unfold Obligations.WordsReadBackAndRomReadsTheCartridge
  refine ⟨fun s a v w ha h => ⟨_, memWrite_of_ram v ha h, readWord_writeRam w v ha h⟩, ?_⟩
  intro s bytes o hc ok aligned ho
  have e := toNat_cartridgeAddr ok ho
  obtain ⟨-, -, -, baseAligned, -⟩ := wellFormed_facts hc
  rw [readWord_of_rom (by omega) (inCartridge_loadCartridge hc ok ho), e, loadCartridge_of_ok ok]
  simp only [Nat.add_sub_cancel_left, Memory.readWord_ofBytes]

/-- Settles O53: a good stream becomes the cartridge, whose window lies above RAM; a bad one gets its reply only. -/
theorem cartridgeLoadMapsTheStream : Obligations.CartridgeLoadMapsTheStream := by
  unfold Obligations.CartridgeLoadMapsTheStream
  intro s bytes hc good
  refine ⟨fun h => ?_, fun h => ?_⟩
  · have ok : cartridgeOk s.cfg bytes = true := (cartridgeOk_iff s.cfg bytes).2 h
    refine ⟨fun o ho => ?_, fun a ha => ?_, _, loadCartridge_of_ok ok⟩ <;> rw [State.applyRequest]
    · rw [byteAt_of_rom (inCartridge_loadCartridge hc ok ho), toNat_cartridgeAddr ok ho, loadCartridge_of_ok ok]
      simp only [Nat.add_sub_cancel_left, Memory.read_ofBytes]
    · rw [loadCartridge_of_ok ok, byteAt_of_ram ha]
      exact byteAt_of_ram ha
  · exact loadCartridge_of_bad (Bool.eq_false_iff.2 fun ok => h ((cartridgeOk_iff s.cfg bytes).1 ok))

/-! ## What keeps the cartridge -/

/-- The configuration and the cartridge stay as they are. -/
def CartridgeSame (s t : State) : Prop := t.cfg = s.cfg ∧ t.rom = s.rom ∧ t.romSize = s.romSize

theorem CartridgeSame.refl (s : State) : CartridgeSame s s := ⟨rfl, rfl, rfl⟩

theorem CartridgeSame.trans {u : State} (h : CartridgeSame s t) (k : CartridgeSame t u) : CartridgeSame s u := by
  obtain ⟨hc, hr, hn⟩ := h
  obtain ⟨kc, kr, kn⟩ := k
  exact ⟨kc.trans hc, kr.trans hr, kn.trans hn⟩

theorem exec_cartridgeSame (e : exec i s = .next t) : CartridgeSame s t := by
  cases answer_of_next e with
  | writesRegister | links => simp [CartridgeSame]
  | transfers | logsNoOp | traps | returns => exact ⟨rfl, rfl, rfl⟩
  | stores a w v u hm => rw [memWrite_eq hm]; exact ⟨rfl, rfl, rfl⟩
  | writesCp0 _ n v u hc => obtain rfl | rfl | rfl := cp0Write_cases hc <;> exact ⟨rfl, rfl, rfl⟩

theorem processorStep_cartridgeSame (e : processorStep s = .next t) : CartridgeSame s t := by
  obtain rfl | ⟨w, rfl⟩ | ⟨i, e⟩ := processorStep_next e
  · exact ⟨rfl, rfl, rfl⟩
  · exact ⟨rfl, rfl, rfl⟩
  · exact exec_cartridgeSame e

theorem processorTurn_cartridgeSame (e : s.processorTurn = .next t) : CartridgeSame s t := by
  unfold State.processorTurn at e
  split at e
  next u hu => cases e; exact (processorStep_cartridgeSame hu).trans (by simp [CartridgeSame])
  next => cases e; exact ⟨rfl, rfl, rfl⟩
  next => cases e

theorem spStep_cartridgeSame : CartridgeSame s s.spStep := by
  obtain ⟨-, e⟩ | ⟨-, e⟩ := spStepWith_cases (s := s) Config.spProcess <;> rw [State.spStep, e] <;>
    exact ⟨rfl, rfl, rfl⟩

theorem renderIfReady_cartridgeSame : CartridgeSame s s.renderIfReady := by
  obtain e | ⟨frame, e⟩ := renderIfReady_cases (s := s) <;> rw [e] <;> exact ⟨rfl, rfl, rfl⟩

theorem yieldPhase_cartridgeSame : CartridgeSame s s.yieldPhase := by
  unfold State.yieldPhase; split <;> exact ⟨rfl, rfl, rfl⟩

theorem macroStepTurn_cartridgeSame (e : s.macroStepTurn = .next t) : CartridgeSame s t := by
  unfold State.macroStepTurn at e
  split at e
  next => exact processorTurn_cartridgeSame e
  next => cases e; exact spStep_cartridgeSame (s := s)
  next => cases e; exact renderIfReady_cartridgeSame (s := s)
  next => cases e; exact yieldPhase_cartridgeSame (s := s)

theorem loopTurn_cartridgeSame (e : s.loopTurn = .next t) : CartridgeSame s t := by
  unfold State.loopTurn at e
  split at e
  next => exact macroStepTurn_cartridgeSame e
  next => cases e; exact .refl s

/-- A snapshot holds no cartridge (80_step_loop_and_snapshot.md R281). -/
theorem load_cartridgeSame (stream : List Byte) : CartridgeSame s (s.load stream) := by
  unfold State.load State.loadSnapshot
  cases parseSnapshot s.cfg stream with
  | none => exact ⟨rfl, rfl, rfl⟩
  | some img => simp [State.reply, CartridgeSame]

theorem applyCheat_cartridgeSame (address value : Word) : CartridgeSame s (s.applyCheat address value) := by
  unfold State.applyCheat; split <;> exact ⟨rfl, rfl, rfl⟩

theorem loopRequest_cartridgeSame {r : HostRequest} (hr : r = .start ∨ r = .pause ∨ r = .resume ∨ r = .stop) :
    CartridgeSame s (s.applyRequest r) := by
  obtain ⟨l, x, o, e⟩ := loopRequest_eq (s := s) hr
  rw [e]
  exact ⟨rfl, rfl, rfl⟩

theorem loadCartridge_cfg (bytes : List Byte) : (s.loadCartridge bytes).cfg = s.cfg := by
  unfold State.loadCartridge; split <;> rfl

/-- Of the host's requests only a cartridge load changes the cartridge, and none the configuration. -/
theorem applyRequest_cartridge (r : HostRequest) :
    (s.applyRequest r).cfg = s.cfg ∧ ((∃ bytes, r = .loadCartridge bytes) ∨
      (s.applyRequest r).rom = s.rom ∧ (s.applyRequest r).romSize = s.romSize) := by
  cases r with
  | loadCartridge bytes => exact ⟨loadCartridge_cfg bytes, .inl ⟨bytes, rfl⟩⟩
  | reset | save => exact ⟨rfl, .inr ⟨rfl, rfl⟩⟩
  | start | pause | resume | stop => exact (loopRequest_cartridgeSame (by simp)).imp_right .inr
  | load stream => exact (load_cartridgeSame stream).imp_right .inr
  | applyCheat address value => exact (applyCheat_cartridgeSame address value).imp_right .inr

/-- A turn applies the first held request at a boundary, or is a turn of the loop. -/
theorem turn_cases (e : s.turn = .next t) :
    (∃ r rest, s.requests = r :: rest ∧ (s.loop ≠ .running ∨ s.phase = .processor 0) ∧
      t = ({ s with requests := rest } : State).applyRequest r) ∨ s.loopTurn = .next t := by
  unfold State.turn at e
  split at e
  next hb =>
    split at e
    next r rest hr => cases e; exact .inl ⟨r, rest, hr, by simpa [State.atBoundary] using hb, rfl⟩
    next => exact .inr e
  next => exact .inr e

/-- Settles O57: a turn of the loop keeps the cartridge, and so does every request but a cartridge load. -/
theorem onlyCartridgeLoadsChangeTheRom : Obligations.OnlyCartridgeLoadsChangeTheRom := by
  unfold Obligations.OnlyCartridgeLoadsChangeTheRom
  intro s t h
  obtain ⟨r, rest, held, boundary, rfl⟩ | e := turn_cases (step_next h).2
  · obtain ⟨cfg, ⟨bytes, rfl⟩ | rom⟩ := applyRequest_cartridge (s := { s with requests := rest }) r
    · exact ⟨cfg, .inl ⟨bytes, rest, held, boundary⟩⟩
    · exact ⟨cfg, .inr rom⟩
  · exact (loopTurn_cartridgeSame e).imp_right .inr

end Sys2Proof.Machine
end

