-- ==== Sys2Proof/Proofs/Encoding.lean ====
section
/-! SUPPORT. Decoding and encoding invert each other, on words and on bytes, and the decoder follows the opcode table
(30_encoding.md R80 to R91). -/

namespace Sys2Proof

variable {w : Word} {i : Instr}

/-! ## The parts of the decoder -/

theorem decode_special (op : opOf w = 0x00#6) : decode w = decodeSpecial w := by simp [decode, op]

theorem decode_regimm (op : opOf w = 0x01#6) : decode w = decodeRegimm w := by simp [decode, op]

theorem decode_cop0 (op : opOf w = 0x10#6) : decode w = decodeCop0 w := by simp [decode, op]

theorem whenZero_eq_some_iff {z : Bool} {j : Instr} : whenZero z i = some j ↔ z = true ∧ i = j := by
  cases z <;> simp [whenZero]

/-- The bytes of a word are decoded as the word is, whatever follows them (30_encoding.md R80; 20_memory.md R57). -/
theorem decodeBytes_bytesOfWord (h : decode w = some i) (rest : List Byte) :
    decodeBytes (bytesOfWord w ++ rest) = .ok (i, rest) := by
  simp [bytesOfWord, decodeBytes, h]

/-! ## Decoding what was encoded, by the opcode map the instruction stands in -/

@[simp] theorem decode_encode (i : Instr) : decode (encode i) = some i := by
  cases i with
  | add | addu | sub | subu | and | or | xor | nor | slt | sltu | sll | srl | sra | sllv | srlv | srav | jr | jalr =>
    exact (decode_special (opOf_encodeR ..)).trans (by simp [decodeSpecial, whenZero])
  | bltz | bgez | bltzal | bgezal => exact (decode_regimm (opOf_encodeI ..)).trans (by simp [decodeRegimm])
  | mfc0 | mtc0 => exact (decode_cop0 (opOf_encodeC0 ..)).trans (by simp [decodeCop0, whenZero])
  | eret => decide
  | j | jal => simp [encode, decode]
  | beq | bne | addi | addiu | slti | sltiu | andi | ori | xori | lb | lh | lw | lbu | lhu | sb | sh | sw =>
    simp [encode, decode]
  | blez | bgtz | lui => simp [encode, decode, whenZero]

/-! ## Encoding what was decoded, by the opcode map the word is decoded in -/

theorem encode_of_decodeSpecial (op : opOf w = 0x00#6) (h : decodeSpecial w = some i) : encode i = w := by
  refine .trans ?_ (encodeR_fields w op)
  unfold decodeSpecial at h
  split at h
  case h_19 => cases h
  all_goals
    rename_i funct
    simp only [whenZero_eq_some_iff, beq_iff_eq, Bool.and_eq_true] at h
    obtain ⟨zero, rfl⟩ := h
    simp [encode, funct, zero]

theorem encode_of_decodeRegimm (op : opOf w = 0x01#6) (h : decodeRegimm w = some i) : encode i = w := by
  refine .trans ?_ (encodeI_fields w)
  unfold decodeRegimm at h
  split at h
  case h_5 => cases h
  all_goals
    rename_i rt
    cases h
    simp [encode, op, rt]

/-- A word is determined by the six fields of the R format (30_encoding.md R81). -/
theorem eq_of_fields {v : Word} (op : opOf w = opOf v) (rs : rsOf w = rsOf v) (rt : rtOf w = rtOf v)
    (rd : rdOf w = rdOf v) (sa : saOf w = saOf v) (funct : functOf w = functOf v) : w = v := by
  simp only [opOf, rsOf, rtOf, rdOf, saOf, functOf, ← BitVec.toNat_inj, BitVec.extractLsb'_toNat,
    Nat.shiftRight_eq_div_pow] at *
  omega

theorem encode_of_decodeCop0 (op : opOf w = 0x10#6) (h : decodeCop0 w = some i) : encode i = w := by
  unfold decodeCop0 at h
  split at h
  case h_4 => cases h
  all_goals
    rename_i rs
    simp only [whenZero_eq_some_iff, beq_iff_eq, Bool.and_eq_true] at h
  case h_1 | h_2 =>
    obtain ⟨⟨sa, funct⟩, rfl⟩ := h
    simpa [encode, rs] using encodeC0_fields w op sa funct
  case h_3 =>
    obtain ⟨⟨⟨⟨rt, rd⟩, sa⟩, funct⟩, rfl⟩ := h
    exact (eq_of_fields op rs rt rd sa funct).symm

/-- No bit of a word that decodes is dropped (30_encoding.md R89). -/
theorem encode_of_decode (h : decode w = some i) : encode i = w := by
  unfold decode at h
  split at h
  case h_1 op => exact encode_of_decodeSpecial op h
  case h_2 op => exact encode_of_decodeRegimm op h
  case h_17 op => exact encode_of_decodeCop0 op h
  case h_3 op | h_4 op => cases h; simpa [encode, op] using encodeJ_fields w
  case h_7 op | h_8 op | h_16 op =>
    simp only [whenZero_eq_some_iff, beq_iff_eq] at h
    obtain ⟨zero, rfl⟩ := h
    simpa [encode, op, zero] using encodeI_fields w
  case h_26 => cases h
  all_goals
    rename_i op
    cases h
    simpa [encode, op] using encodeI_fields w

/-- Settles O2: `decode` and `encode` invert each other, and a word's bytes decode as the word. -/
theorem decodeAndEncodeAgree : Obligations.DecodeAndEncodeAgree := by
  unfold Obligations.DecodeAndEncodeAgree
  exact ⟨fun i => decodeBytes_bytesOfWord (decode_encode i), fun w i => encode_of_decode⟩

/-! ## The opcode table -/

theorem and_ones5 (x : BitVec 5) : x &&& 31#5 = x := BitVec.and_allOnes

theorem and_ones6 (x : BitVec 6) : x &&& 63#6 = x := BitVec.and_allOnes

/-- A word that a row covers has the row's fixed bits in each of its fields. -/
theorem fields_of_covers {r : OpcodeRow} (h : r.covers w = true) :
    opOf w &&& opOf r.mask = opOf r.pattern ∧ rsOf w &&& rsOf r.mask = rsOf r.pattern ∧
    rtOf w &&& rtOf r.mask = rtOf r.pattern ∧ rdOf w &&& rdOf r.mask = rdOf r.pattern ∧
    saOf w &&& saOf r.mask = saOf r.pattern ∧ functOf w &&& functOf r.mask = functOf r.pattern := by
  rw [← beq_iff_eq.1 h]
  simp only [opOf, rsOf, rtOf, rdOf, saOf, functOf, BitVec.extractLsb'_and, and_self]

/-- A word that a row covers decodes to an instruction of the row's mnemonic: row by row, the fields the row fixes are
those the decoder selects by and those it wants to be zero (30_encoding.md R89, R90). -/
theorem decode_of_covers {r : OpcodeRow} (hr : r ∈ opcodeTable) (h : r.covers w = true) :
    ∃ i, decode w = some i ∧ i.mnemonic = r.mnemonic := by
  rw [← Option.map_eq_some_iff]
  obtain ⟨op, rs, rt, rd, sa, funct⟩ := fields_of_covers h
  clear h
  fin_cases hr
  all_goals
    simp only [opOf, rsOf, rtOf, rdOf, saOf, functOf, BitVec.reduceExtractLsb', and_ones5, and_ones6]
      at op rs rt rd sa funct
    simp [decode, decodeSpecial, decodeRegimm, decodeCop0, whenZero, Instr.mnemonic, opOf, rsOf, rtOf, rdOf, saOf,
      functOf, op, rs, rt, rd, sa, funct]

open Laws.OpcodeRow in
theorem exists_row_covers_encode (i : Instr) :
    ∃ r ∈ opcodeTable, r.mnemonic = i.mnemonic ∧ r.covers (encode i) = true := by
  cases i
  exacts [add .., addu .., sub .., subu .., and .., or .., xor .., nor .., slt .., sltu .., sll .., srl .., sra ..,
    sllv .., srlv .., srav .., jr .., jalr .., j .., jal .., beq .., bne .., blez .., bgtz .., bltz .., bgez ..,
    bltzal .., bgezal .., addi .., addiu .., slti .., sltiu .., andi .., ori .., xori .., lui .., lb .., lbu .., lh ..,
    lhu .., lw .., sb .., sh .., sw .., mfc0 .., mtc0 .., eret]

theorem exists_row_covers_of_decode (h : decode w = some i) :
    ∃ r ∈ opcodeTable, r.mnemonic = i.mnemonic ∧ r.covers w = true :=
  encode_of_decode h ▸ exists_row_covers_encode i

theorem nodup_mnemonics : (opcodeTable.map OpcodeRow.mnemonic).Nodup := by decide

theorem row_eq_of_mnemonic_eq {r q : OpcodeRow} (hr : r ∈ opcodeTable) (hq : q ∈ opcodeTable)
    (h : r.mnemonic = q.mnemonic) : r = q :=
  List.inj_on_of_nodup_map nodup_mnemonics hr hq h

theorem covers_iff_decode {r : OpcodeRow} (hr : r ∈ opcodeTable) :
    r.covers w = true ↔ ∃ i, decode w = some i ∧ i.mnemonic = r.mnemonic := by
  refine ⟨decode_of_covers hr, fun ⟨i, hi, hm⟩ => ?_⟩
  obtain ⟨q, hq, hqm, hqw⟩ := exists_row_covers_of_decode hi
  rwa [row_eq_of_mnemonic_eq hr hq (hm.symm.trans hqm.symm)]

theorem decode_eq_none_iff : decode w = none ↔ ∀ r ∈ opcodeTable, r.covers w = false := by
  refine ⟨fun h r hr => ?_, fun h => Option.eq_none_iff_forall_ne_some.2 fun i hi => ?_⟩
  · simp [Bool.eq_false_iff, covers_iff_decode hr, h]
  · obtain ⟨r, hr, -, hw⟩ := exists_row_covers_of_decode hi
    simp [h r hr] at hw

theorem row_eq_of_covers {r q : OpcodeRow} (hr : r ∈ opcodeTable) (hq : q ∈ opcodeTable) (hrw : r.covers w = true)
    (hqw : q.covers w = true) : r = q := by
  obtain ⟨i, hi, hir⟩ := decode_of_covers hr hrw
  obtain ⟨j, hj, hjq⟩ := decode_of_covers hq hqw
  cases hi.symm.trans hj
  exact row_eq_of_mnemonic_eq hr hq (hir.symm.trans hjq)

/-- Settles O3: a row that covers a word fixes the fields the decoder reads, the word of what decodes has its row, and a
mnemonic names one row only. -/
theorem decodeFollowsTheOpcodeTable : Obligations.DecodeFollowsTheOpcodeTable := by
  unfold Obligations.DecodeFollowsTheOpcodeTable
  exact fun w => ⟨fun r => covers_iff_decode, decode_eq_none_iff, fun r hr q hq => row_eq_of_covers hr hq⟩

/-! ## The spec's words -/

/-- Settles O1: the words are closed, so the decoder's answers are computed. -/
theorem decodeReadsTheSpecsWords : Obligations.DecodeReadsTheSpecsWords := by
  unfold Obligations.DecodeReadsTheSpecsWords
  decide

end Sys2Proof
end

