-- ==== Sys2Proof/Proofs/Execution.lean ====
section
/-! SUPPORT. One processor step (40_execution_cycle.md R100 to R109): the ends of the control instructions and of the
others, the interrupt before the fetch, the failures of fetch and decode, and what a halt leaves behind. -/

namespace Sys2Proof.Machine

variable {s t : State} {i : Instr}

/-! ## The control instructions -/

theorem RestSame.refl (s : State) : RestSame s s := ⟨rfl, rfl, rfl, rfl, rfl, rfl, rfl, rfl, rfl, rfl, rfl, rfl⟩

/-- What a control instruction can do behind the check of R102: halt for its target, or change nothing outside the
processor. -/
inductive ControlMeaning (s : State) : Result → Prop
  | misaligned (a : Addr) : ControlMeaning s (.fault (.alignmentError a))
  | next (t : State) (rest : RestSame s t) : ControlMeaning s (.next t)

theorem controlMeaning_transfer (d : Delay) : ControlMeaning s (.next (s.transfer d)) := .next _ (.refl s)

theorem controlMeaning_link (r : Reg) (v : DWord) (d : Delay) :
    ControlMeaning s (.next ((s.setReg r v).transfer d)) :=
  .next _ (by simp [RestSame])

theorem controlMeaning_alignedTarget (a : Addr) {m : Result} (h : ControlMeaning s m) :
    ControlMeaning s (alignedTarget a m) := by
  obtain e | e := alignedTarget_cases a m <;> rw [e]
  · exact .misaligned a
  · exact h

/-- A control instruction is its meaning behind the check of R102 (log 16). -/
theorem exec_of_control (s : State) (hi : i.isControl = true) :
    ∃ m, exec i s = s.control i m ∧ ControlMeaning s m := by
  cases i with
  | jr => exact ⟨_, rfl, controlMeaning_alignedTarget _ (controlMeaning_transfer _)⟩
  | jalr => exact ⟨_, rfl, controlMeaning_alignedTarget _ (controlMeaning_link ..)⟩
  | j | beq | bne | blez | bgtz | bltz | bgez => exact ⟨_, rfl, controlMeaning_transfer _⟩
  | jal | bltzal | bgezal => exact ⟨_, rfl, controlMeaning_link ..⟩
  | eret => exact ⟨_, rfl, controlMeaning_alignedTarget _ (.next _ (.refl s))⟩
  | _ => cases hi

/-! ## The other instructions -/

/-- A halt other than the one of a control instruction in a delay slot. -/
def NotSlotHalt (f : Fault) : Prop := ∀ p w, f ≠ .branchInDelaySlot p w

/-- What an instruction `i` that is no control instruction can answer: a halt; the default end after a change to
registers, CP0 or RAM; the logged no-op of its own word; the overflow trap. -/
inductive PlainAnswer (s : State) (i : Instr) : Result → Prop
  | halts (f : Fault) (hf : NotSlotHalt f) : PlainAnswer s i (.fault f)
  | finishes (u : State) (pc : u.pc = s.pc) (delay : u.delay = s.delay) (rest : RestSame s u) :
      PlainAnswer s i (.next u.finish)
  | logsNoOp : PlainAnswer s i (.next (s.emit (.unsupported s.pc (encode i))).finish)
  | traps (hi : i.mnemonic ∈ ["ADD", "SUB", "ADDI"]) (h : exec i s = s.raiseOverflow) : PlainAnswer s i s.raiseOverflow

theorem plainAnswer_writeResult (r : Reg) (v : DWord) : PlainAnswer s i (s.writeResult r v) :=
  .finishes _ (by simp) (by simp) (by simp [RestSame])

theorem plainAnswer_ofOverflow {c : Bool} {r : Reg} {v : DWord} (hi : i.mnemonic ∈ ["ADD", "SUB", "ADDI"])
    (he : exec i s = if c then s.raiseOverflow else s.writeResult r v) : PlainAnswer s i (exec i s) := by
  cases c with
  | false => rw [he]; exact plainAnswer_writeResult r v
  | true => rw [he]; exact .traps hi he

theorem notSlotHalt_of_access {a : Addr} {w : Width} {f : Fault} (h : s.access a w = .error f) : NotSlotHalt f := by
  obtain rfl | rfl := access_error h <;> exact fun _ _ => nofun

theorem plainAnswer_load {n : Nat} (r : Reg) {a : Addr} {w : Width} {x : Except Fault (BitVec n)} (g : BitVec n → DWord)
    (hx : ∀ f, x = .error f → s.access a w = .error f) : PlainAnswer s i (s.loadResult r (x.map g)) := by
  cases x with
  | error f => exact .halts f (notSlotHalt_of_access (hx f rfl))
  | ok b => exact plainAnswer_writeResult r (g b)

theorem plainAnswer_storeResult (a : Addr) (w : Width) (v : Word) : PlainAnswer s i (s.storeResult a w v) := by
  unfold State.storeResult
  obtain ⟨f, h, e⟩ | ⟨o, -, e⟩ | ⟨o, -, e⟩ := memWrite_cases (s := s) a w v <;> rw [e]
  · exact .halts f (notSlotHalt_of_access h)
  · exact .finishes _ rfl rfl (.refl s)
  · exact .finishes _ rfl rfl (.refl s)

theorem plainAnswer_unsupportedWord : PlainAnswer s i (s.unsupportedWord (encode i)) := by
  obtain e | e := unsupportedWord_cases (s := s) (encode i) <;> rw [e]
  · exact .halts _ fun _ _ => nofun
  · exact .logsNoOp

theorem plainAnswer_execMfc0 (rt rd : Reg) : PlainAnswer s (.mfc0 rt rd) (execMfc0 rt rd s) := by
  unfold execMfc0
  split
  · exact plainAnswer_writeResult _ _
  · exact plainAnswer_unsupportedWord

theorem plainAnswer_execMtc0 (rt rd : Reg) : PlainAnswer s (.mtc0 rt rd) (execMtc0 rt rd s) := by
  unfold execMtc0
  split
  next t h => obtain rfl | rfl | rfl := cp0Write_cases h <;> exact .finishes _ rfl rfl (.refl s)
  next => exact plainAnswer_unsupportedWord

/-- Every instruction but the control instructions answers so (40_execution_cycle.md R104, R108, R109). -/
theorem exec_of_notControl (s : State) (hi : i.isControl = false) : PlainAnswer s i (exec i s) := by
  cases i with
  | add | sub | addi => exact plainAnswer_ofOverflow (by simp [Instr.mnemonic]) rfl
  | addu | subu | and | or | xor | nor | slt | sltu | sll | srl | sra | sllv | srlv | srav
  | addiu | slti | sltiu | andi | ori | xori | lui => exact plainAnswer_writeResult _ _
  | lb | lbu => exact plainAnswer_load _ _ fun _ => readByte_error
  | lh | lhu => exact plainAnswer_load _ _ fun _ => readHalf_error
  | lw => exact plainAnswer_load _ _ fun _ => readWord_error
  | sb | sh | sw => exact plainAnswer_storeResult _ _ _
  | mfc0 rt rd => exact plainAnswer_execMfc0 rt rd
  | mtc0 rt rd => exact plainAnswer_execMtc0 rt rd
  | _ => cases hi

/-! ## What every instruction keeps to -/

theorem isControl_iff (i : Instr) :
    i.isControl = true ↔ i.mnemonic ∈ ["JR", "JALR", "J", "JAL", "BEQ", "BNE", "BLEZ", "BGTZ", "BLTZ", "BGEZ",
      "BLTZAL", "BGEZAL", "ERET"] := by
  cases i <;> simp [Instr.isControl, Instr.mnemonic]

/-- Settles O22: a control instruction makes the check of R102 first, and no other end of an instruction halts so. -/
theorem controlInstructionsHaltInDelaySlots : Obligations.ControlInstructionsHaltInDelaySlots := by
  unfold Obligations.ControlInstructionsHaltInDelaySlots
  refine fun i s => ⟨isControl_iff i, fun hi slot => ?_, fun hi p w e => ?_⟩
  · obtain ⟨m, e, -⟩ := exec_of_control s hi
    rw [e, control_of_slot i m slot]
  · have answer := exec_of_notControl s hi
    rw [e] at answer
    cases answer with
    | halts f hf => exact hf p w rfl

theorem seqNext_congr (pc : t.pc = s.pc) (delay : t.delay = s.delay) : t.seqNext = s.seqNext := by
  simp [State.seqNext, pc, delay]

/-- Settles O23: a plain instruction that answers a next state finishes or traps. -/
theorem otherInstructionsEndAtTheSuccessor : Obligations.OtherInstructionsEndAtTheSuccessor := by
  unfold Obligations.OtherInstructionsEndAtTheSuccessor
  intro i s t hi e
  have answer := exec_of_notControl s hi
  rw [e] at answer
  cases answer with
  | finishes u pc delay => exact .inl ⟨rfl, seqNext_congr pc delay⟩
  | logsNoOp => exact .inl ⟨rfl, rfl⟩
  | traps mnemonic trap => exact .inr ⟨mnemonic, trap ▸ raiseOverflow_traps⟩

/-- The rest of the machine stays but for outputs, which stay or gain the log event of `i`. -/
def LogsAtMost (s : State) (i : Instr) (t : State) : Prop :=
  RestSame { s with outputs := t.outputs } t ∧
    (t.outputs = s.outputs ∨ t.outputs = s.outputs ++ [.unsupported s.pc (encode i)])

theorem LogsAtMost.of_restSame (h : RestSame s t) : LogsAtMost s i t := by
  obtain ⟨hcfg, hrom, hsize, hsp, hdp, hctrl, hloop, hstop, hphase, hreq, hin, hout⟩ := h
  exact ⟨⟨hcfg, hrom, hsize, hsp, hdp, hctrl, hloop, hstop, hphase, hreq, hin, rfl⟩, .inl hout⟩

theorem exec_logsAtMost (e : exec i s = .next t) : LogsAtMost s i t := by
  cases hi : i.isControl with
  | false =>
    have answer := exec_of_notControl s hi
    rw [e] at answer
    cases answer with
    | finishes u pc delay rest => exact .of_restSame rest
    | logsNoOp => exact ⟨.refl _, .inr rfl⟩
    | traps => exact .of_restSame (.refl s)
  | true =>
    obtain ⟨m, em, meaning⟩ := exec_of_control s hi
    rw [em] at e
    obtain c | c := control_cases (s := s) i m <;> rw [c] at e
    · cases e
    · rw [e] at meaning
      cases meaning with
      | next _ rest => exact .of_restSame rest

/-- Settles O46: only the no-op of an absent CP0 register emits anything. -/
theorem instructionsLeaveTheRestAlone : Obligations.InstructionsLeaveTheRestAlone := by
  unfold Obligations.InstructionsLeaveTheRestAlone
  exact fun i s t => exec_logsAtMost

/-! ## The step of the processor's turn -/

variable {k : Nat} {f : Fault}

theorem step_of_processorNext (turn : ProcessorsTurn s k) (h : processorStep s = .next t) :
    step s = .next t.countStep := by
  rw [step_of_processorsTurn turn, State.processorTurn, h]

theorem step_of_processorFault (turn : ProcessorsTurn s k) (h : processorStep s = .fault f) :
    step s = .next (s.haltWith f) := by
  rw [step_of_processorsTurn turn, State.processorTurn, h]

/-- Settles O43: the processor's step is the decoded instruction, and the turn counts it or records its halt. -/
theorem stepRunsTheDecodedInstruction : Obligations.StepRunsTheDecodedInstruction := by
  unfold Obligations.StepRunsTheDecodedInstruction
  intro s k w i turn noInterrupt fetched decoded
  rw [← processorStep_of_decoded noInterrupt fetched decoded]
  exact ⟨fun t => step_of_processorNext turn, fun f => step_of_processorFault turn⟩

theorem processorStep_of_interrupt (hd : s.delay = .none) (h : s.interruptPending = true) :
    processorStep s = .next s.takeInterrupt := by
  simp [processorStep, hd, h]

theorem interruptPending_iff : s.interruptPending = true ↔
    statusIE s.status = true ∧ statusEXL s.status = false ∧ causeIP s.cause &&& statusIM s.status ≠ 0 := by
  simp [State.interruptPending, and_assoc]

theorem countStep_phase (h : s.phase = .processor k) :
    s.countStep.phase = if k + 1 < s.cfg.insnBudget then .processor (k + 1) else .signal := by
  simp [State.countStep, h]

/-- Settles O42: the processor's step is the trap entry, and the turn counts it. -/
theorem interruptIsTakenBeforeTheFetch : Obligations.InterruptIsTakenBeforeTheFetch := by
  unfold Obligations.InterruptIsTakenBeforeTheFetch
  intro s k turn noSlot ie exl ip
  have taken : processorStep s = .next (s.trapEntry excInt s.pc false) :=
    processorStep_of_interrupt noSlot (interruptPending_iff.2 ⟨ie, exl, ip⟩)
  refine ⟨_, step_of_processorNext turn taken, ?excCode, ?bd, ?ip, ?exl, ?ie, ?im, ?epc, ?pc, ?delay, fun q => ?regs,
    fun a => ?memory, countStep_phase turn.turn, ?rest⟩
  case excCode => simp [excInt]
  case bd | ip | epc => simp [exl]
  case ie => simp [ie]
  case exl | im | pc | delay | regs => simp
  case memory => exact State.byteAt_congr (by simp) (by simp) (by simp) (by simp) a
  case rest => simp [RestSame]

/-! ## Failures of fetch and decode -/

theorem readWord_of_unmapped {a : Addr} (ha : a.toNat % 4 = 0) (h : s.byteAt a = none) :
    s.readWord a = .error (.addressError a) := by
  rw [State.readWord, access_of_unmapped ha h]

theorem unsupportedWord_loggedNoOp (w : Word) (h : s.cfg.mode = .permissive) :
    LoggedNoOp w s (s.unsupportedWord w) :=
  ⟨_, unsupportedWord_permissive w h, rfl, fun _ => rfl, ⟨rfl, rfl, rfl⟩, fun _ => rfl, .refl _, ⟨rfl, rfl⟩⟩

/-- Settles O44: the processor's step fails with its fetch, and treats a word that does not decode by the mode. -/
theorem fetchAndDecodeFailures : Obligations.FetchAndDecodeFailures := by
  unfold Obligations.FetchAndDecodeFailures
  refine fun s noInterrupt aligned => ⟨fun unmapped => ?_, fun w fetched undecoded => ?_⟩
  · exact processorStep_of_fetchError noInterrupt (readWord_of_unmapped aligned unmapped)
  · rw [processorStep_of_unsupported noInterrupt fetched undecoded]
    exact ⟨unsupportedWord_strict w, unsupportedWord_loggedNoOp w⟩

/-! ## A halt depends on the processor and memory only -/

/-- The halt of an answer, where it is one. -/
def haltOf : Result → Option Fault
  | .fault f => some f
  | _ => none

theorem haltOf_eq_some_iff {m : Result} : haltOf m = some f ↔ m = .fault f := by
  cases m <;> simp [haltOf]

/-- What the StepLoop keeps beside the processor and memory. -/
structure LoopFields where
  loop : LoopState
  stopReason : StopReason
  phase : Phase
  requests : List HostRequest
  outputs : List Output

/-- The state with the StepLoop's fields exchanged. -/
def State.withLoop (s : State) (l : LoopFields) : State :=
  { s with
    loop := l.loop
    stopReason := l.stopReason
    phase := l.phase
    requests := l.requests
    outputs := l.outputs }

section WithLoop

variable (l : LoopFields)

theorem haltOf_ite {c : Prop} [Decidable c] {m n m' n' : Result} (hm : haltOf m' = haltOf m)
    (hn : haltOf n' = haltOf n) : haltOf (if c then m' else n') = haltOf (if c then m else n) := by
  split
  · exact hm
  · exact hn

theorem haltOf_loadResult_withLoop (r : Reg) (x : Except Fault DWord) :
    haltOf ((s.withLoop l).loadResult r x) = haltOf (s.loadResult r x) := by
  cases x <;> rfl

theorem haltOf_storeResult_withLoop (a : Addr) (w : Width) (v : Word) :
    haltOf ((s.withLoop l).storeResult a w v) = haltOf (s.storeResult a w v) := by
  have same : (s.withLoop l).access a w = s.access a w := rfl
  unfold State.storeResult State.memWrite
  rw [same]
  cases s.access a w with
  | error f => rfl
  | ok p => cases p <;> rfl

theorem haltOf_unsupportedWord_withLoop (w : Word) :
    haltOf ((s.withLoop l).unsupportedWord w) = haltOf (s.unsupportedWord w) := by
  have same : (s.withLoop l).cfg = s.cfg := rfl
  unfold State.unsupportedWord
  rw [same]
  cases s.cfg.mode <;> rfl

theorem haltOf_execMfc0_withLoop (rt rd : Reg) :
    haltOf (execMfc0 rt rd (s.withLoop l)) = haltOf (execMfc0 rt rd s) := by
  have same : (s.withLoop l).cp0Read rd = s.cp0Read rd := rfl
  unfold execMfc0
  rw [same]
  cases s.cp0Read rd with
  | some v => rfl
  | none => exact haltOf_unsupportedWord_withLoop l _

theorem cp0Write_withLoop (n : Reg) (v : Word) :
    (s.withLoop l).cp0Write n v = (s.cp0Write n v).map (·.withLoop l) := by
  unfold State.cp0Write
  split <;> rfl

theorem haltOf_execMtc0_withLoop (rt rd : Reg) :
    haltOf (execMtc0 rt rd (s.withLoop l)) = haltOf (execMtc0 rt rd s) := by
  have same : (s.withLoop l).low rt = s.low rt := rfl
  unfold execMtc0
  rw [same, cp0Write_withLoop]
  cases s.cp0Write rd (s.low rt) with
  | some t => rfl
  | none => exact haltOf_unsupportedWord_withLoop l _

/-- Whether an instruction halts, and how, does not depend on the StepLoop's fields. -/
theorem haltOf_exec_withLoop (i : Instr) : haltOf (exec i (s.withLoop l)) = haltOf (exec i s) := by
  cases i with
  | addu | subu | and | or | xor | nor | slt | sltu | sll | srl | sra | sllv | srlv | srav
  | addiu | slti | sltiu | andi | ori | xori | lui => rfl
  | add | sub | addi => exact haltOf_ite rfl rfl
  | j | jal | beq | bne | blez | bgtz | bltz | bgez | bltzal | bgezal => exact haltOf_ite rfl rfl
  | jr | jalr | eret => exact haltOf_ite rfl (haltOf_ite rfl rfl)
  | lb | lbu | lh | lhu | lw => exact haltOf_loadResult_withLoop l _ _
  | sb | sh | sw => exact haltOf_storeResult_withLoop l _ _ _
  | mfc0 rt rd => exact haltOf_execMfc0_withLoop l rt rd
  | mtc0 rt rd => exact haltOf_execMtc0_withLoop l rt rd

theorem haltOf_processorStep_withLoop : haltOf (processorStep (s.withLoop l)) = haltOf (processorStep s) := by
  refine haltOf_ite rfl ?_
  have same : (s.withLoop l).fetch = s.fetch := rfl
  rw [same]
  cases s.fetch with
  | error f => rfl
  | ok w =>
    cases h : decode w with
    | none => simpa only [h] using haltOf_unsupportedWord_withLoop l w
    | some i => simpa only [h] using haltOf_exec_withLoop l i

theorem processorStep_fault_withLoop (h : processorStep s = .fault f) : processorStep (s.withLoop l) = .fault f := by
  rw [← haltOf_eq_some_iff, haltOf_processorStep_withLoop, haltOf_eq_some_iff, h]

end WithLoop

/-! ## A halt, and a start after it -/

/-- The StepLoop's fields once a start request has been carried out at a stopped machine. -/
def LoopFields.started (s : State) : LoopFields where
  loop := .running
  stopReason := .none
  phase := .processor 0
  requests := []
  outputs := s.outputs ++ [.reply .done]

theorem step_of_start (hc : s.cfg.wellFormed = true) (noRequest : s.requests = []) :
    step ((s.haltWith f).issue .start) = .next (s.withLoop (.started s)) := by
  have good : ((s.haltWith f).issue .start).cfg.wellFormed = true := hc
  rw [step_of_goodConfiguration good]
  simp [State.turn, State.atBoundary, State.issue, noRequest, State.applyRequest, State.start, State.haltWith,
    State.reply, State.emit, State.withLoop, LoopFields.started]

theorem processorsTurn_started (hc : s.cfg.wellFormed = true) : ProcessorsTurn (s.withLoop (.started s)) 0 :=
  ⟨hc, rfl, rfl, fun _ => rfl⟩

theorem stepsFrom_two {u : State} (h : step s = .next t) (k : step t = .next u) : stepsFrom 2 s = some u := by
  simp [stepsFrom, h, k, nextState]

/-- Settles O45: the halt changes the StepLoop's fields only, on which the halt that follows a start does not depend. -/
theorem haltStopsTheLoopAndRestartRepeatsIt : Obligations.HaltStopsTheLoopAndRestartRepeatsIt := by
  unfold Obligations.HaltStopsTheLoopAndRestartRepeatsIt
  intro s k f turn halt
  refine ⟨step_of_processorFault turn halt, fun noRequest => ?_⟩
  have again := step_of_processorFault (processorsTurn_started turn.cfgOk) (processorStep_fault_withLoop _ halt)
  exact ⟨_, stepsFrom_two (step_of_start turn.cfgOk noRequest) again, rfl, rfl, rfl, rfl, fun _ => rfl, ⟨rfl, rfl, rfl⟩,
    fun _ => rfl⟩

end Sys2Proof.Machine
end

