-- ==== Sys2Proof/Proofs/RegisterRegister.lean ====
section
/-! SUPPORT. The register-register instructions (41_register_register.md R120 to R135): the words of the R format, the
results of the word operations as the integers the spec writes, and the two answers of an overflow-checked result. -/

namespace Sys2Proof.Machine

variable {s : State}

/-! ## The words of the R format -/

theorem encodedAs_of_fixedBits {i : Instr} {mask pattern : Word} (h : encode i &&& mask = pattern) :
    EncodedAs i mask pattern := ⟨h, decode_encode i⟩

/-- An instruction with three registers has its opcode, sa and funct fixed (30_encoding.md R82). -/
theorem encodedAs_threeRegisters {i : Instr} {rs rt rd : Reg} {funct : BitVec 6} {pattern : Word}
    (hi : encode i = encodeR rs rt rd 0 funct) (hp : encodeR 0 0 0 0 funct = pattern) :
    EncodedAs i 0xFC0007FF pattern :=
  encodedAs_of_fixedBits (hi ▸ (encodeR_mask_FC0007FF ..).trans hp)

/-- An instruction with two registers and a shift amount has its opcode, rs and funct fixed. -/
theorem encodedAs_shiftByImmediate {i : Instr} {rt rd : Reg} {sa : BitVec 5} {funct : BitVec 6} {pattern : Word}
    (hi : encode i = encodeR 0 rt rd sa funct) (hp : encodeR 0 0 0 0 funct = pattern) :
    EncodedAs i 0xFFE0003F pattern :=
  encodedAs_of_fixedBits (hi ▸ (encodeR_mask_FFE0003F ..).trans hp)

/-! ## A word and the integer it stands for -/

theorem fitsWord_iff {r : Int} : fitsWord r = true ↔ -2 ^ 31 ≤ r ∧ r ≤ 2 ^ 31 - 1 := by simp [fitsWord]

theorem sext64_eq_ofInt (w : Word) : sext64 w = BitVec.ofInt 64 w.toInt := rfl

theorem toInt_sext64 (w : Word) : (sext64 w).toInt = w.toInt := BitVec.toInt_signExtend_of_le (by decide)

/-- The sign extension of an integer that fits a word is the integer (10_state.md R23). -/
theorem sext64_ofInt_of_fits {r : Int} (h : fitsWord r = true) : sext64 (BitVec.ofInt 32 r) = BitVec.ofInt 64 r := by
  obtain ⟨low, high⟩ := fitsWord_iff.1 h
  rw [sext64_eq_ofInt, BitVec.toInt_ofInt_eq_self (by decide) low (by omega)]

/-- Sign extension keeps the unsigned order: it adds the same to every word of the upper half. -/
theorem toNat_sext64_lt_iff (a b : Word) : (sext64 a).toNat < (sext64 b).toNat ↔ a.toNat < b.toNat := by
  have := a.isLt
  have := b.isLt
  simp only [sext64, BitVec.toNat_signExtend, BitVec.msb_eq_decide, BitVec.toNat_setWidth, decide_eq_true_eq]
  split <;> split <;> omega

/-! ## Sums and differences -/

theorem ofInt_sub {n : Nat} (x y : Int) : BitVec.ofInt n (x - y) = BitVec.ofInt n x - BitVec.ofInt n y := by
  rw [Int.sub_eq_add_neg, BitVec.ofInt_add, BitVec.ofInt_neg, BitVec.sub_eq_add_neg]

theorem add_eq_ofInt (a b : Word) : a + b = BitVec.ofInt 32 (a.toInt + b.toInt) := by simp [BitVec.ofInt_add]

theorem sub_eq_ofInt (a b : Word) : a - b = BitVec.ofInt 32 (a.toInt - b.toInt) := by simp [ofInt_sub]

theorem sub_eq_ofInt_toNat (a b : Word) : a - b = BitVec.ofInt 32 (a.toNat - b.toNat) := by simp [ofInt_sub]

/-- The two answers of an instruction that computes the word of `r` and traps where `r` does not fit. -/
theorem writes_or_traps {answer : Result} {rd : Reg} {r : Int} {w : Word} (hw : w = BitVec.ofInt 32 r)
    (he : answer = if !fitsWord r then s.raiseOverflow else s.writeResult rd (sext64 w)) :
    (-2 ^ 31 ≤ r ∧ r ≤ 2 ^ 31 - 1 → WritesRegister rd (BitVec.ofInt 64 r) s answer) ∧
    (¬(-2 ^ 31 ≤ r ∧ r ≤ 2 ^ 31 - 1) → TrapsOverflow s answer) := by
  rw [← fitsWord_iff, he, hw]
  cases fits : fitsWord r with
  | true => exact ⟨fun _ => writeResult_writes_eq (sext64_ofInt_of_fits fits), fun unfit => absurd rfl unfit⟩
  | false => exact ⟨nofun, fun _ => raiseOverflow_traps⟩

/-- Settles O5: the word written is that of the exact sum, on which the overflow check decides. -/
theorem addWritesTheSumOrTraps : Obligations.AddWritesTheSumOrTraps := by
  unfold Obligations.AddWritesTheSumOrTraps
  exact fun rd rs rt s => ⟨encodedAs_threeRegisters rfl (by decide), writes_or_traps (add_eq_ofInt _ _) rfl⟩

/-- Settles O6, as O5 with the exact difference. -/
theorem subWritesTheDifferenceOrTraps : Obligations.SubWritesTheDifferenceOrTraps := by
  unfold Obligations.SubWritesTheDifferenceOrTraps
  exact fun rd rs rt s => ⟨encodedAs_threeRegisters rfl (by decide), writes_or_traps (sub_eq_ofInt _ _) rfl⟩

/-- Settles O7: the words' own sum and difference are those modulo 2^32. -/
theorem adduAndSubuWrap : Obligations.AdduAndSubuWrap := by
  unfold Obligations.AdduAndSubuWrap
  intro rd rs rt s
  refine ⟨encodedAs_threeRegisters rfl (by decide), ?_, encodedAs_threeRegisters rfl (by decide), ?_⟩
  · exact writeResult_writes_eq (congrArg sext64 (BitVec.add_def _ _))
  · exact writeResult_writes_eq (congrArg sext64 (sub_eq_ofInt_toNat _ _))

/-! ## Bit by bit -/

/-- Settles O8: the four values are those `exec` writes, read bit by bit. -/
theorem bitwiseOnRegisters : Obligations.BitwiseOnRegisters := by
  unfold Obligations.BitwiseOnRegisters
  intro rd rs rt s
  refine ⟨encodedAs_threeRegisters rfl (by decide), encodedAs_threeRegisters rfl (by decide),
    encodedAs_threeRegisters rfl (by decide), encodedAs_threeRegisters rfl (by decide),
    s.reg rs &&& s.reg rt, s.reg rs ||| s.reg rt, s.reg rs ^^^ s.reg rt, ~~~(s.reg rs ||| s.reg rt), fun k hk => ?_,
    writeResult_writes _ _, writeResult_writes _ _, writeResult_writes _ _, writeResult_writes _ _⟩
  simp [hk]

/-! ## Compares -/

theorem boolValue_lessSigned (a b : DWord) : boolValue (lessSigned a b) = if a.toInt < b.toInt then 1 else 0 := by
  simp [boolValue, lessSigned, BitVec.slt_iff_toInt_lt]

theorem boolValue_lessUnsigned (a b : DWord) : boolValue (lessUnsigned a b) = if a.toNat < b.toNat then 1 else 0 := by
  simp [boolValue, lessUnsigned, BitVec.ult_iff_toNat_lt]

/-- Settles O9: sign extension keeps both orders. -/
theorem setLessThanOnRegisters : Obligations.SetLessThanOnRegisters := by
  unfold Obligations.SetLessThanOnRegisters
  intro rd rs rt s
  refine ⟨encodedAs_threeRegisters rfl (by decide), encodedAs_threeRegisters rfl (by decide),
    writeResult_writes_eq (boolValue_lessSigned _ _), writeResult_writes_eq (boolValue_lessUnsigned _ _), ?_⟩
  intro extendedRs extendedRt
  rw [extendedRs, extendedRt, toInt_sext64, toInt_sext64, toNat_sext64_lt_iff]
  exact ⟨.rfl, .rfl⟩

/-! ## Shifts -/

theorem shiftLeft_eq_ofNat (w : Word) (n : Nat) : w <<< n = BitVec.ofNat 32 (w.toNat * 2 ^ n) := by
  apply BitVec.eq_of_toNat_eq
  simp [Nat.shiftLeft_eq]

theorem ushiftRight_eq_ofNat (w : Word) (n : Nat) : w >>> n = BitVec.ofNat 32 (w.toNat / 2 ^ n) := by
  apply BitVec.eq_of_toNat_eq
  have quotientFits : w.toNat / 2 ^ n < 2 ^ 32 := Nat.lt_of_le_of_lt (Nat.div_le_self _ _) w.isLt
  rw [BitVec.toNat_ushiftRight, Nat.shiftRight_eq_div_pow, BitVec.toNat_ofNat, Nat.mod_eq_of_lt quotientFits]

theorem sext64_sshiftRight (w : Word) (n : Nat) :
    sext64 (w.sshiftRight n) = BitVec.ofInt 64 (w.toInt / 2 ^ n) := by
  rw [sext64_eq_ofInt, BitVec.toInt_sshiftRight, Int.shiftRight_eq_div_pow]
  norm_cast

theorem toNat_shiftAmount (v : DWord) : (shiftAmount v).toNat = v.toNat % 32 := by
  simp [shiftAmount]

/-- What a register holds after each of the three shifts of a word by `n` places. -/
theorem writeResult_shifts (rd : Reg) (w : Word) (n : Nat) :
    WritesRegister rd (BitVec.signExtend 64 (BitVec.ofNat 32 (w.toNat * 2 ^ n))) s (s.writeResult rd (sext64 (w <<< n))) ∧
    WritesRegister rd (BitVec.signExtend 64 (BitVec.ofNat 32 (w.toNat / 2 ^ n))) s (s.writeResult rd (sext64 (w >>> n))) ∧
    WritesRegister rd (BitVec.ofInt 64 (w.toInt / 2 ^ n)) s (s.writeResult rd (sext64 (w.sshiftRight n))) :=
  ⟨writeResult_writes_eq (congrArg sext64 (shiftLeft_eq_ofNat w n)),
    writeResult_writes_eq (congrArg sext64 (ushiftRight_eq_ofNat w n)), writeResult_writes_eq (sext64_sshiftRight w n)⟩

/-- Settles O10: the three shifts by the amount in the word. -/
theorem shiftsByImmediate : Obligations.ShiftsByImmediate := by
  unfold Obligations.ShiftsByImmediate
  intro rd rt sa s
  exact ⟨encodedAs_shiftByImmediate rfl (by decide), encodedAs_shiftByImmediate rfl (by decide),
    encodedAs_shiftByImmediate rfl (by decide), writeResult_shifts rd (s.low rt) sa.toNat⟩

/-- Settles O11: the three shifts by the low five bits of rs, read before the write. -/
theorem shiftsByRegister : Obligations.ShiftsByRegister := by
  unfold Obligations.ShiftsByRegister
  intro rd rt rs s
  dsimp only
  rw [← toNat_shiftAmount]
  exact ⟨encodedAs_threeRegisters rfl (by decide), encodedAs_threeRegisters rfl (by decide),
    encodedAs_threeRegisters rfl (by decide), writeResult_shifts rd (s.low rt) (shiftAmount (s.reg rs)).toNat⟩

end Sys2Proof.Machine
end

