-- ==== Sys2Proof/Proofs/ControlTransfer.lean ====
section
/-! SUPPORT. The jumps and branches outside a delay slot (42_control_transfer.md R150 to R163, R166): the words of their
formats, their targets as the integers the spec writes, and the end that each condition chooses. -/

namespace Sys2Proof.Machine

variable {s : State} {i : Instr}

/-! ## The words of the control instructions -/

/-- A branch that compares two registers has its opcode fixed (30_encoding.md R82). -/
theorem encodedAs_equalityBranch {op : BitVec 6} {rs rt : Reg} {imm : Half} {pattern : Word}
    (hi : encode i = encodeI op rs rt imm) (hp : encodeI op 0 0 0 = pattern) : EncodedAs i 0xFC000000 pattern :=
  encodedAs_of_fixedBits (hi ▸ (encodeI_mask_FC000000 ..).trans hp)

/-- A jump to the target field has its opcode fixed. -/
theorem encodedAs_absoluteJump {op : BitVec 6} {target : BitVec 26} {pattern : Word}
    (hi : encode i = encodeJ op target) (hp : encodeJ op 0 = pattern) : EncodedAs i 0xFC000000 pattern :=
  encodedAs_of_fixedBits (hi ▸ (encodeJ_mask_FC000000 ..).trans hp)

/-- A branch on the sign of a register has its opcode and its rt field fixed. -/
theorem encodedAs_signBranch {op : BitVec 6} {rs sub : Reg} {imm : Half} {pattern : Word}
    (hi : encode i = encodeI op rs sub imm) (hp : encodeI op 0 sub 0 = pattern) : EncodedAs i 0xFC1F0000 pattern :=
  encodedAs_of_fixedBits (hi ▸ (encodeI_mask_FC1F0000 ..).trans hp)

/-! ## Targets -/

/-- A branch target is modulo 2^32 the sum over the integers that R151 writes. -/
theorem branchTarget_eq_ofInt (pc : Addr) (imm : Half) :
    branchTarget pc imm = BitVec.ofInt 32 (pc.toNat + 4 + 4 * imm.toInt) := by
  have offset : simm32 imm <<< 2 = BitVec.ofInt 32 (4 * imm.toInt) := by
    rw [BitVec.shiftLeft_eq_mul_twoPow, BitVec.mul_comm, BitVec.ofInt_mul]
    rfl
  simp [branchTarget, offset, BitVec.ofInt_add]

/-- The region and the target of R154 have no bit in common, so that their OR is their sum. -/
theorem jumpTarget_eq_ofNat (pc : Addr) (target : BitVec 26) :
    jumpTarget pc target = BitVec.ofNat 32 ((pc + 4#32).toNat / 2 ^ 28 * 2 ^ 28 + target.toNat * 4) := by
  have region : (pc + 4#32) &&& 0xF0000000#32 = (pc + 4#32) >>> 28 <<< 28 := by
    rw [BitVec.shiftLeft_ushiftRight]
    rfl
  rw [jumpTarget, region]
  generalize pc + 4#32 = next
  have nextFits := next.isLt
  have targetFits := target.isLt
  apply BitVec.eq_of_toNat_eq
  calc (next >>> 28 <<< 28 ||| target.setWidth 32 <<< 2).toNat
      = next.toNat / 2 ^ 28 * 2 ^ 28 % 2 ^ 32 ||| target.toNat * 4 % 2 ^ 32 := by
        simp [Nat.shiftLeft_eq, Nat.shiftRight_eq_div_pow]
    _ = 2 ^ 28 * (next.toNat / 2 ^ 28) ||| target.toNat * 4 := by congr 1 <;> omega
    _ = 2 ^ 28 * (next.toNat / 2 ^ 28) + target.toNat * 4 := (Nat.two_pow_add_eq_or_of_lt (by omega) _).symm
    _ = (BitVec.ofNat 32 (next.toNat / 2 ^ 28 * 2 ^ 28 + target.toNat * 4)).toNat := by
        rw [BitVec.toNat_ofNat]; omega

/-! ## Jumps -/

theorem exec_jr (rs : Reg) (noSlot : s.delay = .none) :
    exec (.jr rs) s = alignedTarget (s.low rs) (.next (s.transfer (.taken (s.low rs)))) := control_of_none _ _ noSlot

theorem exec_jalr (rd rs : Reg) (noSlot : s.delay = .none) :
    exec (.jalr rd rs) s =
      alignedTarget (s.low rs) (.next ((s.setReg rd (linkValue s.pc)).transfer (.taken (s.low rs)))) :=
  control_of_none _ _ noSlot

/-- Settles O17: outside a slot only the check of the target's alignment stands before the transfer. -/
theorem registerJumps : Obligations.RegisterJumps := by
  unfold Obligations.RegisterJumps
  intro rd rs s
  refine ⟨encodedAs_of_fixedBits ((encodeR_mask_FC1FFFFF ..).trans (by decide)),
    encodedAs_of_fixedBits ((encodeR_mask_FC1F07FF ..).trans (by decide)),
    fun noSlot aligned => ?_, fun noSlot misaligned => ?_⟩ <;> rw [exec_jr rs noSlot, exec_jalr rd rs noSlot]
  · rw [alignedTarget_of_aligned _ aligned, alignedTarget_of_aligned _ aligned]
    exact ⟨transfer_only _, transfer_links ..⟩
  · exact ⟨alignedTarget_of_misaligned _ misaligned, alignedTarget_of_misaligned _ misaligned⟩

theorem exec_j (target : BitVec 26) (noSlot : s.delay = .none) :
    exec (.j target) s = .next (s.transfer (.taken (jumpTarget s.pc target))) := control_of_none _ _ noSlot

theorem exec_jal (target : BitVec 26) (noSlot : s.delay = .none) :
    exec (.jal target) s = .next ((s.setReg 31 (linkValue s.pc)).transfer (.taken (jumpTarget s.pc target))) :=
  control_of_none _ _ noSlot

/-- Settles O18: each jump transfers to the target the sum gives. -/
theorem absoluteJumps : Obligations.AbsoluteJumps := by
  unfold Obligations.AbsoluteJumps
  intro target s noSlot
  dsimp only
  rw [exec_j target noSlot, exec_jal target noSlot, jumpTarget_eq_ofNat]
  exact ⟨encodedAs_absoluteJump rfl (by decide), encodedAs_absoluteJump rfl (by decide), transfer_only _,
    transfer_links ..⟩

/-! ## Branches -/

/-- The delay state a branch sets, by the proposition its condition decides. -/
theorem branchDelay_eq {c : Bool} {p : Prop} [Decidable p] (hc : c = true ↔ p) (pc : Addr) (imm : Half) :
    (if c then Delay.taken (branchTarget pc imm) else .notTaken) =
      if p then .taken (BitVec.ofInt 32 (pc.toNat + 4 + 4 * imm.toInt)) else .notTaken := by
  simp only [hc, branchTarget_eq_ofInt]

section
variable {c : Bool} {p : Prop} [Decidable p] {imm : Half} {answer : Result}

/-- A branch outside a slot transfers by the proposition its condition decides. -/
theorem control_branch (noSlot : s.delay = .none) (he : answer = s.control i (.next (s.branch c imm)))
    (hc : c = true ↔ p) :
    TransfersOnly (if p then .taken (BitVec.ofInt 32 (s.pc.toNat + 4 + 4 * imm.toInt)) else .notTaken) s answer := by
  rw [he, control_of_none _ _ noSlot]
  exact transfer_only_eq (branchDelay_eq hc s.pc imm)

/-- A linking branch writes r31 whether or not `p` holds, and its target is still relative to the branch. -/
theorem control_branch_links (noSlot : s.delay = .none)
    (he : answer = s.control i (.next ((s.setReg 31 (linkValue s.pc)).branch c imm))) (hc : c = true ↔ p) :
    TransfersAndLinks (if p then .taken (BitVec.ofInt 32 (s.pc.toNat + 4 + 4 * imm.toInt)) else .notTaken) 31
      (linkValue s.pc) s answer := by
  rw [he, control_of_none _ _ noSlot, branch_setReg_eq]
  exact transfer_links_eq (branchDelay_eq hc s.pc imm)

end

/-- Settles O19: the conditions are equality and its negation on all 64 bits. -/
theorem branchesOnEquality : Obligations.BranchesOnEquality := by
  unfold Obligations.BranchesOnEquality
  intro rs rt imm s noSlot
  dsimp only
  refine ⟨encodedAs_equalityBranch rfl (by decide), encodedAs_equalityBranch rfl (by decide),
    control_branch noSlot rfl beq_iff_eq, ?_⟩
  rw [← ite_not]
  exact control_branch noSlot rfl bne_iff_ne

theorem lessSigned_iff (a b : DWord) : lessSigned a b = true ↔ a.toInt < b.toInt := BitVec.slt_iff_toInt_lt

theorem not_lessSigned_iff (a b : DWord) : (!lessSigned a b) = true ↔ b.toInt ≤ a.toInt := by
  rw [Bool.not_eq_true', ← Bool.not_eq_true, lessSigned_iff, Int.not_lt]

theorem lessSigned_one_iff (a : DWord) : lessSigned a 1 = true ↔ a.toInt ≤ 0 := by
  rw [lessSigned_iff, show (1 : DWord).toInt = 0 + 1 by decide, Int.lt_add_one_iff]

/-- Settles O20: the conditions are signed compares with 0, BLEZ's with 1. -/
theorem branchesOnSign : Obligations.BranchesOnSign := by
  unfold Obligations.BranchesOnSign
  intro rs imm s noSlot
  exact ⟨encodedAs_signBranch rfl (by decide), encodedAs_signBranch rfl (by decide),
    encodedAs_signBranch rfl (by decide), encodedAs_signBranch rfl (by decide),
    control_branch noSlot rfl (lessSigned_one_iff _),
    control_branch noSlot rfl (lessSigned_iff _ _), control_branch noSlot rfl (lessSigned_iff _ _),
    control_branch noSlot rfl (not_lessSigned_iff _ _)⟩

/-- Settles O21: the condition is read in the state before the link is written. -/
theorem linkingBranches : Obligations.LinkingBranches := by
  unfold Obligations.LinkingBranches
  intro rs imm s noSlot
  exact ⟨encodedAs_signBranch rfl (by decide), encodedAs_signBranch rfl (by decide),
    control_branch_links noSlot rfl (lessSigned_iff _ _), control_branch_links noSlot rfl (not_lessSigned_iff _ _)⟩

/-! ## After the delay slot -/

/-- Settles O24: a control instruction would halt in the slot, and any other ends at the pending target. -/
theorem jumpTakesEffectAfterItsSlot : Obligations.JumpTakesEffectAfterItsSlot := by
  unfold Obligations.JumpTakesEffectAfterItsSlot
  intro target i s t u noSlot jumps runs noTrap
  cases (exec_j target noSlot).symm.trans jumps
  refine ⟨rfl, ?_⟩
  cases control : i.isControl with
  | true =>
    obtain ⟨-, haltsInSlot, -⟩ :=
      controlInstructionsHaltInDelaySlots i (s.transfer (.taken (jumpTarget s.pc target)))
    cases (haltsInSlot control nofun).symm.trans runs
  | false =>
    obtain ⟨-, atTarget⟩ | ⟨-, trap⟩ := otherInstructionsEndAtTheSuccessor i _ u control runs
    · exact atTarget
    · exact absurd trap noTrap

end Sys2Proof.Machine
end

