-- ==== Sys2Proof/Proofs/ImmediateArith.lean ====
section
/-! SUPPORT. The immediate arithmetic (43_immediate_arith.md R170 to R178): the words of its format, the immediate
operands as the integers and the bits the spec writes, and the
results as those of the register forms with that operand. -/

namespace Sys2Proof.Machine

/-! ## The words of the immediate format -/

/-- The format of a branch that compares two registers is also that of rt, rs and an immediate: the opcode is fixed. -/
theorem encodedAs_registerAndImmediate {i : Instr} {op : BitVec 6} {rs rt : Reg} {imm : Half} {pattern : Word}
    (hi : encode i = encodeI op rs rt imm) (hp : encodeI op 0 0 0 = pattern) : EncodedAs i 0xFC000000 pattern :=
  encodedAs_equalityBranch hi hp

/-- LUI has its rs field fixed too. -/
theorem encodedAs_lui (rt : Reg) (imm : Half) : EncodedAs (.lui rt imm) 0xFFE00000 0x3C000000 :=
  encodedAs_of_fixedBits ((encodeI_mask_FFE00000 ..).trans (by decide))

/-! ## The immediate operands -/

theorem toInt_simm32 (imm : Half) : (simm32 imm).toInt = imm.toInt := BitVec.toInt_signExtend_of_le (by decide)

theorem toInt_simm64 (imm : Half) : (simm64 imm).toInt = imm.toInt := BitVec.toInt_signExtend_of_le (by decide)

theorem simm64_eq_ofInt (imm : Half) : simm64 imm = BitVec.ofInt 64 imm.toInt := rfl

theorem getLsbD_zimm64 (imm : Half) {k : Nat} (hk : k < 64) :
    (zimm64 imm).getLsbD k = if k < 16 then imm.getLsbD k else false := by
  rw [zimm64, BitVec.getLsbD_setWidth]
  split
  · simp [hk]
  · rw [BitVec.getLsbD_of_ge imm k (by omega), Bool.and_false]

/-- The immediate in the upper half of a word is, modulo 2^32, the signed immediate times 2^16. -/
theorem upperHalf_eq_ofInt (imm : Half) : imm.setWidth 32 <<< 16 = BitVec.ofInt 32 (imm.toInt * 2 ^ 16) := by
  apply BitVec.eq_of_toNat_eq
  have := imm.isLt
  simp only [BitVec.toNat_shiftLeft, BitVec.toNat_setWidth, Nat.shiftLeft_eq, BitVec.toNat_ofInt,
    BitVec.toInt_eq_toNat_cond]
  split <;> omega

theorem fitsWord_upperHalf (imm : Half) : fitsWord (imm.toInt * 2 ^ 16) = true := by
  have low := BitVec.le_toInt imm
  have high := BitVec.toInt_lt (x := imm)
  rw [fitsWord_iff]
  omega

theorem upperImmediate_eq_ofInt (imm : Half) : upperImmediate imm = BitVec.ofInt 64 (imm.toInt * 2 ^ 16) := by
  rw [upperImmediate, upperHalf_eq_ofInt, sext64_ofInt_of_fits (fitsWord_upperHalf imm)]

/-! ## Sums -/

/-- Settles O12, as O5 with the sign-extended immediate for rt. -/
theorem addiWritesTheSumOrTraps : Obligations.AddiWritesTheSumOrTraps := by
  unfold Obligations.AddiWritesTheSumOrTraps
  intro rt rs imm s
  dsimp only
  rw [← toInt_simm32 imm]
  exact ⟨encodedAs_registerAndImmediate rfl (by decide), writes_or_traps (add_eq_ofInt _ _) rfl⟩

/-- Settles O13: the words' own sum is that of the signed integers modulo 2^32. -/
theorem addiuWraps : Obligations.AddiuWraps := by
  unfold Obligations.AddiuWraps
  intro rt rs imm s
  rw [← toInt_simm32 imm]
  exact ⟨encodedAs_registerAndImmediate rfl (by decide), writeResult_writes_eq (congrArg sext64 (add_eq_ofInt _ _))⟩

/-! ## Compares -/

/-- Settles O14: the compares of O9 with the sign-extended immediate, read as a signed integer by SLTI only. -/
theorem setLessThanImmediate : Obligations.SetLessThanImmediate := by
  unfold Obligations.SetLessThanImmediate
  intro rt rs imm s
  rw [← simm64_eq_ofInt, ← toInt_simm64 imm]
  exact ⟨encodedAs_registerAndImmediate rfl (by decide), encodedAs_registerAndImmediate rfl (by decide),
    writeResult_writes_eq (boolValue_lessSigned _ _), writeResult_writes_eq (boolValue_lessUnsigned _ _)⟩

/-! ## Bit by bit -/

/-- Settles O15: the three values are those `exec` writes, and from bit 16 up the immediate's bits are zeros. -/
theorem logicalImmediates : Obligations.LogicalImmediates := by
  unfold Obligations.LogicalImmediates
  intro rt rs imm s
  refine ⟨encodedAs_registerAndImmediate rfl (by decide), encodedAs_registerAndImmediate rfl (by decide),
    encodedAs_registerAndImmediate rfl (by decide),
    s.reg rs &&& zimm64 imm, s.reg rs ||| zimm64 imm, s.reg rs ^^^ zimm64 imm, fun k hk => ?_,
    writeResult_writes _ _, writeResult_writes _ _, writeResult_writes _ _⟩
  rw [BitVec.getLsbD_and, BitVec.getLsbD_or, BitVec.getLsbD_xor, getLsbD_zimm64 imm hk]
  split <;> simp

/-! ## The upper half -/

/-- Settles O16: the product fits a word, so its sign extension is the product itself. -/
theorem luiLoadsTheUpperHalf : Obligations.LuiLoadsTheUpperHalf := by
  unfold Obligations.LuiLoadsTheUpperHalf
  exact fun rt imm s => ⟨encodedAs_lui rt imm, writeResult_writes_eq (upperImmediate_eq_ofInt imm)⟩

end Sys2Proof.Machine
end

