-- ==== Sys2Proof/Proofs/LoadStore.lean ====
section
/-! SUPPORT. Loads and stores (44_load_store.md R185 to R194): the effective address as the integer the spec writes,
reads of each width as the bytes at their addresses, the ends of a load, and the outcomes of a store of any width. -/

namespace Sys2Proof.Machine

variable {s : State} {a : Addr}

/-- The effective address is modulo 2^32 the sum over the integers that R185 writes. -/
theorem effectiveAddr_eq_ofInt (base : DWord) (imm : Half) :
    effectiveAddr base imm = BitVec.ofInt 32 (base.toNat + imm.toInt) := by
  rw [BitVec.ofInt_add, BitVec.ofInt_natCast]
  rfl

/-! ## Reads of mapped addresses -/

theorem readByte_of_byteAt {b : Byte} (h : s.byteAt a = some b) : s.readByte a = .ok b := by
  obtain ⟨p, access, rfl⟩ := access_of_byteAt (w := .byte) (Nat.mod_one _) h
  rw [State.readByte, access]

/-- A byte shifted over another is the two bytes side by side. -/
theorem halfOfBytes_eq_append (b0 b1 : Byte) : b0.setWidth 16 <<< 8 ||| b1.setWidth 16 = b0 ++ b1 := by
  rw [BitVec.append_def, BitVec.shiftLeftZeroExtend_eq, BitVec.setWidth'_eq]

/-- The word of four bytes is the four bytes side by side. -/
theorem wordOfBytes_eq_append (b0 b1 b2 b3 : Byte) : wordOfBytes b0 b1 b2 b3 = b0 ++ b1 ++ b2 ++ b3 := by
  have parts := bytesOfWord_wordOfBytes b0 b1 b2 b3
  generalize wordOfBytes b0 b1 b2 b3 = w at parts
  simp only [bytesOfWord, List.cons.injEq, and_true] at parts
  obtain ⟨rfl, rfl, rfl, rfl⟩ := parts
  have joined {k l : Nat} (n : Nat) (h : l = k + 8) :
      w.extractLsb' l n ++ w.extractLsb' k 8 = w.extractLsb' k (n + 8) :=
    BitVec.extractLsb'_append_extractLsb'_eq_extractLsb' h
  rw [joined 8 (by decide), joined 16 (by decide), joined 24 (by decide)]
  exact BitVec.extractLsb'_eq_self.symm

section Aligned

variable (aligned : s.RegionsAligned) {b0 b1 b2 b3 : Byte}

include aligned

/-- The byte `k` after the place of an access is the byte `k` after its address (20_memory.md R59). -/
theorem placeByte_of_byteAt {w : Width} {p : Place} (access : s.access a w = .ok p) {k : Nat} (hk : k < w.bytes)
    {b : Byte} (h : s.byteAt (a + BitVec.ofNat 32 k) = some b) : s.placeByte p k = b :=
  Option.some.inj ((byteAt_access aligned access hk).symm.trans h)

theorem readHalf_of_byteAt (ha : a.toNat % 2 = 0) (h0 : s.byteAt a = some b0) (h1 : s.byteAt (a + 1#32) = some b1) :
    s.readHalf a = .ok (b0 ++ b1) := by
  obtain ⟨p, access, rfl⟩ := access_of_byteAt (w := .half) ha h0
  rw [State.readHalf, access, ← placeByte_of_byteAt aligned access (k := 1) (by decide) h1]
  exact congrArg Except.ok (halfOfBytes_eq_append _ _)

theorem readWord_of_byteAt (ha : a.toNat % 4 = 0) (h0 : s.byteAt a = some b0) (h1 : s.byteAt (a + 1#32) = some b1)
    (h2 : s.byteAt (a + 2#32) = some b2) (h3 : s.byteAt (a + 3#32) = some b3) :
    s.readWord a = .ok (b0 ++ b1 ++ b2 ++ b3) := by
  obtain ⟨p, access, rfl⟩ := access_of_byteAt (w := .word) ha h0
  rw [State.readWord, access, ← placeByte_of_byteAt aligned access (k := 1) (by decide) h1,
    ← placeByte_of_byteAt aligned access (k := 2) (by decide) h2,
    ← placeByte_of_byteAt aligned access (k := 3) (by decide) h3]
  exact congrArg Except.ok (wordOfBytes_eq_append _ _ _ _)

end Aligned

/-! ## Big-endian values -/

theorem toInt_append_byte {n : Nat} (x : BitVec (n + 1)) (b : Byte) : (x ++ b).toInt = x.toInt * 2 ^ 8 + b.toNat := by
  simp [BitVec.toInt_append, Int.mul_comm]

theorem toNat_append_byte {n : Nat} (x : BitVec n) (b : Byte) : (x ++ b).toNat = x.toNat * 2 ^ 8 + b.toNat := by
  rw [BitVec.toNat_append, Nat.shiftLeft_eq, Nat.mul_comm, Nat.two_pow_add_eq_or_of_lt b.isLt]

/-- A sign-extended halfword is its signed high byte over its low byte (44_load_store.md R188). -/
theorem signExtend_half (b0 b1 : Byte) :
    (b0 ++ b1).signExtend 64 = BitVec.ofInt 64 (b0.toInt * 256 + b1.toNat) :=
  congrArg (BitVec.ofInt 64) (toInt_append_byte b0 b1)

/-- A zero-extended halfword is its high byte over its low byte (44_load_store.md R189). -/
theorem setWidth_half (b0 b1 : Byte) :
    (b0 ++ b1).setWidth 64 = BitVec.ofNat 64 (b0.toNat * 256 + b1.toNat) :=
  (BitVec.ofNat_toNat 64 (b0 ++ b1)).symm.trans (congrArg (BitVec.ofNat 64) (toNat_append_byte b0 b1))

/-- A sign-extended word is its signed highest byte over the three others (44_load_store.md R190). -/
theorem sext64_word (b0 b1 b2 b3 : Byte) :
    sext64 (b0 ++ b1 ++ b2 ++ b3) =
      BitVec.ofInt 64 (b0.toInt * 2 ^ 24 + b1.toNat * 2 ^ 16 + b2.toNat * 2 ^ 8 + b3.toNat) := by
  rw [sext64_eq_ofInt, toInt_append_byte, toInt_append_byte, toInt_append_byte]
  congr 1
  omega

/-! ## Reads that fail -/

section Failure

variable {f : Fault}

theorem readByte_of_access_error (h : s.access a .byte = .error f) : s.readByte a = .error f := by
  rw [State.readByte, h]

theorem readHalf_of_access_error (h : s.access a .half = .error f) : s.readHalf a = .error f := by
  rw [State.readHalf, h]

theorem readWord_of_access_error (h : s.access a .word = .error f) : s.readWord a = .error f := by
  rw [State.readWord, h]

end Failure

/-! ## The ends of a load -/

section Load

variable {α : Type} {x : Except Fault α} {extend : α → DWord} {r : Reg}

theorem loadResult_writes {u : α} {v : DWord} (hx : x = .ok u) (hv : extend u = v) :
    WritesRegister r v s (s.loadResult r (x.map extend)) := by
  rw [hx]
  exact writeResult_writes_eq hv

theorem loadResult_of_error {f : Fault} (hx : x = .error f) : s.loadResult r (x.map extend) = .fault f := by
  rw [hx]
  rfl

end Load

/-- Settles O28: the checks of a byte's access fail only where it is unmapped. -/
theorem loadBytes : Obligations.LoadBytes := by
  unfold Obligations.LoadBytes
  intro rt rs imm s b
  dsimp only
  rw [← effectiveAddr_eq_ofInt]
  refine ⟨encodedAs_registerAndImmediate rfl (by decide), encodedAs_registerAndImmediate rfl (by decide),
    fun mapped => ?_, fun unmapped => ?_⟩
  · have read := readByte_of_byteAt mapped
    exact ⟨loadResult_writes read rfl, loadResult_writes read (BitVec.ofNat_toNat 64 b).symm⟩
  · have fails := readByte_of_access_error (access_of_unmapped (Nat.mod_one _) unmapped)
    exact ⟨loadResult_of_error fails, loadResult_of_error fails⟩

/-- Settles O29: both bytes lie in the region of the first. -/
theorem loadHalves : Obligations.LoadHalves := by
  unfold Obligations.LoadHalves
  intro rt rs imm s b0 b1 aligned
  dsimp only
  rw [← effectiveAddr_eq_ofInt]
  refine ⟨encodedAs_registerAndImmediate rfl (by decide), encodedAs_registerAndImmediate rfl (by decide),
    fun even h0 h1 => ?_, fun odd => ?_, fun even unmapped => ?_⟩
  · have read := readHalf_of_byteAt aligned even h0 h1
    exact ⟨loadResult_writes read (signExtend_half b0 b1), loadResult_writes read (setWidth_half b0 b1)⟩
  · have fails := readHalf_of_access_error (access_misaligned (s := s) odd)
    exact ⟨loadResult_of_error fails, loadResult_of_error fails⟩
  · have fails := readHalf_of_access_error (access_of_unmapped even unmapped)
    exact ⟨loadResult_of_error fails, loadResult_of_error fails⟩

/-- Settles O30, as O29 with four bytes. -/
theorem loadWords : Obligations.LoadWords := by
  unfold Obligations.LoadWords
  intro rt rs imm s b0 b1 b2 b3 aligned
  dsimp only
  rw [← effectiveAddr_eq_ofInt]
  refine ⟨encodedAs_registerAndImmediate rfl (by decide), fun multiple h0 h1 h2 h3 => ?_, fun misaligned => ?_,
    fun multiple unmapped => ?_⟩
  · exact loadResult_writes (readWord_of_byteAt aligned multiple h0 h1 h2 h3) (sext64_word b0 b1 b2 b3)
  · exact loadResult_of_error (readWord_of_access_error (access_misaligned misaligned))
  · exact loadResult_of_error (readWord_of_access_error (access_of_unmapped multiple unmapped))

/-! ## The outcomes of a store -/

/-- A byte of a register's low word is the register's value shifted down, modulo 2^8. -/
theorem extractLsb'_low32 (v : DWord) (k : Nat) (hk : k + 8 ≤ 32) :
    (low32 v).extractLsb' k 8 = BitVec.ofNat 8 (v.toNat / 2 ^ k) := by
  rw [low32, BitVec.extractLsb'_setWidth_of_le hk, extractLsb'_eq_ofNat_div]

theorem storedBytes_byte_low32 (v : DWord) : storedBytes .byte (low32 v) = [BitVec.ofNat 8 v.toNat] := by
  simp [storedBytes, extractLsb'_low32]

theorem storedBytes_half_low32 (v : DWord) :
    storedBytes .half (low32 v) = [BitVec.ofNat 8 (v.toNat / 2 ^ 8), BitVec.ofNat 8 v.toNat] := by
  simp [storedBytes, extractLsb'_low32]

theorem storedBytes_word_low32 (v : DWord) :
    storedBytes .word (low32 v) = [BitVec.ofNat 8 (v.toNat / 2 ^ 24), BitVec.ofNat 8 (v.toNat / 2 ^ 16),
      BitVec.ofNat 8 (v.toNat / 2 ^ 8), BitVec.ofNat 8 v.toNat] := by
  simp [storedBytes, bytesOfWord, extractLsb'_low32]

theorem storeResult_of_error {w : Width} (v : Word) {f : Fault} (h : s.access a w = .error f) :
    s.storeResult a w v = .fault f := by
  rw [State.storeResult, State.memWrite, h]

/-- An aligned access that begins in RAM ends in it. -/
theorem access_end_le_ramSize {w : Width} (size : s.cfg.ramSize % w.bytes = 0) (ha : a.toNat % w.bytes = 0)
    (h : a.toNat < s.cfg.ramSize) : a.toNat + w.bytes ≤ s.cfg.ramSize := by
  cases w <;> simp only [Width.bytes] at * <;> omega

/-- The outcomes of a store: RAM, the cartridge, a misaligned address, an unmapped one (20_memory.md R53, R56, R58). -/
theorem storeResult_outcomes (w : Width) (size : s.cfg.ramSize % w.bytes = 0) (wf : s.ram.wf) {v : Word}
    {bytes : List Byte} (hb : storedBytes w v = bytes) :
    (a.toNat % w.bytes = 0 → a.toNat < s.cfg.ramSize → StoresBytes a bytes s (s.storeResult a w v)) ∧
    (a.toNat % w.bytes = 0 → InCartridge s a → ChangesNothing s (s.storeResult a w v)) ∧
    (a.toNat % w.bytes ≠ 0 → s.storeResult a w v = .fault (.alignmentError a)) ∧
    (a.toNat % w.bytes = 0 → s.byteAt a = none → s.storeResult a w v = .fault (.addressError a)) :=
  ⟨fun ha inRam => hb ▸ storeResult_ram wf v ha (access_end_le_ramSize size ha inRam), storeResult_rom v,
    fun ha => storeResult_of_error v (access_misaligned ha),
    fun ha unmapped => storeResult_of_error v (access_of_unmapped ha unmapped)⟩

/-- Settles O31: a byte's access is always aligned. -/
theorem storeBytes : Obligations.StoreBytes := by
  unfold Obligations.StoreBytes
  intro rt rs imm s wf
  obtain ⟨inRam, inCartridge, -, unmapped⟩ :=
    storeResult_outcomes (a := effectiveAddr (s.reg rs) imm) .byte (Nat.mod_one _) wf
      (storedBytes_byte_low32 (s.reg rt))
  exact ⟨encodedAs_registerAndImmediate rfl (by decide), effectiveAddr_eq_ofInt _ _, inRam (Nat.mod_one _),
    inCartridge (Nat.mod_one _), unmapped (Nat.mod_one _)⟩

/-- Settles O32: the outcomes of a store of two bytes. -/
theorem storeHalves : Obligations.StoreHalves := by
  unfold Obligations.StoreHalves
  intro rt rs imm s aligned wf
  have size : s.cfg.ramSize % 2 = 0 := by have := aligned.ramAligned; omega
  exact ⟨encodedAs_registerAndImmediate rfl (by decide), effectiveAddr_eq_ofInt _ _,
    storeResult_outcomes .half size wf (storedBytes_half_low32 (s.reg rt))⟩

/-- Settles O33: the outcomes of a store of four bytes. -/
theorem storeWords : Obligations.StoreWords := by
  unfold Obligations.StoreWords
  intro rt rs imm s aligned wf
  exact ⟨encodedAs_registerAndImmediate rfl (by decide), effectiveAddr_eq_ofInt _ _,
    storeResult_outcomes .word aligned.ramAligned wf (storedBytes_word_low32 (s.reg rt))⟩

end Sys2Proof.Machine
end

