-- ==== Sys2Proof/Proofs/Coprocessor0.lean ====
section
/-! SUPPORT. System control (45_coprocessor0.md R202 to R206): the bits that MTC0 and ERET write, the CP0 registers by
number, and the answers of MFC0, MTC0 and ERET. -/

namespace Sys2Proof.Machine

variable {s t : State}

/-! ## The bits written -/

/-- A word's bits are told by a predicate that agrees with them below 32 and is false from there up. -/
theorem getLsbD_eq_of_lt {w : Word} {p : Nat → Bool} (inside : ∀ k < 32, w.getLsbD k = p k)
    (outside : ∀ k ≥ 32, p k = false) (k : Nat) : w.getLsbD k = p k := by
  obtain h | h := Nat.lt_or_ge k 32
  · exact inside k h
  · rw [BitVec.getLsbD_of_ge w k h, outside k h]

/-- The bits of Status that MTC0 writes: IE, EXL and IM (10_state.md R31). -/
theorem getLsbD_statusMask (k : Nat) :
    (0x0000FF03#32).getLsbD k = (k == 0 || k == 1 || (decide (8 ≤ k) && decide (k ≤ 15))) :=
  getLsbD_eq_of_lt (p := fun k => k == 0 || k == 1 || (decide (8 ≤ k) && decide (k ≤ 15))) (by decide)
    (fun _ _ => by simp; omega) k

/-- The bits of Cause that MTC0 writes: IP (10_state.md R32). -/
theorem getLsbD_causeMask (k : Nat) : (0x0000FF00#32).getLsbD k = decide (8 ≤ k ∧ k ≤ 15) :=
  getLsbD_eq_of_lt (p := fun k => decide (8 ≤ k ∧ k ≤ 15)) (by decide) (fun _ _ => by simp; omega) k

/-- The bit of Status that ERET clears (10_state.md R31). -/
theorem getLsbD_exlMask (k : Nat) : (0x00000002#32).getLsbD k = decide (k = 1) :=
  getLsbD_eq_of_lt (p := fun k => decide (k = 1)) (by decide) (fun _ _ => by simp; omega) k

theorem getLsbD_mtc0Status (v : Word) (k : Nat) :
    (mtc0Status v).getLsbD k = (v.getLsbD k && (k == 0 || k == 1 || (decide (8 ≤ k) && decide (k ≤ 15)))) := by
  rw [mtc0Status, BitVec.getLsbD_and, getLsbD_statusMask]

theorem getLsbD_mtc0Cause (cause v : Word) (k : Nat) :
    (mtc0Cause cause v).getLsbD k = if 8 ≤ k ∧ k ≤ 15 then v.getLsbD k else cause.getLsbD k := by
  rw [mtc0Cause, getLsbD_withField, getLsbD_causeMask]
  simp only [decide_eq_true_eq]

theorem getLsbD_clearEXL (status : Word) (k : Nat) :
    (clearEXL status).getLsbD k = if k = 1 then false else status.getLsbD k := by
  rw [clearEXL, getLsbD_withField, getLsbD_exlMask]
  simp only [decide_eq_true_eq, BitVec.getLsbD_zero]

/-! ## The registers by number -/

theorem cp0Read_absent {n : Reg} (h12 : n ≠ 12) (h13 : n ≠ 13) (h14 : n ≠ 14) : s.cp0Read n = none := by
  unfold State.cp0Read
  split <;> trivial

theorem cp0Write_absent {n : Reg} (v : Word) (h12 : n ≠ 12) (h13 : n ≠ 13) (h14 : n ≠ 14) :
    s.cp0Write n v = none := by
  unfold State.cp0Write
  split <;> trivial

/-! ## MFC0 and MTC0 -/

theorem exec_mfc0_of_cp0Read (rt : Reg) {n : Reg} {w : Word} (h : s.cp0Read n = some w) :
    exec (.mfc0 rt n) s = s.writeResult rt (sext64 w) := by
  show execMfc0 rt n s = _
  rw [execMfc0, h]

theorem exec_mfc0_of_absent (rt : Reg) {n : Reg} (h : s.cp0Read n = none) :
    exec (.mfc0 rt n) s = s.unsupportedWord (encode (.mfc0 rt n)) := by
  show execMfc0 rt n s = _
  rw [execMfc0, h]

theorem exec_mtc0_of_cp0Write {rt n : Reg} (h : s.cp0Write n (s.low rt) = some t) :
    exec (.mtc0 rt n) s = .next t.finish := by
  show execMtc0 rt n s = _
  rw [execMtc0, h]

theorem exec_mtc0_of_absent {rt n : Reg} (h : s.cp0Write n (s.low rt) = none) :
    exec (.mtc0 rt n) s = s.unsupportedWord (encode (.mtc0 rt n)) := by
  show execMtc0 rt n s = _
  rw [execMtc0, h]

/-- Whichever CP0 register MTC0 writes, nothing outside CP0 changes but control. -/
theorem finish_cp0Write_frame {n : Reg} {v : Word} (h : s.cp0Write n v = some t) :
    RegsSame s t.finish ∧ MemorySame s t.finish ∧ RestSame s t.finish ∧ EndsPlain s t.finish := by
  obtain rfl | rfl | rfl := cp0Write_cases h <;> exact ⟨fun _ => rfl, fun _ => rfl, .refl s, rfl, rfl⟩

/-- A move between a register and CP0 has all its bits but those of rt and rd fixed (30_encoding.md R88). -/
theorem encodedAs_cp0Move {i : Instr} {sub rt rd : Reg} {pattern : Word} (hi : encode i = encodeC0 sub rt rd)
    (hp : encodeC0 sub 0 0 = pattern) : EncodedAs i 0xFFE007FF pattern :=
  encodedAs_of_fixedBits (hi ▸ (encodeC0_mask_FFE007FF ..).trans hp)

/-- Settles O35: each of the three numbers reads its register, and the read is written sign-extended. -/
theorem mfc0ReadsCp0 : Obligations.Mfc0ReadsCp0 := by
  unfold Obligations.Mfc0ReadsCp0
  intro rt rd s
  have reads {n : Reg} {w : Word} (h : s.cp0Read n = some w) :
      WritesRegister rt (BitVec.ofInt 64 w.toInt) s (exec (.mfc0 rt n) s) :=
    exec_mfc0_of_cp0Read rt h ▸ writeResult_writes_eq (sext64_eq_ofInt w)
  exact ⟨encodedAs_cp0Move rfl (by decide), reads rfl, reads rfl, reads rfl⟩

/-- Settles O36: each of the three numbers writes its register under its mask, and all three share one frame. -/
theorem mtc0WritesCp0 : Obligations.Mtc0WritesCp0 := by
  unfold Obligations.Mtc0WritesCp0
  intro rt rd s
  exact ⟨encodedAs_cp0Move rfl (by decide),
    ⟨_, exec_mtc0_of_cp0Write rfl, getLsbD_mtc0Status _, rfl, rfl, finish_cp0Write_frame (n := 12) rfl⟩,
    ⟨_, exec_mtc0_of_cp0Write rfl, getLsbD_mtc0Cause _ _, rfl, rfl, finish_cp0Write_frame (n := 13) rfl⟩,
    ⟨_, exec_mtc0_of_cp0Write rfl, rfl, rfl, rfl, finish_cp0Write_frame (n := 14) rfl⟩⟩

/-- Settles O37: an absent number makes the instruction an unsupported word, as in O44. -/
theorem absentCp0RegistersAreUnsupported : Obligations.AbsentCp0RegistersAreUnsupported := by
  unfold Obligations.AbsentCp0RegistersAreUnsupported
  intro rt n s h12 h13 h14
  rw [exec_mfc0_of_absent rt (cp0Read_absent h12 h13 h14), exec_mtc0_of_absent (cp0Write_absent _ h12 h13 h14)]
  exact ⟨fun strict => ⟨unsupportedWord_strict _ strict, unsupportedWord_strict _ strict⟩,
    fun permissive => ⟨unsupportedWord_loggedNoOp _ permissive, unsupportedWord_loggedNoOp _ permissive⟩⟩

/-! ## ERET -/

theorem exec_eret (noSlot : s.delay = .none) : exec .eret s = s.trapReturn := control_of_none _ _ noSlot

/-- Settles O38: outside a slot only the check of EPC's alignment stands before the return. -/
theorem eretReturnsOrHalts : Obligations.EretReturnsOrHalts := by
  unfold Obligations.EretReturnsOrHalts
  refine fun s => ⟨rfl, decode_encode .eret, fun noSlot aligned => ?_, fun noSlot misaligned => ?_, control_of_slot _ _⟩
  · exact ⟨_, (exec_eret noSlot).trans (alignedTarget_of_aligned _ aligned), rfl, rfl, getLsbD_clearEXL _, rfl, rfl,
      fun _ => rfl, fun _ => rfl, .refl s⟩
  · exact (exec_eret noSlot).trans (alignedTarget_of_misaligned _ misaligned)

end Sys2Proof.Machine
end

