-- ==== Sys2Proof/Proofs/Exceptions.lean ====
section
/-! SUPPORT. Exceptions (60_exceptions.md R214 to R224): the bits of Status and Cause that trap entry and a completed task
write, the return from a trap, and RAM after a task. -/

namespace Sys2Proof.Machine

variable {s : State}

/-! ## The bits written -/

/-- The bits of Cause.ExcCode (10_state.md R32). -/
theorem getLsbD_excCodeMask (k : Nat) : (0x0000007C#32).getLsbD k = decide (2 ≤ k ∧ k ≤ 6) :=
  getLsbD_eq_of_lt (p := fun k => decide (2 ≤ k ∧ k ≤ 6)) (by decide) (fun _ _ => by simp; omega) k

/-- The bit of Cause.BD (10_state.md R32). -/
theorem getLsbD_bdMask (k : Nat) : (0x80000000#32).getLsbD k = decide (k = 31) :=
  getLsbD_eq_of_lt (p := fun k => decide (k = 31)) (by decide) (fun _ _ => by simp; omega) k

/-- The bit of Cause.IP[2] (60_exceptions.md R224). -/
theorem getLsbD_ip2Mask (k : Nat) : (0x00000400#32).getLsbD k = (k == 10) :=
  getLsbD_eq_of_lt (p := (· == 10)) (by decide) (fun _ _ => by simp; omega) k

theorem getLsbD_setEXL_of_ne (status : Word) {k : Nat} (h : k ≠ 1) :
    (setEXL status).getLsbD k = status.getLsbD k := by
  rw [setEXL, getLsbD_withField, getLsbD_exlMask, if_neg (by simpa using h)]

theorem getLsbD_setExcCode_of_outside (cause : Word) (code : BitVec 5) {k : Nat} (h : ¬(2 ≤ k ∧ k ≤ 6)) :
    (setExcCode cause code).getLsbD k = cause.getLsbD k := by
  rw [setExcCode, getLsbD_withField, getLsbD_excCodeMask, if_neg (by simpa using h)]

theorem getLsbD_setBD_of_ne (cause : Word) (b : Bool) {k : Nat} (h : k ≠ 31) :
    (setBD cause b).getLsbD k = cause.getLsbD k := by
  rw [setBD, getLsbD_withField, getLsbD_bdMask, if_neg (by simpa using h)]

theorem getLsbD_setIP2 (cause : Word) (k : Nat) : (setIP2 cause).getLsbD k = (cause.getLsbD k || k == 10) := by
  rw [setIP2, getLsbD_withField, getLsbD_ip2Mask]
  cases k == 10 <;> simp

/-- ERET's write of Status undoes that of a trap taken with EXL 0. -/
theorem clearEXL_setEXL {status : Word} (exl : statusEXL status = false) : clearEXL (setEXL status) = status := by
  apply BitVec.eq_of_getLsbD_eq
  intro k _
  rw [getLsbD_clearEXL]
  split
  next h => exact h ▸ exl.symm
  next h => exact getLsbD_setEXL_of_ne status h

/-! ## Trap entry and return -/

/-- Outside ExcCode and BD a trap entry keeps Cause. -/
theorem getLsbD_trapEntry_cause (code : BitVec 5) (resume : Addr) (inDS : Bool) {k : Nat} (bd : k ≠ 31)
    (excCode : ¬(2 ≤ k ∧ k ≤ 6)) : (s.trapEntry code resume inDS).cause.getLsbD k = s.cause.getLsbD k := by
  rw [State.trapEntry_cause, getLsbD_setExcCode_of_outside _ _ excCode]
  split
  · rfl
  · exact getLsbD_setBD_of_ne _ _ bd

/-- Settles O40: what depends on EXL is read with EXL known, and the fields trap entry writes are told bit by bit. -/
theorem trapEntrySavesAndRedirects : Obligations.TrapEntrySavesAndRedirects := by
  unfold Obligations.TrapEntrySavesAndRedirects
  intro s code resume inDS
  refine ⟨fun exl => ?clear, fun exl => ?set, ?excCode, statusEXL_setEXL _, rfl, rfl,
    fun _ => getLsbD_setEXL_of_ne _, fun _ => getLsbD_trapEntry_cause code resume inDS,
    fun _ => rfl, fun _ => rfl, .refl s⟩
  case clear | set => simp [exl]
  case excCode => exact causeExcCode_setExcCode _ code

/-- Settles O41: EPC holds the old pc, and clearing EXL undoes the entry's write of Status. -/
theorem trapThenEretReturns : Obligations.TrapThenEretReturns := by
  unfold Obligations.TrapThenEretReturns
  intro s code exl aligned
  have epc : (s.trapEntry code s.pc false).epc = s.pc := by simp [exl]
  exact ⟨_, (exec_eret rfl).trans (alignedTarget_of_aligned _ (by rwa [epc])), epc, rfl, clearEXL_setEXL exl,
    fun _ => rfl, fun _ => rfl, .refl s⟩

/-! ## The signal coprocessor's task -/

/-- A completed task leaves READY 0, whatever the task wrote there (60_exceptions.md R223). -/
theorem mailboxWord_completeTask (w : s.ram.wf) (task : SpTask) : (s.completeTask task).mailboxWord 0 = 0 :=
  Memory.readWord_writeBytes (wf_spWrites w _) _ 0

/-- Outside READY a completed task leaves RAM as its writes do. -/
theorem read_completeTask_ram (w : s.ram.wf) (task : SpTask) {o : Nat}
    (h : o < s.cfg.mailboxAddr.toNat ∨ s.cfg.mailboxAddr.toNat + 4 ≤ o) :
    (s.completeTask task).ram.read o = (spWrites s.cfg.ramSize s.ram task.ramWrites).read o := by
  rw [State.completeTask_ram, Memory.read_writeBytes (wf_spWrites w _), length_bytesOfWord, if_neg (by omega)]

theorem wf_completeTask_ram (w : s.ram.wf) (task : SpTask) : (s.completeTask task).ram.wf :=
  Memory.wf_writeBytes (wf_spWrites w _) _ _

theorem below_completeTask_ram (task : SpTask) (below : s.ram.below s.cfg.ramSize)
    (mailbox : s.cfg.mailboxAddr.toNat + 4 ≤ s.cfg.ramSize) : (s.completeTask task).ram.below s.cfg.ramSize :=
  Memory.below_writeBytes (below_spWrites below _) mailbox

/-- Settles O48: the phase does nothing or completes one task, whose effects are those above and one write a field. -/
theorem signalCoprocessorPhase : Obligations.SignalCoprocessorPhase := by
  unfold Obligations.SignalCoprocessorPhase
  intro process s w
  dsimp only
  obtain ⟨idle, e⟩ | ⟨ready, e⟩ := spStepWith_cases (s := s) process <;> rw [e]
  · exact ⟨fun _ => rfl, fun ready => absurd idle ready⟩
  · exact ⟨fun idle => absurd idle ready, fun _ =>
      ⟨mailboxWord_completeTask w _, getLsbD_setIP2 _, fun _ => read_completeTask_ram w _, rfl, rfl,
        Bool.or_eq_true_iff, rfl, rfl, wf_completeTask_ram w _, below_completeTask_ram _, fun _ => rfl, rfl, rfl, rfl,
        rfl, .refl _⟩⟩

end Sys2Proof.Machine
end

/-! SUPPORT. The turns of the StepLoop (80_step_loop_and_snapshot.md R260 to R268, R271), the host's requests (R264, R274;
70_reset_and_hazards.md R240), the state at construction (R241), and the snapshot's bytes read back (R275 to R283). -/

namespace Sys2Proof.Machine

variable {s t : State}

/-! ## The turns of the phases -/

/-- The processor's step changes nothing of the machine but the processor, RAM and outputs
(40_execution_cycle.md R104, R107). -/
theorem processorStep_restSame (e : processorStep s = .next t) : RestSame { s with outputs := t.outputs } t := by
  obtain rfl | ⟨w, rfl⟩ | ⟨i, e⟩ := processorStep_next e
  · exact .refl _
  · exact .refl _
  · exact (exec_logsAtMost e).1

/-- Counting a step changes the phase only. -/
theorem countStep_eq : s.countStep = { s with phase := s.countStep.phase } := by
  unfold State.countStep; split <;> rfl

/-- Away from a boundary the turn of the phase comes next, whatever requests are held (R271). -/
theorem step_of_midMacroStep (hc : s.cfg.wellFormed = true) (run : s.loop = .running) (mid : s.phase ≠ .processor 0) :
    step s = s.macroStepTurn := by
  have inside : s.atBoundary = false := by simp [State.atBoundary, run, mid]
  rw [step_of_goodConfiguration hc, State.turn, inside, if_neg Bool.false_ne_true, State.loopTurn, run]

/-- Settles O47: the processor's turn counts its step, and each later phase names the one that follows it. -/
theorem macroStepPhasesInOrder : Obligations.MacroStepPhasesInOrder := by
  unfold Obligations.MacroStepPhasesInOrder
  intro s hc run
  refine ⟨fun k t turn e => ⟨_, step_of_processorNext turn e, countStep_eq, ?counted⟩, fun hp => ?signal,
    fun hp => ?display, fun hp => ?collaborators⟩
  case counted =>
    obtain ⟨cfg, -, -, -, -, -, -, -, phase, -⟩ := processorStep_restSame e
    rw [countStep_phase (phase.trans turn.turn), cfg]
  case signal | display | collaborators =>
    rw [step_of_midMacroStep hc run (by simp [hp]), State.macroStepTurn, hp]

/-! ## Held requests -/

/-- At a boundary the first held request comes before anything else (R271). -/
theorem step_of_heldRequest (hc : s.cfg.wellFormed = true) {r : HostRequest} {rest : List HostRequest}
    (held : s.requests = r :: rest) (boundary : s.loop ≠ .running ∨ s.phase = .processor 0) :
    step s = .next (({ s with requests := rest } : State).applyRequest r) := by
  have hb : s.atBoundary = true := by simpa [State.atBoundary] using boundary
  rw [step_of_goodConfiguration hc, State.turn, if_pos hb, held]

theorem processorTurn_requests (e : s.processorTurn = .next t) : t.requests = s.requests := by
  unfold State.processorTurn at e
  split at e
  next u hu =>
    cases e
    obtain ⟨-, -, -, -, -, -, -, -, -, requests, -⟩ := processorStep_restSame hu
    exact (State.countStep_requests u).trans requests
  next => cases e; rfl
  next => cases e

theorem spStep_requests : s.spStep.requests = s.requests := by
  obtain ⟨-, e⟩ | ⟨-, e⟩ := spStepWith_cases (s := s) Config.spProcess <;> rw [State.spStep, e]
  rfl

theorem renderIfReady_requests : s.renderIfReady.requests = s.requests := by
  obtain e | ⟨frame, e⟩ := renderIfReady_cases (s := s) <;> rw [e]
  rfl

theorem yieldPhase_requests : s.yieldPhase.requests = s.requests := by
  unfold State.yieldPhase; split <;> rfl

theorem macroStepTurn_requests (e : s.macroStepTurn = .next t) : t.requests = s.requests := by
  unfold State.macroStepTurn at e
  split at e
  next => exact processorTurn_requests e
  next => cases e; exact spStep_requests
  next => cases e; exact renderIfReady_requests
  next => cases e; exact yieldPhase_requests

/-- Settles O50: at a boundary the held request is the turn, and elsewhere no phase touches the requests. -/
theorem requestsActOnlyAtBoundaries : Obligations.RequestsActOnlyAtBoundaries := by
  unfold Obligations.RequestsActOnlyAtBoundaries
  refine fun s hc => ⟨fun r rest held boundary => step_of_heldRequest hc held boundary, fun t run mid e => ?_⟩
  rw [step_of_midMacroStep hc run mid] at e
  exact macroStepTurn_requests e

/-! ## The display coprocessor and the yield -/

theorem length_fitPixels (n : Nat) (pixels : List Byte) : (fitPixels n pixels).length = n := by
  simp [fitPixels]

theorem fitPixels_of_length {n : Nat} {pixels : List Byte} (h : pixels.length = n) : fitPixels n pixels = pixels :=
  List.take_left' h

theorem renderWith_of_idle (render : DpRender) (idle : s.dp.pending = false) : s.renderWith render = s := by
  simp [State.renderWith, idle]

theorem renderWith_of_pending (render : DpRender) (pending : s.dp.pending = true) :
    s.renderWith render = s.takeFrame (render s.dp.pending s.dp.pixels s.dp.image s.ram.cells) :=
  if_pos pending

/-- The yield writes nothing but the records and the provider's list (R262). -/
theorem yieldPhase_eq : s.yieldPhase = { s with ctrl := s.yieldPhase.ctrl, inputs := s.yieldPhase.inputs } := by
  unfold State.yieldPhase; split <;> rfl

theorem length_yieldPhase_ctrl : s.yieldPhase.ctrl.length = s.ctrl.length := by
  unfold State.yieldPhase
  split
  · rfl
  · exact length_overwriteControllers _ _

theorem yieldPhase_of_given {given : List Controller} {rest : List (List Controller)} (h : s.inputs = given :: rest) :
    s.yieldPhase = { s with ctrl := overwriteControllers s.ctrl given, inputs := rest } := by
  rw [State.yieldPhase, h]

/-- Settles O49: a render takes its frame or nothing, and a yield overwrites the records one by one. -/
theorem displayAndYieldPhases : Obligations.DisplayAndYieldPhases := by
  unfold Obligations.DisplayAndYieldPhases
  intro render s
  refine ⟨renderWith_of_idle render, fun pending => ?taken, yieldPhase_eq, length_yieldPhase_ctrl,
    fun given rest k h hk => ?given⟩
  case taken =>
    rw [renderWith_of_pending render pending]
    exact ⟨rfl, length_fitPixels _ _, fitPixels_of_length, rfl, rfl⟩
  case given =>
    rw [yieldPhase_of_given h]
    exact ⟨rfl, getElem?_overwriteControllers s.ctrl given hk⟩

/-! ## The StepLoop's transitions -/

/-- At rest with no request held nothing happens (R265; log 9). -/
theorem step_of_rest (hc : s.cfg.wellFormed = true) (rest : s.loop ≠ .running) (noRequest : s.requests = []) :
    step s = .next s := by
  have idle : s.loopTurn = .next s := by
    unfold State.loopTurn
    split
    next run => exact absurd run rest
    next => rfl
  have hb : s.atBoundary = true := by simp [State.atBoundary, rest]
  rw [step_of_goodConfiguration hc, State.turn, if_pos hb, noRequest, idle]

/-- Settles O51: each request in each of the loop's three states, and the idle turn. -/
theorem loopTransitions : Obligations.LoopTransitions := by
  unfold Obligations.LoopTransitions
  refine fun s => ⟨?start, ?pause, ?resume, ?stop, step_of_rest⟩
  case start => cases h : s.loop <;> simp [State.applyRequest, State.start, h]
  case pause => cases h : s.loop <;> simp [State.applyRequest, State.pause, h]
  case resume => cases h : s.loop <;> simp [State.applyRequest, State.resume, h]
  case stop => cases h : s.loop <;> simp [State.applyRequest, State.stop, h]

/-! ## Reset and construction -/

/-- Above RAM a byte depends on the cartridge only. -/
theorem byteAt_congr_above_ram {a : Addr} (above : s.cfg.ramSize ≤ a.toNat) (hc : t.cfg = s.cfg) (hr : t.rom = s.rom)
    (hs : t.romSize = s.romSize) : t.byteAt a = s.byteAt a := by
  unfold State.byteAt
  rw [State.place_congr hc hs]
  cases hp : s.place a with
  | none => rfl
  | some p =>
    cases p with
    | ram o => exact absurd ((place_ram_iff a o).1 hp).1 (by omega)
    | rom o => simp [State.placeByte, hr]

/-- Settles O52: the fields reset writes, RAM read as zeros below RAM_SIZE and the cartridge read as before above it. -/
theorem resetRequestResetsTheMachine : Obligations.ResetRequestResetsTheMachine := by
  unfold Obligations.ResetRequestResetsTheMachine
  intro s
  exact ⟨reg_of_regs_replicate rfl, rfl, rfl, rfl, rfl, rfl, fun a => byteAt_of_ram (s := s.applyRequest .reset),
    fun a above => byteAt_congr_above_ram above rfl rfl rfl, rfl, rfl, rfl, rfl, rfl, rfl, rfl, rfl, rfl, rfl⟩

theorem Inv_construct {c : Config} (hc : c.wellFormed = true) : (State.construct c).Inv where
  cfgOk := hc
  slotZero := by simp [State.construct]
  regsSext r := by
    rw [State.low, reg_of_regs_replicate rfl r]; decide
  pcAligned := entryVector_aligned hc
  delayAligned := nofun
  statusBits := BitVec.zero_and
  causeBits := BitVec.zero_and
  excCode := .inl (by simp [State.construct, causeExcCode, excInt])
  ramWf := Memory.wf_zero
  ramBelow := Memory.below_zero _
  romWf := Memory.wf_zero
  romBelow := Memory.below_zero _
  romAligned := rfl
  romFits := Nat.le_of_lt c.cartridgeBase.isLt
  spOk := by simp [State.construct, Config.spImageOk]
  dpOk := by simp [State.construct, DpState.reset, Config.dpImageOk]
  pixelsFit := List.length_replicate
  ctrlFit := List.length_replicate
  phaseOk k hk := by
    obtain ⟨-, -, -, -, -, -, budget⟩ := wellFormed_facts hc
    cases hk
    exact budget
  restsAtBoundary _ := rfl

theorem Inv_issue (h : s.Inv) (r : HostRequest) : (s.issue r).Inv := { h with }

theorem Inv_provideInput (h : s.Inv) (records : List Controller) : (s.provideInput records).Inv := { h with }

/-- Settles O58: State.reset is the construction under the default configuration, and what arrives stands in lists the
invariant does not read. -/
theorem invariantHoldsAtConstruction : Obligations.InvariantHoldsAtConstruction := by
  unfold Obligations.InvariantHoldsAtConstruction
  exact ⟨fun c => Inv_construct, Inv_construct (by decide), fun s r h => Inv_issue h r,
    fun s records h => Inv_provideInput h records⟩

/-! ## Cheats -/

/-- Settles O54: a good cheat writes the word's four bytes to RAM, and any other gets its reply only. -/
theorem cheatWritesOneRamWord : Obligations.CheatWritesOneRamWord := by
  unfold Obligations.CheatWritesOneRamWord
  intro s address value w
  refine ⟨fun aligned inside => ?good, fun bad => ?bad⟩
  case good =>
    rw [State.applyRequest, applyCheat_of_ok ((cheatOk_iff s.cfg address).2 ⟨aligned, inside⟩)]
    refine ⟨readWord_writeRam w value aligned (by omega), fun b outside => ?_, rfl⟩
    refine (byteAt_ramWrite w address.toNat (bytesOfWord value) b).trans (if_neg ?_)
    rw [length_bytesOfWord]
    omega
  case bad =>
    exact applyCheat_of_bad (Bool.eq_false_iff.2 fun ok => bad ((cheatOk_iff s.cfg address).1 ok))

/-! ## Save, then load -/

/-- What a state's own snapshot sets, with the display coprocessor as read. -/
def State.ownImage (s : State) (dp : DpState) : SnapshotImage where
  cpu := { regs := s.regList, pc := s.pc, delay := s.delay, status := s.status, cause := s.cause, epc := s.epc }
  sp := s.sp
  dp := dp
  ram := s.ram
  ctrl := s.ctrl

/-- Applying it changes the display coprocessor at most. -/
theorem applySnapshot_ownImage (h : s.Inv) (dp : DpState) : s.applySnapshot (s.ownImage dp) = { s with dp := dp } := by
  rw [State.applySnapshot, State.ownImage, regsOfList_regList h.slotZero]

/-- Settles O55: a snapshot reads back as the image of the state saved. -/
theorem saveThenLoadRestoresTheState : Obligations.SaveThenLoadRestoresTheState := by
  unfold Obligations.SaveThenLoadRestoresTheState
  refine fun s includePixels => ⟨rfl, fun h fits => ?_⟩
  rw [State.loadSnapshot, parseSnapshot_snapshot h fits, Option.map_some]
  refine congrArg some ((applySnapshot_ownImage h _).trans ?_)
  cases includePixels <;> rfl

/-! ## A stream that loads -/

/-- The bytes of a snapshot with five given payloads (R278). -/
def snapshotOf (c : Config) (cpu sp dp ram ctrl : List Byte) : List Byte :=
  bytesOfWord snapshotMagic ++ bytesOfWord c.snapshotVersion ++ bytesOfWord 5 ++
    sectionBytes 1 cpu ++ sectionBytes 2 sp ++ sectionBytes 3 dp ++ sectionBytes 4 ram ++ sectionBytes 5 ctrl

theorem snapshot_eq_snapshotOf (b : Bool) :
    s.snapshot b = snapshotOf s.cfg s.cpuPayload s.sp.image (s.dpPayload b) (s.ram.readBytes 0 s.cfg.ramSize)
      s.ctrlPayload := rfl

/-- Five sections that pass stand one behind the other, with nothing after them (checks 2 to 7 of R280). -/
theorem eq_of_parseSections {c : Config} {bs : List Byte} {i : SnapshotImage} (h : parseSections c bs = some i) :
    ∃ p1 p2 p3 p4 p5,
      bs = sectionBytes 1 p1 ++ (sectionBytes 2 p2 ++ (sectionBytes 3 p3 ++ (sectionBytes 4 p4 ++ sectionBytes 5 p5))) ∧
      parseCpu p1 = some i.cpu ∧ parseSp p2 = some i.sp ∧ parseDp c p3 = some i.dp ∧
      parseRam c p4 = some i.ram ∧ parseCtrl c p5 = some i.ctrl := by
  simp only [parseSections, Option.bind_eq_some_iff] at h
  obtain ⟨s1, h1, s2, h2, s3, h3, s4, h4, s5, h5, h⟩ := h
  split at h
  next nothingAfter =>
    simp only [Option.bind_eq_some_iff, Option.map_eq_some_iff] at h
    obtain ⟨cpu, hcpu, sp, hsp, dp, hdp, ram, hram, ctrl, hctrl, rfl⟩ := h
    refine ⟨s1.1, s2.1, s3.1, s4.1, s5.1, ?_, hcpu, hsp, hdp, hram, hctrl⟩
    rw [eq_of_takeSection h1, eq_of_takeSection h2, eq_of_takeSection h3, eq_of_takeSection h4, eq_of_takeSection h5,
      nothingAfter, List.append_nil]
  next => cases h

/-- A stream that passes is the header and five sections that pass. -/
theorem eq_of_parseSnapshot {c : Config} {stream : List Byte} {i : SnapshotImage}
    (h : parseSnapshot c stream = some i) :
    ∃ p1 p2 p3 p4 p5, stream = snapshotOf c p1 p2 p3 p4 p5 ∧
      parseCpu p1 = some i.cpu ∧ parseSp p2 = some i.sp ∧ parseDp c p3 = some i.dp ∧
      parseRam c p4 = some i.ram ∧ parseCtrl c p5 = some i.ctrl := by
  simp only [parseSnapshot, Option.bind_eq_some_iff] at h
  obtain ⟨magic, h1, version, h2, count, h3, h⟩ := h
  split at h
  next header =>
    obtain ⟨hmagic, hversion, hcount⟩ := header
    obtain ⟨p1, p2, p3, p4, p5, e, parsed⟩ := eq_of_parseSections h
    refine ⟨p1, p2, p3, p4, p5, ?_, parsed⟩
    rw [eq_of_takeWord h1, eq_of_takeWord h2, eq_of_takeWord h3, hmagic, hversion, hcount, e, snapshotOf]
    simp only [List.append_assoc]
  next => cases h

/-- A stream that loads is one of the two snapshots of the state it gives (R278 to R281). -/
theorem eq_snapshot_of_parseSnapshot {stream : List Byte} {i : SnapshotImage} (h : parseSnapshot s.cfg stream = some i) :
    ∃ includePixels, stream = (s.applySnapshot i).snapshot includePixels := by
  obtain ⟨p1, p2, p3, p4, p5, e, cpu, sp, dp, ram, ctrl⟩ := eq_of_parseSnapshot h
  obtain ⟨includePixels, edp⟩ := eq_of_parseDp (s := s.applySnapshot i) (by simpa using dp)
  refine ⟨includePixels, ?_⟩
  have ecpu : p1 = (s.applySnapshot i).cpuPayload := eq_of_parseCpu cpu (by simp) (by simp) (by simp) (by simp)
    (by simp) (by simp)
  have ectrl : p5 = (s.applySnapshot i).ctrlPayload := eq_of_parseCtrl (c := s.cfg) (by simpa using ctrl)
  rw [e, snapshot_eq_snapshotOf, ecpu, eq_of_parseSp sp, edp, eq_of_parseRam ram, ectrl]
  simp only [State.applySnapshot_cfg, State.applySnapshot_sp, State.applySnapshot_ram]

theorem State.snapshot_header (s : State) (b : Bool) :
    ∃ rest, s.snapshot b =
      bytesOfWord 0x45363453#32 ++ bytesOfWord s.cfg.snapshotVersion ++ bytesOfWord 5#32 ++ rest := by
  simp only [State.snapshot, List.append_assoc]
  exact ⟨_, rfl⟩

theorem load_of_none {stream : List Byte} (h : s.loadSnapshot stream = none) :
    s.load stream = s.reply .corruptState := by
  rw [State.load, h]

theorem load_of_some {stream : List Byte} (h : s.loadSnapshot stream = some t) : s.load stream = t.reply .done := by
  rw [State.load, h]

/-- Settles O56: the stream is the snapshot of the state with the image applied, which the checks of R280 make one that
keeps the invariant. -/
theorem loadedStatesKeepTheInvariant : Obligations.LoadedStatesKeepTheInvariant := by
  unfold Obligations.LoadedStatesKeepTheInvariant
  refine fun s stream h => ⟨load_of_none, fun t loaded => ?_⟩
  obtain ⟨i, parsed, rfl⟩ := Option.map_eq_some_iff.1 loaded
  obtain ⟨includePixels, e⟩ := eq_snapshot_of_parseSnapshot parsed
  refine ⟨?reply, ?header, ⟨includePixels, e⟩, Inv_applySnapshot h parsed, ?cfg, ?rom, ?romSize, ?loop, ?stopReason,
    ?requests⟩
  case reply =>
    rw [State.applyRequest, load_of_some loaded, State.reply, State.emit, State.applySnapshot_outputs]
  case header =>
    have header := (s.applySnapshot i).snapshot_header includePixels
    rwa [← e, State.applySnapshot_cfg] at header
  case cfg | rom | romSize | loop | stopReason | requests => simp

end Sys2Proof.Machine
